-- ==== Sys2Proof/Word.lean ====
section
/-! DEFINITION. The word types of MDRC: the command word of 30_encoding R90, the 20-bit register of 10_state R25, the byte of a
transfer (20_memory R66). -/

namespace Sys2Proof

/-- A command word `C`, 64 bits (R90). -/
abbrev Word := BitVec 64

/-- A configuration register, a datagram, or a StatusResult: 20 bits (R8, R25, R26). -/
abbrev Reg20 := BitVec 20

/-- One byte of a transfer or of the bus buffer (R23, R66). -/
abbrev Byte := BitVec 8

/-- A level that may be unknown: `none` is the spec's `none` of R24 and its "unknown" of R43. -/
abbrev Level := Option Bool

end Sys2Proof
end

