-- ==== Sys2Proof/Syntax.lean ====
section
/-! DEFINITION. The commands of MDRC, one constructor per row of the opcode map (30_encoding R96), with their operands read as
integers (R94): `uN` fields are `Nat`, `sN` fields are `Int`, `u1` fields are `Bool`. `d` is the target field `TGT` (R95). -/

namespace Sys2Proof

/-- A command (R96). -/
inductive Instr where
  | busInit (nb : Nat)
  | busSetbit (u : Nat)
  | busClearbit (u : Nat)
  | busCommit
  | busTeardown
  | busIndex (board slot offset : Nat)
  | mdSetcur (d mA : Nat)
  | mdGetcur (d : Nat)
  | mdSetmres (d : Nat) (n : Int)
  | mdChopConst (d : Nat) (off blank fastDecay sineOffset : Int) (useComparator : Bool)
  | mdChopSpread (d : Nat) (off blank hystStart hystEnd hystDecrement : Int)
  | mdSgt (d : Nat) (t : Int) (filterEnabled : Bool)
  | mdCoolcfg (d lowerThr hysteresis decStep incStep lowerLimit : Nat)
  | mdCoolen (d : Nat) (flag : Bool)
  | mdEnable (d : Nat) (flag : Bool)
  | mdRdstat (d selector : Nat)
  | mdOtpw (d : Nat)
  | mdOt (d : Nat)
  | mdS2ga (d : Nat)
  | mdS2gb (d : Nat)
  | mdOla (d : Nat)
  | mdOlb (d : Nat)
  | mdStst (d : Nat)
  | mdSgreached (d : Nat)
  | mdSgval (d : Nat)
  | mdMstep (d : Nat)
  | mdActcur (d : Nat)
deriving DecidableEq, Repr

/-- The driver an MD command names in its target field; `none` for the BUS family, whose target is 0 (R95). -/
def Instr.target : Instr → Option Nat
  | .busInit _ => none
  | .busSetbit _ => none
  | .busClearbit _ => none
  | .busCommit => none
  | .busTeardown => none
  | .busIndex _ _ _ => none
  | .mdSetcur d _ => some d
  | .mdGetcur d => some d
  | .mdSetmres d _ => some d
  | .mdChopConst d _ _ _ _ _ => some d
  | .mdChopSpread d _ _ _ _ _ => some d
  | .mdSgt d _ _ => some d
  | .mdCoolcfg d _ _ _ _ _ => some d
  | .mdCoolen d _ => some d
  | .mdEnable d _ => some d
  | .mdRdstat d _ => some d
  | .mdOtpw d => some d
  | .mdOt d => some d
  | .mdS2ga d => some d
  | .mdS2gb d => some d
  | .mdOla d => some d
  | .mdOlb d => some d
  | .mdStst d => some d
  | .mdSgreached d => some d
  | .mdSgval d => some d
  | .mdMstep d => some d
  | .mdActcur d => some d

/-- The nine transmitting MD commands (60_exceptions R241). -/
def Instr.transmits : Instr → Bool
  | .mdSetcur _ _ => true
  | .mdSetmres _ _ => true
  | .mdChopConst _ _ _ _ _ _ => true
  | .mdChopSpread _ _ _ _ _ _ => true
  | .mdSgt _ _ _ => true
  | .mdCoolcfg _ _ _ _ _ _ => true
  | .mdCoolen _ _ => true
  | .mdEnable _ _ => true
  | .mdRdstat _ _ => true
  | .busInit _ => false
  | .busSetbit _ => false
  | .busClearbit _ => false
  | .busCommit => false
  | .busTeardown => false
  | .busIndex _ _ _ => false
  | .mdGetcur _ => false
  | .mdOtpw _ => false
  | .mdOt _ => false
  | .mdS2ga _ => false
  | .mdS2gb _ => false
  | .mdOla _ => false
  | .mdOlb _ => false
  | .mdStst _ => false
  | .mdSgreached _ => false
  | .mdSgval _ => false
  | .mdMstep _ => false
  | .mdActcur _ => false

/-- MD_GETCUR and the accessors of 42_status, which read registers and transmit nothing (R153, R201). -/
def Instr.readsOnly (i : Instr) : Bool := i.target.isSome && !i.transmits

/-- The mnemonic of a command (R96). -/
def Instr.mnemonic : Instr → String
  | .busInit _ => "BUS_INIT"
  | .busSetbit _ => "BUS_SETBIT"
  | .busClearbit _ => "BUS_CLEARBIT"
  | .busCommit => "BUS_COMMIT"
  | .busTeardown => "BUS_TEARDOWN"
  | .busIndex _ _ _ => "BUS_INDEX"
  | .mdSetcur _ _ => "MD_SETCUR"
  | .mdGetcur _ => "MD_GETCUR"
  | .mdSetmres _ _ => "MD_SETMRES"
  | .mdChopConst _ _ _ _ _ _ => "MD_CHOP_CONST"
  | .mdChopSpread _ _ _ _ _ _ => "MD_CHOP_SPREAD"
  | .mdSgt _ _ _ => "MD_SGT"
  | .mdCoolcfg _ _ _ _ _ _ => "MD_COOLCFG"
  | .mdCoolen _ _ => "MD_COOLEN"
  | .mdEnable _ _ => "MD_ENABLE"
  | .mdRdstat _ _ => "MD_RDSTAT"
  | .mdOtpw _ => "MD_OTPW"
  | .mdOt _ => "MD_OT"
  | .mdS2ga _ => "MD_S2GA"
  | .mdS2gb _ => "MD_S2GB"
  | .mdOla _ => "MD_OLA"
  | .mdOlb _ => "MD_OLB"
  | .mdStst _ => "MD_STST"
  | .mdSgreached _ => "MD_SGREACHED"
  | .mdSgval _ => "MD_SGVAL"
  | .mdMstep _ => "MD_MSTEP"
  | .mdActcur _ => "MD_ACTCUR"

/-- The opcode `OPC` of a command (R96). -/
def Instr.opcode : Instr → Nat
  | .busInit _ => 0x01
  | .busSetbit _ => 0x02
  | .busClearbit _ => 0x03
  | .busCommit => 0x04
  | .busTeardown => 0x05
  | .busIndex _ _ _ => 0x06
  | .mdSetcur _ _ => 0x10
  | .mdGetcur _ => 0x11
  | .mdSetmres _ _ => 0x12
  | .mdChopConst _ _ _ _ _ _ => 0x13
  | .mdChopSpread _ _ _ _ _ _ => 0x14
  | .mdSgt _ _ _ => 0x15
  | .mdCoolcfg _ _ _ _ _ _ => 0x16
  | .mdCoolen _ _ => 0x17
  | .mdEnable _ _ => 0x18
  | .mdRdstat _ _ => 0x20
  | .mdOtpw _ => 0x21
  | .mdOt _ => 0x22
  | .mdS2ga _ => 0x23
  | .mdS2gb _ => 0x24
  | .mdOla _ => 0x25
  | .mdOlb _ => 0x26
  | .mdStst _ => 0x27
  | .mdSgreached _ => 0x28
  | .mdSgval _ => 0x29
  | .mdMstep _ => 0x2A
  | .mdActcur _ => 0x2B

end Sys2Proof
end

