-- ==== Sys2Proof/WellFormed.lean ====
section
/-! DEFINITION. Which commands an assembler accepts: every operand fits its field (30_encoding R93, R94, R100). -/

namespace Sys2Proof

/-- `x` fits an unsigned field of `k` bits (R94). -/
def fitsU (k x : Nat) : Bool := decide (x < 2 ^ k)

/-- `x` fits a two's-complement field of `k` bits (R94). -/
def fitsS (k : Nat) (x : Int) : Bool := decide (-(2 ^ (k - 1) : Int) ≤ x) && decide (x < (2 ^ (k - 1) : Int))

/-- Every operand fits its field (R93, R100). -/
def Instr.wellFormed : Instr → Bool
  | .busInit nb => fitsU 8 nb
  | .busSetbit u => fitsU 16 u
  | .busClearbit u => fitsU 16 u
  | .busCommit => true
  | .busTeardown => true
  | .busIndex board slot offset => fitsU 8 board && fitsU 8 slot && fitsU 8 offset
  | .mdSetcur d mA => fitsU 4 d && fitsU 16 mA
  | .mdGetcur d => fitsU 4 d
  | .mdSetmres d n => fitsU 4 d && fitsS 16 n
  | .mdChopConst d off blank fastDecay sineOffset _ =>
      fitsU 4 d && fitsS 8 off && fitsS 8 blank && fitsS 8 fastDecay && fitsS 8 sineOffset
  | .mdChopSpread d off blank hystStart hystEnd hystDecrement =>
      fitsU 4 d && fitsS 8 off && fitsS 8 blank && fitsS 8 hystStart && fitsS 8 hystEnd && fitsS 8 hystDecrement
  | .mdSgt d t _ => fitsU 4 d && fitsS 8 t
  | .mdCoolcfg d lowerThr hysteresis decStep incStep lowerLimit =>
      fitsU 4 d && fitsU 16 lowerThr && fitsU 16 hysteresis && fitsU 4 decStep && fitsU 4 incStep && fitsU 4 lowerLimit
  | .mdCoolen d _ => fitsU 4 d
  | .mdEnable d _ => fitsU 4 d
  | .mdRdstat d selector => fitsU 4 d && fitsU 2 selector
  | .mdOtpw d => fitsU 4 d
  | .mdOt d => fitsU 4 d
  | .mdS2ga d => fitsU 4 d
  | .mdS2gb d => fitsU 4 d
  | .mdOla d => fitsU 4 d
  | .mdOlb d => fitsU 4 d
  | .mdStst d => fitsU 4 d
  | .mdSgreached d => fitsU 4 d
  | .mdSgval d => fitsU 4 d
  | .mdMstep d => fitsU 4 d
  | .mdActcur d => fitsU 4 d

end Sys2Proof
end

