-- ==== Sys2Proof/Decode.lean ====
section
/-! DEFINITION. Decoding a command word (30_encoding R90, R93 to R97), and after it the encoder, written from the same tables. -/

namespace Sys2Proof

/-- Why a word is illegal (R97); each gives the status `IllegalCommand`. -/
inductive DecodeError where
  /-- Test 1 of R97: the opcode is not in the table of R96. -/
  | unassignedOpcode
  /-- Test 2 of R97: a reserved bit of the format is 1. -/
  | reservedBit
  /-- Test 3 of R97: a BUS command with a target other than 0. -/
  | busTarget
deriving DecidableEq, Repr

/-- What decoding a word gives. -/
inductive Decoded where
  | legal (i : Instr)
  | illegal (e : DecodeError)
deriving DecidableEq, Repr

/-- `C[hi:lo]` as the non-negative integer its bits spell (R10, R94). -/
def bits (w : Word) (hi lo : Nat) : Nat := w.toNat / 2 ^ lo % 2 ^ (hi - lo + 1)

/-- A `k`-bit value read as a two's-complement integer (R10 `sext`, R94). -/
def signed (k n : Nat) : Int := if n < 2 ^ (k - 1) then (n : Int) else (n : Int) - (2 ^ k : Nat)

/-- `C[hi:lo]` read as a two's-complement integer (R94). -/
def sbits (w : Word) (hi lo : Nat) : Int := signed (hi - lo + 1) (bits w hi lo)

/-- One bit of `C` read as a Boolean (R94). -/
def flagBit (w : Word) (i : Nat) : Bool := bits w i i == 1

/-- The target field `TGT` (R90). -/
def tgt (w : Word) : Nat := bits w 55 52

/-- One row of the opcode map (R96): the first reserved bit of its format (R93: the reserved bits are `51 : reservedFrom`), whether
it is of the BUS family (R95), and the command its fields spell. -/
structure OpcodeRow where
  reservedFrom : Nat
  bus : Bool
  read : Word → Instr

/-- The opcode map (R96) with the formats of R93. -/
def opcodeRow : Nat → Option OpcodeRow
  | 0x01 => some ⟨8, true, fun w => .busInit (bits w 7 0)⟩
  | 0x02 => some ⟨16, true, fun w => .busSetbit (bits w 15 0)⟩
  | 0x03 => some ⟨16, true, fun w => .busClearbit (bits w 15 0)⟩
  | 0x04 => some ⟨0, true, fun _ => .busCommit⟩
  | 0x05 => some ⟨0, true, fun _ => .busTeardown⟩
  | 0x06 => some ⟨24, true, fun w => .busIndex (bits w 7 0) (bits w 15 8) (bits w 23 16)⟩
  | 0x10 => some ⟨16, false, fun w => .mdSetcur (tgt w) (bits w 15 0)⟩
  | 0x11 => some ⟨0, false, fun w => .mdGetcur (tgt w)⟩
  | 0x12 => some ⟨16, false, fun w => .mdSetmres (tgt w) (sbits w 15 0)⟩
  | 0x13 => some ⟨33, false, fun w =>
      .mdChopConst (tgt w) (sbits w 7 0) (sbits w 15 8) (sbits w 23 16) (sbits w 31 24) (flagBit w 32)⟩
  | 0x14 => some ⟨40, false, fun w =>
      .mdChopSpread (tgt w) (sbits w 7 0) (sbits w 15 8) (sbits w 23 16) (sbits w 31 24) (sbits w 39 32)⟩
  | 0x15 => some ⟨9, false, fun w => .mdSgt (tgt w) (sbits w 7 0) (flagBit w 8)⟩
  | 0x16 => some ⟨44, false, fun w =>
      .mdCoolcfg (tgt w) (bits w 15 0) (bits w 31 16) (bits w 35 32) (bits w 39 36) (bits w 43 40)⟩
  | 0x17 => some ⟨1, false, fun w => .mdCoolen (tgt w) (flagBit w 0)⟩
  | 0x18 => some ⟨1, false, fun w => .mdEnable (tgt w) (flagBit w 0)⟩
  | 0x20 => some ⟨2, false, fun w => .mdRdstat (tgt w) (bits w 1 0)⟩
  | 0x21 => some ⟨0, false, fun w => .mdOtpw (tgt w)⟩
  | 0x22 => some ⟨0, false, fun w => .mdOt (tgt w)⟩
  | 0x23 => some ⟨0, false, fun w => .mdS2ga (tgt w)⟩
  | 0x24 => some ⟨0, false, fun w => .mdS2gb (tgt w)⟩
  | 0x25 => some ⟨0, false, fun w => .mdOla (tgt w)⟩
  | 0x26 => some ⟨0, false, fun w => .mdOlb (tgt w)⟩
  | 0x27 => some ⟨0, false, fun w => .mdStst (tgt w)⟩
  | 0x28 => some ⟨0, false, fun w => .mdSgreached (tgt w)⟩
  | 0x29 => some ⟨0, false, fun w => .mdSgval (tgt w)⟩
  | 0x2A => some ⟨0, false, fun w => .mdMstep (tgt w)⟩
  | 0x2B => some ⟨0, false, fun w => .mdActcur (tgt w)⟩
  | _ => none

/-- Decode a command word, the tests in the order of R97. -/
def decode (w : Word) : Decoded :=
  match opcodeRow (bits w 63 56) with
  | none => .illegal .unassignedOpcode
  | some row =>
    if bits w 51 row.reservedFrom ≠ 0 then .illegal .reservedBit
    else if row.bus && tgt w != 0 then .illegal .busTarget
    else .legal (row.read w)

/-- A command word from its opcode, target and operand area (R90). -/
def assemble (opc target area : Nat) : Word := BitVec.ofNat 64 (opc * 2 ^ 56 + target * 2 ^ 52 + area)

/-- The `k`-bit two's-complement bits of an integer (R94). -/
def twos (k : Nat) (x : Int) : Nat := (x % (2 ^ k : Nat)).toNat

/-- A Boolean as a `u1` field (R94). -/
def flagNat (b : Bool) : Nat := if b then 1 else 0

/-- The command word of a well-formed command (R90, R93, R96). -/
def encode : Instr → Word
  | .busInit nb => assemble 0x01 0 nb
  | .busSetbit u => assemble 0x02 0 u
  | .busClearbit u => assemble 0x03 0 u
  | .busCommit => assemble 0x04 0 0
  | .busTeardown => assemble 0x05 0 0
  | .busIndex board slot offset => assemble 0x06 0 (board + slot * 2 ^ 8 + offset * 2 ^ 16)
  | .mdSetcur d mA => assemble 0x10 d mA
  | .mdGetcur d => assemble 0x11 d 0
  | .mdSetmres d n => assemble 0x12 d (twos 16 n)
  | .mdChopConst d off blank fastDecay sineOffset useComparator =>
      assemble 0x13 d (twos 8 off + twos 8 blank * 2 ^ 8 + twos 8 fastDecay * 2 ^ 16 + twos 8 sineOffset * 2 ^ 24
        + flagNat useComparator * 2 ^ 32)
  | .mdChopSpread d off blank hystStart hystEnd hystDecrement =>
      assemble 0x14 d (twos 8 off + twos 8 blank * 2 ^ 8 + twos 8 hystStart * 2 ^ 16 + twos 8 hystEnd * 2 ^ 24
        + twos 8 hystDecrement * 2 ^ 32)
  | .mdSgt d t filterEnabled => assemble 0x15 d (twos 8 t + flagNat filterEnabled * 2 ^ 8)
  | .mdCoolcfg d lowerThr hysteresis decStep incStep lowerLimit =>
      assemble 0x16 d (lowerThr + hysteresis * 2 ^ 16 + decStep * 2 ^ 32 + incStep * 2 ^ 36 + lowerLimit * 2 ^ 40)
  | .mdCoolen d flag => assemble 0x17 d (flagNat flag)
  | .mdEnable d flag => assemble 0x18 d (flagNat flag)
  | .mdRdstat d selector => assemble 0x20 d selector
  | .mdOtpw d => assemble 0x21 d 0
  | .mdOt d => assemble 0x22 d 0
  | .mdS2ga d => assemble 0x23 d 0
  | .mdS2gb d => assemble 0x24 d 0
  | .mdOla d => assemble 0x25 d 0
  | .mdOlb d => assemble 0x26 d 0
  | .mdStst d => assemble 0x27 d 0
  | .mdSgreached d => assemble 0x28 d 0
  | .mdSgval d => assemble 0x29 d 0
  | .mdMstep d => assemble 0x2A d 0
  | .mdActcur d => assemble 0x2B d 0

/-- The instruction the decoder reads from a table word of `nbits` bits. A command is one 64-bit word (R90), so the table's bit
numbers are the bit numbers of `C`; a value that needs more than 64 bits is no command. -/
def decodeTableWord (nbits w : Nat) : Option Instr :=
  if w % 2 ^ nbits < 2 ^ 64 then
    match decode (BitVec.ofNat 64 (w % 2 ^ nbits)) with
    | .legal i => some i
    | .illegal _ => none
  else none

end Sys2Proof
end

