-- ==== Sys2Proof/Config.lean ====
section
/-! DEFINITION. What an implementation fixes (the parameters of 00_scope R7) and the one free value of the model (the answer of a
transfer, 60_exceptions R254). -/

namespace Sys2Proof

/-- One value for each of the five configuration registers of R25. -/
structure Regs (α : Type) where
  drvctrl  : α
  chopconf : α
  smarten  : α
  sgcsconf : α
  drvconf  : α
deriving DecidableEq, Repr

/-- The five registers by name (R25). -/
inductive Reg where
  | drvctrl | chopconf | smarten | sgcsconf | drvconf
deriving DecidableEq, Repr

/-- A bit field `hi:lo` of a 20-bit register (R10). -/
structure Field where
  hi : Nat
  lo : Nat
deriving DecidableEq, Repr

/-- The number of bits of a field. -/
def Field.width (f : Field) : Nat := f.hi - f.lo + 1

/-- The `LAYOUT` parameter (R7, D9): the position of every field of 10_state R31 to R36 that a command reads or writes, and of
the signature. Its value is `Sys2Proof.Machine.layout`. -/
structure Layout where
  sig    : Field
  mres   : Field
  tbl    : Field
  chm    : Field
  hdec   : Field
  cdis   : Field
  tfd3   : Field
  hend   : Field
  hstrt  : Field
  toff   : Field
  seimin : Field
  sedn   : Field
  semax  : Field
  seup   : Field
  semin  : Field
  sfilt  : Field
  sgt    : Field
  cs     : Field
  vsense : Field
  rdsel  : Field
  readout : Field
  actualCs : Field
deriving DecidableEq, Repr

/-- The parameters of the whole block (R7): the largest board count, the electrical level of an active enable line, and the
shadow registers' reset patterns `RESET_*`. -/
structure Params where
  maxBoards : Nat
  enActive  : Bool
  resets    : Regs Reg20
deriving DecidableEq, Repr

/-- The parameters of one driver instance (R6, R7): `RSENSE[d]` in milliohm and `CS_BIT[d]`. -/
structure Wiring where
  rsense : Nat
  csBit  : Nat
deriving DecidableEq, Repr

/-- The formula of `CS_BIT[d]` for a driver's board and slot (R7, D32). -/
def Wiring.at (rsense board slot enableOffset : Nat) : Wiring :=
  { rsense := rsense, csBit := (board - 1) * 32 + (slot - 1) * 8 + enableOffset }

/-- The signature of each register with every other bit 0 (R25), which is the default of `RESET_*` (R7, D11). -/
def Config.signatureOnly : Regs Reg20 :=
  { drvctrl := 0x00000#20, chopconf := 0x80000#20, smarten := 0xA0000#20, sgcsconf := 0xC0000#20, drvconf := 0xE0000#20 }

/-- Legal parameters of the block (R7): `MAX_BOARDS` in 1..255, and reset patterns whose bits 19:17 are the signature. -/
def Params.legal (p : Params) : Bool :=
  decide (1 ≤ p.maxBoards) && decide (p.maxBoards ≤ 255)
    && decide (p.resets.drvctrl.toNat / 2 ^ 17 = 0) && decide (p.resets.chopconf.toNat / 2 ^ 17 = 4)
    && decide (p.resets.smarten.toNat / 2 ^ 17 = 5) && decide (p.resets.sgcsconf.toNat / 2 ^ 17 = 6)
    && decide (p.resets.drvconf.toNat / 2 ^ 17 = 7)

/-- Legal parameters of one driver (R7): `RSENSE` in 1..65535, `CS_BIT` below `32 · MAX_BOARDS`. -/
def Wiring.legal (p : Params) (w : Wiring) : Bool :=
  decide (1 ≤ w.rsense) && decide (w.rsense ≤ 65535) && decide (w.csBit < 32 * p.maxBoards)

/-- Legal parameters of a machine (R7): 1 to 16 drivers, each legal. -/
def Params.legalMachine (p : Params) (ws : List Wiring) : Bool :=
  p.legal && decide (1 ≤ ws.length) && decide (ws.length ≤ 16) && ws.all (Wiring.legal p)

/-- The parameters of the spec's examples (95_test_vectors, preamble): `MAX_BOARDS = 8`, the default `RESET_*`. DESIGN CHOICE (log
entry 1): R7 leaves `MAX_BOARDS` and `EN_ACTIVE` open. -/
def Config.exampleParams : Params := { maxBoards := 8, enActive := true, resets := Config.signatureOnly }

/-- The one driver of the spec's examples: `RSENSE[0] = 91`, `CS_BIT[0] = 0`. DESIGN CHOICE (log entry 1). -/
def Config.exampleWirings : List Wiring := [Wiring.at 91 1 1 0]

/-- What the transfer primitive answers to one `XFER` (R12, R71): three inbound bytes, `r0` received first, or a failure. -/
inductive XferAnswer where
  | bytes (r0 r1 r2 : Byte)
  | fail
deriving DecidableEq, Repr, Inhabited

/-- FREE VALUE (R254, U3, U4, D41; log entry 5): the answer to the transfer with this number when the environment has lined none up.
It has no body, so nothing can be proved of it. -/
opaque Config.freeAnswer : Nat → XferAnswer

end Sys2Proof
end

