-- ==== Sys2Proof/Machine/State.lean ====
section
/-! DEFINITION. The state of MDRC and of the agents its rules are stated against (10_state, 60_exceptions R252, R254), as plain data,
and the state after reset (10_state R44, 70_reset_and_hazards R271). -/

namespace Sys2Proof.Machine

/-- `BUS_STATE` (R20). -/
inductive BusState where
  | uninitialized
  | ready
deriving DecidableEq, Repr

/-- The status codes by name (60_exceptions R240); their numbers are `Status.code`. -/
inductive Status where
  | ok
  | invalidParameter
  | notInitialized
  | alreadyInitialized
  | transferFailure
  | illegalCommand
deriving DecidableEq, Repr

/-- The line and transfer events of 00_scope R12. -/
inductive Event where
  /-- `EN(b)`; `true` is "active". -/
  | en (b : Bool)
  /-- `DAT(b)`. -/
  | dat (b : Bool)
  /-- `CLK(b)`. -/
  | clk (b : Bool)
  /-- `STB(b)`. -/
  | stb (b : Bool)
  /-- `WAIT`, a hold of duration `HOLD`, on which no rule depends (70 R284; log entry 3). -/
  | wait
  /-- `XFER(t0, t1, t2)`, the bytes sent, in that order. -/
  | xfer (t0 t1 t2 : Byte)
deriving DecidableEq, Repr

/-- A response (30_encoding R92): a u3 status and a u32 result. -/
structure Response where
  status : BitVec 3
  result : BitVec 32
deriving DecidableEq, Repr

/-- The four lines (10_state R24) and the reference chain that hangs on them (60_exceptions R252). A level that is not driven yet or
not known is `none` (R24, R43). `stages` is `S`, `latches` is `Q`; stage 0 is nearest MDRC. -/
structure Wires where
  en      : Level
  dat     : Level
  clk     : Level
  stb     : Level
  stages  : List Level
  latches : List Level
deriving DecidableEq, Repr

/-- What one output of the reference chain shows (60_exceptions R252). -/
inductive Output where
  /-- The output is driven with its latch; `none` is a latch of unknown content (R43). -/
  | driven (q : Level)
  /-- The enable line is inactive: the output is not driven. -/
  | notDriven
  /-- The level of the enable line is unknown (R24), and so is what the output shows (70 R274; log entry 15). -/
  | unknown
deriving DecidableEq, Repr

/-- The motor-driver chip behind a driver's transmits (10_state R42): its own copy of the five registers, `none` where the spec says
the content is unknown, and the selector it held before the transfer that latched `STATUS[d]` (20_memory R74), `none` if unknown. No
command reads any of it (R30). -/
structure Chip where
  regs      : Regs (Option Reg20)
  statusSel : Option Nat
deriving DecidableEq, Repr

/-- One MDRM instance (10_state R25 to R28) with its parameters (00_scope R6, R7) and the chip behind it. -/
structure Driver where
  wiring    : Wiring
  shadow    : Regs Reg20
  status    : Reg20
  offCache  : BitVec 4
  lthrCache : BitVec 4
  chip      : Chip
deriving DecidableEq, Repr

/-- The whole machine: MDRC's state (10_state §§1, 2, 4), the parameters it was built with (R7), the external agents, and the record of
the run so far (70 R291). -/
structure State where
  /-- The block's parameters (R7); no command writes them. -/
  params     : Params
  /-- `BUS_STATE` (R20). -/
  busState   : BusState
  /-- `NB` (R21). -/
  nb         : Nat
  /-- `BUF` (R22, R23): bit `i` at byte `i >> 3`, bit `i & 7`; sorted cells, none of them 0. -/
  buf        : List Host.Cell
  /-- The four lines (R24) and the reference chain (R252). -/
  wires      : Wires
  /-- The `N_DRIVERS` MDRM instances; instance `d` is entry `d` (R6, R25). -/
  drivers    : List Driver
  /-- `HALTED` (R38). -/
  halted     : Bool
  /-- `SUBADDR_LOG` (R39). -/
  subaddrLog : Bool
  /-- `RESP_STATUS` (R40). -/
  respStatus : BitVec 3
  /-- `RESP_RESULT` (R40). -/
  respResult : BitVec 32
  /-- The host's words still to be presented at the command port, the next one first (R90, R91). -/
  port       : List Word
  /-- The model's own: answers the environment has lined up for the coming transfers, the next one first (log entry 5). -/
  inbound    : List XferAnswer
  /-- The model's own: how many transfers have been made, the argument of `Config.freeAnswer` (log entry 5). -/
  xferCount  : Nat
  /-- The event list of the run, oldest first (R12, R291). -/
  events     : List Event
  /-- The responses of the run, oldest first (R291). -/
  responses  : List Response
deriving DecidableEq, Repr

/-- The reasons a step can stop the machine. -/
inductive Fault where
  /-- Raised by `step` in a halted state (60_exceptions R246): the port accepts nothing and gives no response, and the run has gone
  wrong. Safe: the spec itself says that nothing happens from here. -/
  | halted
deriving DecidableEq, Repr

/-- The reasons an instruction has no meaning here. -/
inductive Refusal where
  /-- Raised by an arm of `exec` for an instruction that has no meaning yet; no arm does. Safe: nothing is claimed of it. -/
  | notModelled (mnemonic : String)
deriving DecidableEq, Repr

/-- A chip of which nothing is known (R42, R274, R279). -/
def Chip.unknown : Chip :=
  { regs := { drvctrl := none, chopconf := none, smarten := none, sgcsconf := none, drvconf := none }, statusSel := none }

/-- The four lines before the first BUS_INIT (R24, R44) and a chain whose length is not fixed yet (log entry 7). -/
def Wires.reset : Wires := { en := none, dat := none, clk := none, stb := none, stages := [], latches := [] }

/-- A driver instance at reset (R44). -/
def Driver.reset (p : Params) (w : Wiring) : Driver :=
  { wiring := w, shadow := p.resets, status := 0#20, offCache := 0#4, lthrCache := 0#4, chip := Chip.unknown }

/-- The state after reset (R44, R271, R272), for any parameters: the spec's model takes them as arguments (R7). -/
def State.resetWith (p : Params) (ws : List Wiring) : State :=
  { params := p
    busState := .uninitialized
    nb := 0
    buf := []
    wires := Wires.reset
    drivers := ws.map (Driver.reset p)
    halted := false
    subaddrLog := false
    respStatus := 0#3
    respResult := 0#32
    port := []
    inbound := []
    xferCount := 0
    events := []
    responses := [] }

/-- The state after reset at the parameters of the spec's examples (log entry 1). -/
def State.reset : State := State.resetWith Config.exampleParams Config.exampleWirings

end Sys2Proof.Machine
end

