-- ==== Sys2Proof/Machine/Flags.lean ====
section
/-! DEFINITION. MDRC has no flags and no condition codes (10_state R40): its condition indicators are the status code and the result of
the last response. This file holds the codes (60_exceptions R240) and the writing of a response (30_encoding R92), which is every flag
computation the spec gives. -/

namespace Sys2Proof.Machine

/-- The number of a status code (R240). -/
def Status.code : Status → BitVec 3
  | .ok => 0#3
  | .invalidParameter => 1#3
  | .notInitialized => 2#3
  | .alreadyInitialized => 3#3
  | .transferFailure => 4#3
  | .illegalCommand => 5#3

/-- Present a response: it is copied to `RESP_STATUS` and `RESP_RESULT` (R92) and joins the run's list of responses (R291). -/
def respond (st : Status) (result : BitVec 32) (s : State) : State :=
  { s with respStatus := st.code, respResult := result, responses := s.responses ++ [{ status := st.code, result := result }] }

/-- `raise E` (R12): end the command with a status and result 0 (R92). -/
def raise (st : Status) (s : State) : Host.Outcome State Fault Refusal := .next (respond st 0#32 s)

/-- `return v` (R12): end the command with status OK and a 32-bit result. -/
def answer (v : Nat) (s : State) : Host.Outcome State Fault Refusal := .next (respond .ok (BitVec.ofNat 32 v) s)

/-- End a command that returns nothing with the status its last transmit gave (R92, R150). -/
def conclude (r : State × Status) : Host.Outcome State Fault Refusal := raise r.2 r.1

end Sys2Proof.Machine
end

