-- ==== Sys2Proof/Machine/Operands.lean ====
section
/-! DEFINITION. The arithmetic of the commands: field access (00_scope R10, 41_encoders R151), the field positions (10_state R31 to
R36), the clamps and codes (R11, R151), the current formulas (R152, R154), the microstep index (R155), the index map (20_memory R61) and
the framing of a datagram (R66, R67). -/

namespace Sys2Proof.Machine

/-- The default `LAYOUT` (R7): the tables of 10_state R31 to R36. -/
def layout : Layout :=
  { sig := ⟨19, 17⟩
    mres := ⟨3, 0⟩
    tbl := ⟨16, 15⟩
    chm := ⟨14, 14⟩
    hdec := ⟨12, 11⟩
    cdis := ⟨12, 12⟩
    tfd3 := ⟨11, 11⟩
    hend := ⟨10, 7⟩
    hstrt := ⟨6, 4⟩
    toff := ⟨3, 0⟩
    seimin := ⟨15, 15⟩
    sedn := ⟨14, 13⟩
    semax := ⟨12, 8⟩
    seup := ⟨6, 5⟩
    semin := ⟨4, 0⟩
    sfilt := ⟨16, 16⟩
    sgt := ⟨14, 8⟩
    cs := ⟨4, 0⟩
    vsense := ⟨6, 6⟩
    rdsel := ⟨5, 4⟩
    readout := ⟨19, 10⟩
    actualCs := ⟨14, 10⟩ }

/-- `r[hi:lo]` (R10). -/
def getf (r : Reg20) (f : Field) : Nat := r.toNat / 2 ^ f.lo % 2 ^ f.width

/-- The bits of a field, as a mask. -/
def fieldMask (f : Field) : Reg20 := BitVec.ofNat 20 ((2 ^ f.width - 1) * 2 ^ f.lo)

/-- `setf(r, hi, lo, v)`: `r` with bits `hi..lo` replaced by `v[hi-lo:0]` (R151). -/
def setf (r : Reg20) (f : Field) (v : Nat) : Reg20 :=
  (r &&& ~~~(fieldMask f)) ||| (BitVec.ofNat 20 (v * 2 ^ f.lo) &&& fieldMask f)

/-- One of the five registers (R25). -/
def getReg {α : Type} (r : Regs α) : Reg → α
  | .drvctrl => r.drvctrl
  | .chopconf => r.chopconf
  | .smarten => r.smarten
  | .sgcsconf => r.sgcsconf
  | .drvconf => r.drvconf

/-- Write one of the five registers (R25). -/
def setReg {α : Type} (r : Regs α) (k : Reg) (v : α) : Regs α :=
  match k with
  | .drvctrl => { r with drvctrl := v }
  | .chopconf => { r with chopconf := v }
  | .smarten => { r with smarten := v }
  | .sgcsconf => { r with sgcsconf := v }
  | .drvconf => { r with drvconf := v }

/-- The register a datagram writes, by its bits 19:17 (R25, R99); the three signatures MDRC never sends name none (R63). -/
def regOfDatagram (v : Reg20) : Option Reg :=
  match getf v layout.sig with
  | 0 => some .drvctrl
  | 4 => some .chopconf
  | 5 => some .smarten
  | 6 => some .sgcsconf
  | 7 => some .drvconf
  | _ => none

/-- `clamp(x, lo, hi)` (R11). -/
def clamp (x lo hi : Int) : Int := min (max x lo) hi

/-- `offCode` (R151). -/
def offCode (off : Int) : Nat := (clamp off 2 15).toNat

/-- `blankCode` (R151). -/
def blankCode (b : Int) : Nat := if b ≥ 54 then 3 else if b ≥ 36 then 2 else if b ≥ 24 then 1 else 0

/-- `bias3` (R151). -/
def bias3 (x : Int) : Nat := (clamp x (-3) 12 + 3).toNat

/-- The fast-decay time code of R157. -/
def fastDecayCode (x : Int) : Nat := (clamp x 0 15).toNat

/-- The hysteresis start code of R158. -/
def hystStartCode (x : Int) : Nat := (clamp x 1 8 - 1).toNat

/-- The hysteresis decrement code of R158. -/
def hystDecrementCode (x : Int) : Nat := (clamp x 0 3).toNat

/-- The stall-guard threshold field of R159: `clamp(t, -64, 63) mod 128`. -/
def sgtCode (t : Int) : Nat := (clamp t (-64) 63 % 128).toNat

/-- The CoolStep threshold code of R160: `clamp(x, 0, 480) div 32`. -/
def coolCode (x : Nat) : Nat := min x 480 / 32

/-- A `u1` field of a Boolean operand (R94). -/
def bitOf (b : Bool) : Nat := if b then 1 else 0

/-- The unclamped scale against a reference: `floor((64*R*mA - V) / (2*V))`, `V` the reference's constant (R152). Division by a positive
integer rounds toward minus infinity here (R11). -/
def rawScale (v R mA : Nat) : Int := (64 * (R : Int) * (mA : Int) - (v : Int)) / (2 * (v : Int))

/-- R152: the half-reference flag `vs` and the scale `cs` for a current. -/
def currentScale (R mA : Nat) : Nat × Nat :=
  if rawScale 310000 R mA < 16 then (1, (clamp (rawScale 165000 R mA) 0 31).toNat)
  else (0, (clamp (rawScale 310000 R mA) 0 31).toNat)

/-- `DEQ(cs, vs, R)` (R154). -/
def deq (cs vs R : Nat) : Nat := (cs + 1) * (if vs = 1 then 165000 else 310000) / (32 * R)

/-- The microstep index of R155: 8 for `n ≤ 1`, else the smallest `i` in 0..8 with `256 >> i ≤ n`. -/
def mresIndex (n : Int) : Nat :=
  if n ≤ 1 then 8 else ((List.range 9).find? fun i => decide (((256 >>> i : Nat) : Int) ≤ n)).getD 8

/-- The index map (R61). -/
def busBit (board slot offset : Nat) : Nat := (board - 1) * 32 + (slot - 1) * 8 + offset

/-- The bytes of a datagram, most significant first, the value right-aligned in 24 bits (R66). -/
def datagram (v : Reg20) : Event :=
  .xfer (BitVec.ofNat 8 (v.toNat / 2 ^ 16)) (BitVec.ofNat 8 (v.toNat / 2 ^ 8)) (BitVec.ofNat 8 v.toNat)

/-- `{r0, r1, r2}[23:4]`: the low 4 bits of the captured word are discarded (R67). -/
def capture (r0 r1 r2 : Byte) : Reg20 :=
  BitVec.ofNat 20 ((r0.toNat * 2 ^ 16 + r1.toNat * 2 ^ 8 + r2.toNat) / 2 ^ 4)

end Sys2Proof.Machine
end

