-- ==== Sys2Proof/Machine/Ops.lean ====
section
/-! DEFINITION. The shared operations: the bit buffer (20_memory R60, R69), the lines and the reference chain (60_exceptions R252), the
commit sequence (40_iochain R124), driver instances and their sub-address check (60_exceptions R244), the transfer primitive with the
chips behind it (R254, 10_state R42), and transmit (20_memory R70). MDRC takes no exceptions (R247): an error is a response
(`raise` in Flags.lean), and the one fatal fault is `HALTED` (R246, `halt`). -/

namespace Sys2Proof.Machine

/-! ## The bit buffer -/

/-- The byte at an address; an unlisted address reads as 0, as BUS_INIT leaves it (R22; log entry 4). -/
def Memory.read (m : List Host.Cell) (a : Nat) : Byte :=
  match m with
  | [] => 0#8
  | c :: rest => if c.1 = a then c.2 else Memory.read rest a

/-- The cells of every other address. -/
def Memory.erase (m : List Host.Cell) (a : Nat) : List Host.Cell := m.filter fun c => c.1 != a

/-- Put a cell before the first one of a higher address. -/
def Memory.insert (m : List Host.Cell) (a : Nat) (v : Byte) : List Host.Cell :=
  match m with
  | [] => [(a, v)]
  | c :: rest => if c.1 < a then c :: Memory.insert rest a v else (a, v) :: c :: rest

/-- Write a byte; a zero is not listed, so that equal buffers are equal lists. -/
def Memory.write (m : List Host.Cell) (a : Nat) (v : Byte) : List Host.Cell :=
  if v = 0#8 then Memory.erase m a else Memory.insert (Memory.erase m a) a v

/-- The canonical form: addresses strictly rising, no byte 0. -/
abbrev Memory.wf (m : List Host.Cell) : Prop :=
  m.Pairwise (fun c c' => c.1 < c'.1) ∧ ∀ c ∈ m, c.2 ≠ 0#8

/-- `BUF[i]`: bit `i & 7` of byte `i >> 3` (R23). -/
def Memory.readBit (m : List Host.Cell) (i : Nat) : Bool := (Memory.read m (i / 8)).getLsbD (i % 8)

/-- A byte with one bit replaced. -/
def setBitOfByte (v : Byte) (k : Nat) (b : Bool) : Byte :=
  if b then v ||| (1#8 <<< k) else v &&& ~~~(1#8 <<< k)

/-- `BUF[i] <- b` (R12, R60). -/
def Memory.writeBit (m : List Host.Cell) (i : Nat) (b : Bool) : List Host.Cell :=
  Memory.write m (i / 8) (setBitOfByte (Memory.read m (i / 8)) (i % 8) b)

/-- `BUF[i] <- b` in the machine. -/
def writeBuf (i : Nat) (b : Bool) (s : State) : State := { s with buf := Memory.writeBit s.buf i b }

/-! ## Lines, chain, events -/

/-- The serial stages after a rising clock edge (R252): `S[0] <- DAT`, each other stage takes its neighbour's value. -/
def shiftIn (dat : Level) (stages : List Level) : List Level := (dat :: stages).take stages.length

/-- A line is at level 0, as R252 asks of the level before a rising edge. DESIGN CHOICE: an unknown level makes no edge; no run raises CLK or STB
from one, since BUS_INIT drives both to 0 first (log entry 15). -/
def isLow (l : Level) : Bool := l == some false

/-- What one event does to the lines (R24) and to the reference chain (R252). -/
def Wires.drive (w : Wires) : Event → Wires
  | .en b => { w with en := some b }
  | .dat b => { w with dat := some b }
  | .clk b => { w with clk := some b, stages := if b && isLow w.clk then shiftIn w.dat w.stages else w.stages }
  | .stb b => { w with stb := some b, latches := if b && isLow w.stb then w.stages else w.latches }
  | .wait => w
  | .xfer _ _ _ => w

/-- `emit` each event of a list, in order (R12). -/
def emit (es : List Event) (s : State) : State :=
  { s with events := s.events ++ es, wires := es.foldl Wires.drive s.wires }

/-- The chain's length is that of the buffer (R252, D31): stages a new BUS_INIT adds are unknown (R274; log entry 7). -/
def resizeChain (n : Nat) (l : List Level) : List Level := (l ++ List.replicate n none).take n

/-- Output `k` of the chain (R252): driven with `Q[k]` while EN is active, not driven while it is inactive. Before the first BUS_INIT the level
of EN is unknown (R24, 70 R274, 93 U23), and R252 does not say what an output then shows: DEDUCED, the output is unknown, neither driven nor
undriven (log entry 15). -/
def chainOutput (w : Wires) (k : Nat) : Output :=
  match w.en with
  | some true => .driven (w.latches.getD k none)
  | some false => .notDriven
  | none => .unknown

/-- The electrical level of the enable line (R24, R7): `LINE_EN = 1` is the level `EN_ACTIVE`. -/
def enLineElectrical (s : State) : Level := s.wires.en.map fun active => active == s.params.enActive

/-- The bits of the buffer from index `n - 1` down to 0 (R65). -/
def bitsDown (m : List Host.Cell) : Nat → List Bool
  | 0 => []
  | n + 1 => Memory.readBit m n :: bitsDown m n

/-- The events of one bit of a commit (R124). -/
def bitEvents (b : Bool) : List Event := [.dat b, .wait, .clk true, .clk false, .dat false, .wait]

/-- The events of COMMIT_SEQ on a buffer of `nb` boards (R124). -/
def commitEvents (m : List Host.Cell) (nb : Nat) : List Event :=
  (bitsDown m (32 * nb)).flatMap bitEvents ++ [.stb true, .stb false]

/-- COMMIT_SEQ (R124). -/
def commitSeq (s : State) : State := emit (commitEvents s.buf s.nb) s

/-- `halt` (R12, R246): MDRC stops with no response. -/
def halt (s : State) : Host.Outcome State Fault Refusal := .next { s with halted := true }

/-! ## The command port -/

/-- The port takes the host's next word (R91); `none` while the host presents none. -/
def acceptWord (s : State) : Option (Word × State) :=
  match s.port with
  | [] => none
  | w :: rest => some (w, { s with port := rest })

/-- The response to an illegal word (R97): IllegalCommand, and nothing else changes. -/
def refuseWord (s : State) : Host.Outcome State Fault Refusal := raise .illegalCommand s

/-! ## Driver instances -/

/-- What reading an instance that does not exist gives; no command reads one, since R244 comes first. -/
def Driver.absent : Driver := Driver.reset Config.exampleParams { rsense := 1, csBit := 0 }

/-- Instance `d`. -/
def State.driver (s : State) (d : Nat) : Driver := s.drivers.getD d Driver.absent

/-- Change instance `d`. -/
def State.modifyDriver (s : State) (d : Nat) (f : Driver → Driver) : State :=
  { s with drivers := s.drivers.modify d f }

/-- The sub-address check of an MD command (R243 (3), R244): a target `d >= N_DRIVERS` changes nothing, sets `SUBADDR_LOG` and answers OK
with result 0; otherwise the command's own rule runs on instance `d`. -/
def onDriver (d : Nat) (s : State) (run : Driver → Host.Outcome State Fault Refusal) : Host.Outcome State Fault Refusal :=
  match s.drivers[d]? with
  | none => answer 0 { s with subaddrLog := true }
  | some m => run m

/-- Write a shadow register of instance `d`. -/
def writeShadow (d : Nat) (r : Reg) (v : Reg20) (s : State) : State :=
  s.modifyDriver d fun m => { m with shadow := setReg m.shadow r v }

/-- Write `OFF_CACHE[d]` (R27). -/
def writeOffCache (d v : Nat) (s : State) : State :=
  s.modifyDriver d fun m => { m with offCache := BitVec.ofNat 4 v }

/-- Write `LTHR_CACHE[d]` (R28). -/
def writeLthrCache (d v : Nat) (s : State) : State :=
  s.modifyDriver d fun m => { m with lthrCache := BitVec.ofNat 4 v }

/-! ## The transfer primitive and the chips behind it -/

/-- The selector a chip holds (R42): bits 5:4 of its own DriverConfig, unknown while that is. -/
def Chip.selector (c : Chip) : Option Nat := c.regs.drvconf.map fun v => getf v layout.rdsel

/-- A datagram reaches a chip (R42, R99): the register its signature names takes the value; one that names no register is never sent
(R63), and leaves the registers unknown. -/
def Chip.receive (c : Chip) (v : Reg20) : Chip :=
  match regOfDatagram v with
  | some r => { c with regs := setReg c.regs r (some v) }
  | none => { c with regs := Chip.unknown.regs }

/-- A transmit ended in an error: the register holds the new value or the old one (R164), which of the two is unknown (R283). -/
def Chip.receiveMaybe (c : Chip) (v : Reg20) : Chip :=
  match regOfDatagram v with
  | some r => { c with regs := setReg c.regs r none }
  | none => { c with regs := Chip.unknown.regs }

/-- The chip-select bit of a driver stands at 1 in the buffer, so its chip is not selected (R70, R279). -/
def deselected (s : State) (m : Driver) : Bool :=
  decide (m.wiring.csBit < 32 * s.nb) && Memory.readBit s.buf m.wiring.csBit

/-- More than one chip may be selected (R279): the host has not kept every other driver's chip-select bit at 1. -/
def contended (s : State) : Bool := decide (1 < (s.drivers.filter fun m => !deselected s m).length)

/-- What a transfer to instance `d` leaves in the chips. With one chip selected, its register takes the datagram (R42), or is unknown after
a failure (R164); a word it answers is for the selector it held before (R74). With more than one, the registers of every selected chip are
unknown afterwards, and so is the selector of the word (R279, D41). -/
def deliver (d : Nat) (v : Reg20) (ans : XferAnswer) (s : State) : State :=
  if contended s then
    { s with drivers := s.drivers.map fun m =>
        if deselected s m then m else { m with chip := { m.chip with regs := Chip.unknown.regs } } }
  else
    s.modifyDriver d fun m =>
      { m with chip := match ans with
          | .bytes _ _ _ => m.chip.receive v
          | .fail => m.chip.receiveMaybe v }

/-- The answer to the next transfer (R254): the one the environment has lined up, else a free value. -/
def nextAnswer (s : State) : XferAnswer :=
  match s.inbound with
  | a :: _ => a
  | [] => Config.freeAnswer s.xferCount

/-- `XFER` of the datagram `v` to instance `d` (R12, R66): the event, the answer used up, the chips' side of it. -/
def xfer (d : Nat) (v : Reg20) (s : State) : State :=
  let sent := emit [datagram v] (deliver d v (nextAnswer s) s)
  { sent with inbound := s.inbound.tail, xferCount := s.xferCount + 1 }

/-- The selector a word answered to instance `d` now would be for (R74); unknown if more than one chip is selected (R279). -/
def wordSelector (d : Nat) (s : State) : Option Nat :=
  if contended s then none else (s.driver d).chip.selector

/-- Store a status word in `STATUS[d]` (R67), with the selector it is for (R74). -/
def storeStatus (d : Nat) (word : Reg20) (sel : Option Nat) (s : State) : State :=
  s.modifyDriver d fun m => { m with status := word, chip := { m.chip with statusSel := sel } }

/-! ## Transmit -/

/-- Select the chip of instance `d`: clear its bit and commit (R70). -/
def selectChip (d : Nat) (s : State) : State := commitSeq (writeBuf (s.driver d).wiring.csBit false s)

/-- Deselect the chip of instance `d`: set its bit and commit (R70). -/
def deselectChip (d : Nat) (s : State) : State := commitSeq (writeBuf (s.driver d).wiring.csBit true s)

/-- What a transmit that is not refused does on the wires, whatever the answer (R70, R77): select, transfer, deselect. -/
def exchange (d : Nat) (v : Reg20) (s : State) : State := deselectChip d (xfer d v (selectChip d s))

/-- A transmit is refused: MDRC's own state is untouched (R70), and what the chip holds in the register that was to be sent counts as
unknown from here on (70 R283; log entry 8). -/
def refuseTransmit (d : Nat) (v : Reg20) (s : State) : State :=
  s.modifyDriver d fun m => { m with chip := m.chip.receiveMaybe v }

/-- `transmit(d, v)` (R70): the two refusals first, with no event; then the exchange, and the status word stored if the transfer
answered (R67). The status is `ok` if the calling rule goes on. -/
def transmit (d : Nat) (v : Reg20) (s : State) : State × Status :=
  if s.busState ≠ .ready then (refuseTransmit d v s, .notInitialized)
  else if 32 * s.nb ≤ (s.driver d).wiring.csBit then (refuseTransmit d v s, .invalidParameter)
  else
    match nextAnswer s with
    | .fail => (exchange d v s, .transferFailure)
    | .bytes r0 r1 r2 => (storeStatus d (capture r0 r1 r2) (wordSelector d (selectChip d s)) (exchange d v s), .ok)

/-- A second transmit, which runs only if the first returned OK (R150). -/
def thenTransmit (d : Nat) (v : Reg20) (r : State × Status) : State × Status :=
  match r.2 with
  | .ok => transmit d v r.1
  | .invalidParameter => r
  | .notInitialized => r
  | .alreadyInitialized => r
  | .transferFailure => r
  | .illegalCommand => r

/-- What every encoding command does with a packed register (R150): write the shadow, then transmit it. -/
def sendReg (d : Nat) (r : Reg) (v : Reg20) (s : State) : State × Status := transmit d v (writeShadow d r v s)

end Sys2Proof.Machine
end

