-- ==== Sys2Proof/Machine/Encoders.lean ====
section
/-! DEFINITION. The motor-driver configuration encoders (41_encoders R150 to R164). Each packs its fields into a shadow register, writes
the caches its rule names, and transmits; the shadow keeps the new value whatever the transmit returns (R150). -/

namespace Sys2Proof.Machine

/-- MD_SETCUR (R152): both shadows are written, then DriverConfig and StallGuardCurrent are sent, in that order. -/
def execMdSetcur (d mA : Nat) (s : State) : Host.Outcome State Fault Refusal :=
  onDriver d s fun m =>
    let scale := currentScale m.wiring.rsense mA
    let drvconf := setf m.shadow.drvconf layout.vsense scale.1
    let sgcsconf := setf m.shadow.sgcsconf layout.cs scale.2
    conclude (thenTransmit d sgcsconf
      (transmit d drvconf (writeShadow d .sgcsconf sgcsconf (writeShadow d .drvconf drvconf s))))

/-- MD_GETCUR (R153). -/
def execMdGetcur (d : Nat) (s : State) : Host.Outcome State Fault Refusal :=
  onDriver d s fun m =>
    answer (deq (getf m.shadow.sgcsconf layout.cs) (getf m.shadow.drvconf layout.vsense) m.wiring.rsense) s

/-- MD_SETMRES (R155). -/
def execMdSetmres (d : Nat) (n : Int) (s : State) : Host.Outcome State Fault Refusal :=
  onDriver d s fun m => conclude (sendReg d .drvctrl (setf m.shadow.drvctrl layout.mres (mresIndex n)) s)

/-- The fields MD_CHOP_CONST packs into ChopperConfig (R157). -/
def packChopConst (c : Reg20) (off blank fastDecay sineOffset : Int) (useComparator : Bool) : Reg20 :=
  let c := setf c layout.tbl (blankCode blank)
  let c := setf c layout.chm 1
  let c := setf c layout.cdis (bitOf !useComparator)
  let c := setf c layout.tfd3 (fastDecayCode fastDecay / 8)
  let c := setf c layout.hend (bias3 sineOffset)
  let c := setf c layout.hstrt (fastDecayCode fastDecay % 8)
  setf c layout.toff (offCode off)

/-- MD_CHOP_CONST (R157). -/
def execMdChopConst (d : Nat) (off blank fastDecay sineOffset : Int) (useComparator : Bool) (s : State) :
    Host.Outcome State Fault Refusal :=
  onDriver d s fun m =>
    conclude (sendReg d .chopconf (packChopConst m.shadow.chopconf off blank fastDecay sineOffset useComparator)
      (writeOffCache d (offCode off) s))

/-- The fields MD_CHOP_SPREAD packs into ChopperConfig (R158). -/
def packChopSpread (c : Reg20) (off blank hystStart hystEnd hystDecrement : Int) : Reg20 :=
  let c := setf c layout.tbl (blankCode blank)
  let c := setf c layout.chm 0
  let c := setf c layout.hdec (hystDecrementCode hystDecrement)
  let c := setf c layout.hend (bias3 hystEnd)
  let c := setf c layout.hstrt (hystStartCode hystStart)
  setf c layout.toff (offCode off)

/-- MD_CHOP_SPREAD (R158). -/
def execMdChopSpread (d : Nat) (off blank hystStart hystEnd hystDecrement : Int) (s : State) :
    Host.Outcome State Fault Refusal :=
  onDriver d s fun m =>
    conclude (sendReg d .chopconf (packChopSpread m.shadow.chopconf off blank hystStart hystEnd hystDecrement)
      (writeOffCache d (offCode off) s))

/-- MD_SGT (R159). -/
def execMdSgt (d : Nat) (t : Int) (filterEnabled : Bool) (s : State) : Host.Outcome State Fault Refusal :=
  onDriver d s fun m =>
    conclude (sendReg d .sgcsconf
      (setf (setf m.shadow.sgcsconf layout.sfilt (bitOf filterEnabled)) layout.sgt (sgtCode t)) s)

/-- The fields MD_COOLCFG packs into CoolStep (R160). -/
def packCoolcfg (c : Reg20) (lowerThr hysteresis decStep incStep lowerLimit : Nat) : Reg20 :=
  let c := setf c layout.seimin (min lowerLimit 1)
  let c := setf c layout.sedn (min decStep 3)
  let c := setf c layout.semax (coolCode hysteresis)
  let c := setf c layout.seup (min incStep 3)
  setf c layout.semin (coolCode lowerThr)

/-- MD_COOLCFG (R160). -/
def execMdCoolcfg (d lowerThr hysteresis decStep incStep lowerLimit : Nat) (s : State) :
    Host.Outcome State Fault Refusal :=
  onDriver d s fun m =>
    conclude (sendReg d .smarten (packCoolcfg m.shadow.smarten lowerThr hysteresis decStep incStep lowerLimit)
      (writeLthrCache d (coolCode lowerThr) s))

/-- MD_COOLEN (R161). -/
def execMdCoolen (d : Nat) (flag : Bool) (s : State) : Host.Outcome State Fault Refusal :=
  onDriver d s fun m =>
    conclude (sendReg d .smarten (setf m.shadow.smarten layout.semin (if flag then m.lthrCache.toNat else 0)) s)

/-- MD_ENABLE (R162). -/
def execMdEnable (d : Nat) (flag : Bool) (s : State) : Host.Outcome State Fault Refusal :=
  onDriver d s fun m =>
    conclude (sendReg d .chopconf (setf m.shadow.chopconf layout.toff (if flag then m.offCache.toNat else 0)) s)

end Sys2Proof.Machine
end

