-- ==== Sys2Proof/Machine/IOChainBus.lean ====
section
/-! DEFINITION. The IOChainBus commands (40_iochain R120 to R129). -/

namespace Sys2Proof.Machine

/-- BUS_INIT (R121). -/
def execBusInit (nb : Nat) (s : State) : Host.Outcome State Fault Refusal :=
  if nb < 1 then raise .invalidParameter s
  else if s.busState = .ready then raise .alreadyInitialized s
  else if s.params.maxBoards < nb then halt s
  else
    let chain := { s.wires with
      stages := resizeChain (32 * nb) s.wires.stages, latches := resizeChain (32 * nb) s.wires.latches }
    answer 0 (emit [.dat false, .clk false, .stb false, .en true]
      { s with nb := nb, buf := [], busState := .ready, wires := chain })

/-- BUS_SETBIT (R122). -/
def execBusSetbit (u : Nat) (s : State) : Host.Outcome State Fault Refusal :=
  if s.busState ≠ .ready then raise .notInitialized s
  else if 32 * s.nb ≤ u then raise .invalidParameter s
  else answer 0 (writeBuf u true s)

/-- BUS_CLEARBIT (R123). -/
def execBusClearbit (u : Nat) (s : State) : Host.Outcome State Fault Refusal :=
  if s.busState ≠ .ready then raise .notInitialized s
  else if 32 * s.nb ≤ u then raise .invalidParameter s
  else answer 0 (writeBuf u false s)

/-- BUS_COMMIT (R125). -/
def execBusCommit (s : State) : Host.Outcome State Fault Refusal :=
  if s.busState ≠ .ready then raise .notInitialized s
  else answer 0 (commitSeq s)

/-- BUS_TEARDOWN (R126): the buffer is released, the lines and the chain stay as they are. -/
def execBusTeardown (s : State) : Host.Outcome State Fault Refusal :=
  if s.busState = .ready then answer 0 { s with busState := .uninitialized, nb := 0, buf := [] }
  else answer 0 s

/-- BUS_INDEX (R128). -/
def execBusIndex (board slot offset : Nat) (s : State) : Host.Outcome State Fault Refusal :=
  if s.busState ≠ .ready then raise .notInitialized s
  else if board < 1 ∨ s.nb < board then raise .invalidParameter s
  else if slot < 1 ∨ 4 < slot then raise .invalidParameter s
  else if 7 < offset then raise .invalidParameter s
  else answer (busBit board slot offset) s

end Sys2Proof.Machine
end

