-- ==== Sys2Proof/Machine/StatusRead.lean ====
section
/-! DEFINITION. Status read-back and accessors (42_status R200 to R212). -/

namespace Sys2Proof.Machine

/-- MD_RDSTAT (R200): one transmit if the selector is the shadow's already, two if it changes. -/
def execMdRdstat (d selector : Nat) (s : State) : Host.Outcome State Fault Refusal :=
  onDriver d s fun m =>
    if selector = 3 then raise .invalidParameter s
    else
      let drvconf := setf m.shadow.drvconf layout.rdsel selector
      let first := sendReg d .drvconf drvconf s
      conclude (if selector ≠ getf m.shadow.drvconf layout.rdsel then thenTransmit d drvconf first else first)

/-- A Boolean accessor (R201): bit `k` of `STATUS[d]`. -/
def statusBit (d k : Nat) (s : State) : Host.Outcome State Fault Refusal :=
  onDriver d s fun m => answer (bitOf (m.status.getLsbD k)) s

/-- MD_OTPW (R202). -/
def execMdOtpw (d : Nat) (s : State) : Host.Outcome State Fault Refusal := statusBit d 2 s

/-- MD_OT (R203). -/
def execMdOt (d : Nat) (s : State) : Host.Outcome State Fault Refusal := statusBit d 1 s

/-- MD_S2GA (R204). -/
def execMdS2ga (d : Nat) (s : State) : Host.Outcome State Fault Refusal := statusBit d 3 s

/-- MD_S2GB (R205). -/
def execMdS2gb (d : Nat) (s : State) : Host.Outcome State Fault Refusal := statusBit d 4 s

/-- MD_OLA (R206). -/
def execMdOla (d : Nat) (s : State) : Host.Outcome State Fault Refusal := statusBit d 5 s

/-- MD_OLB (R207). -/
def execMdOlb (d : Nat) (s : State) : Host.Outcome State Fault Refusal := statusBit d 6 s

/-- MD_STST (R208). -/
def execMdStst (d : Nat) (s : State) : Host.Outcome State Fault Refusal := statusBit d 7 s

/-- MD_SGREACHED (R209). -/
def execMdSgreached (d : Nat) (s : State) : Host.Outcome State Fault Refusal := statusBit d 0 s

/-- MD_SGVAL (R210). -/
def execMdSgval (d : Nat) (s : State) : Host.Outcome State Fault Refusal :=
  onDriver d s fun m => answer (getf m.status layout.readout) s

/-- MD_MSTEP (R211). -/
def execMdMstep (d : Nat) (s : State) : Host.Outcome State Fault Refusal :=
  onDriver d s fun m => answer (getf m.status layout.readout) s

/-- MD_ACTCUR (R212). -/
def execMdActcur (d : Nat) (s : State) : Host.Outcome State Fault Refusal :=
  onDriver d s fun m =>
    answer (deq (getf m.status layout.actualCs) (getf m.shadow.drvconf layout.vsense) m.wiring.rsense) s

end Sys2Proof.Machine
end

