-- ==== Sys2Proof/Machine/Dispatch.lean ====
section
/-! DEFINITION. exec: one arm per command, each one direct call of its meaning. -/

namespace Sys2Proof.Machine

def exec (i : Instr) (s : State) : Host.Outcome State Fault Refusal :=
  match i with
  | .busInit nb => Sys2Proof.Machine.execBusInit nb s
  | .busSetbit u => Sys2Proof.Machine.execBusSetbit u s
  | .busClearbit u => Sys2Proof.Machine.execBusClearbit u s
  | .busCommit => Sys2Proof.Machine.execBusCommit s
  | .busTeardown => Sys2Proof.Machine.execBusTeardown s
  | .busIndex board slot offset => Sys2Proof.Machine.execBusIndex board slot offset s
  | .mdSetcur d mA => Sys2Proof.Machine.execMdSetcur d mA s
  | .mdGetcur d => Sys2Proof.Machine.execMdGetcur d s
  | .mdSetmres d n => Sys2Proof.Machine.execMdSetmres d n s
  | .mdChopConst d off blank fastDecay sineOffset useComparator => Sys2Proof.Machine.execMdChopConst d off blank fastDecay sineOffset useComparator s
  | .mdChopSpread d off blank hystStart hystEnd hystDecrement => Sys2Proof.Machine.execMdChopSpread d off blank hystStart hystEnd hystDecrement s
  | .mdSgt d t filterEnabled => Sys2Proof.Machine.execMdSgt d t filterEnabled s
  | .mdCoolcfg d lowerThr hysteresis decStep incStep lowerLimit => Sys2Proof.Machine.execMdCoolcfg d lowerThr hysteresis decStep incStep lowerLimit s
  | .mdCoolen d flag => Sys2Proof.Machine.execMdCoolen d flag s
  | .mdEnable d flag => Sys2Proof.Machine.execMdEnable d flag s
  | .mdRdstat d selector => Sys2Proof.Machine.execMdRdstat d selector s
  | .mdOtpw d => Sys2Proof.Machine.execMdOtpw d s
  | .mdOt d => Sys2Proof.Machine.execMdOt d s
  | .mdS2ga d => Sys2Proof.Machine.execMdS2ga d s
  | .mdS2gb d => Sys2Proof.Machine.execMdS2gb d s
  | .mdOla d => Sys2Proof.Machine.execMdOla d s
  | .mdOlb d => Sys2Proof.Machine.execMdOlb d s
  | .mdStst d => Sys2Proof.Machine.execMdStst d s
  | .mdSgreached d => Sys2Proof.Machine.execMdSgreached d s
  | .mdSgval d => Sys2Proof.Machine.execMdSgval d s
  | .mdMstep d => Sys2Proof.Machine.execMdMstep d s
  | .mdActcur d => Sys2Proof.Machine.execMdActcur d s

end Sys2Proof.Machine
end

