-- ==== Sys2Proof/Machine/Step.lean ====
section
/-! DEFINITION. One step: the port takes one command word and MDRC performs it (30_encoding R91, 60_exceptions R243). -/

namespace Sys2Proof.Machine

/-- One step, the checks in the order of R243: a halted block accepts nothing (R246); an idle port changes nothing (R272; log entry 6);
otherwise the next word is taken and decoded (R97), an illegal one answers IllegalCommand, a legal one runs. -/
def step (s : State) : Host.Outcome State Fault Refusal :=
  if s.halted then .fault .halted
  else
    match acceptWord s with
    | none => .next s
    | some (w, taken) =>
      match decode w with
      | .illegal _ => refuseWord taken
      | .legal i => exec i taken

/-- The machine with one more command word at the head of the port, where `step` takes its next one (R91). A command is one 64-bit word
(R90), so the bits above 63 are not kept. -/
def State.withFetchWord (s : State) (nbits w : Nat) : State :=
  { s with port := BitVec.ofNat 64 (w % 2 ^ nbits) :: s.port }

end Sys2Proof.Machine
end

