-- ==== Sys2Proof/Safety.lean ====
section
/-! DEFINITION. The terms claims use: which runs have gone wrong, the host's chip-select duty, what each command may write, and the
invariants of the machine. Nothing here is used by the machine itself. -/

namespace Sys2Proof.Safety

open Sys2Proof.Machine

/-! ## Runs and responses -/

/-- A halted block is a fault, never a final state (60_exceptions R246). -/
def Running (s : State) : Prop := s.halted = false

/-- A finished run (70 R291): the host has no more words, and the block has not halted. -/
def Finished (s : State) : Prop := Running s ∧ s.port = []

/-- The state that differs from `s` only by one more response, its status given by its number (R92, R240). -/
def replied (s : State) (code : BitVec 3) (result : BitVec 32) : State :=
  { s with respStatus := code, respResult := result, responses := s.responses ++ [⟨code, result⟩] }

/-- `t` has one response more than `s`, and the response registers hold it (R40, R92). -/
def Replied (s t : State) (code : BitVec 3) (result : BitVec 32) : Prop :=
  t.respStatus = code ∧ t.respResult = result ∧ t.responses = s.responses ++ [⟨code, result⟩]

/-! ## Transfers -/

/-- A transmit to instance `d` is not refused (20_memory R70): the instance exists, the bus is Ready, its chip-select bit is in the
buffer. -/
def CanSend (s : State) (d : Nat) : Prop :=
  d < s.drivers.length ∧ s.busState = .ready ∧ (s.driver d).wiring.csBit < 32 * s.nb

/-- The host's chip-select duty (70 R279): the chip-select bit of every other driver stands at 1, and none shares the bit of `d`. -/
def SoleSelect (s : State) (d : Nat) : Prop :=
  ∀ e, e < s.drivers.length → e ≠ d →
    (s.driver e).wiring.csBit < 32 * s.nb ∧ (s.driver e).wiring.csBit ≠ (s.driver d).wiring.csBit ∧
      Memory.readBit s.buf (s.driver e).wiring.csBit = true

/-- The state of the answers after one transfer. -/
def afterOneAnswer (s : State) : State := { s with inbound := s.inbound.tail, xferCount := s.xferCount + 1 }

/-- The chip's copy of a register is known and equals the shadow (10_state R42). -/
def Agrees (s : State) (d : Nat) (r : Reg) : Prop :=
  getReg (s.driver d).chip.regs r = some (getReg (s.driver d).shadow r)

/-- The events of one exchange (R70): a commit of the buffer `m`, the three bytes of the datagram `v` most significant first and
right-aligned (R66), a commit of the buffer `m'`. -/
def exchangeEvents (m m' : List Host.Cell) (nb : Nat) (v : Reg20) : List Event :=
  commitEvents m nb ++ [.xfer ((v.zeroExtend 24).extractLsb 23 16) ((v.zeroExtend 24).extractLsb 15 8)
    ((v.zeroExtend 24).extractLsb 7 0)] ++ commitEvents m' nb

/-- `m'` is `m` with one bit replaced, read bit by bit. -/
def WithBit (m m' : List Host.Cell) (i : Nat) (b : Bool) : Prop :=
  ∀ j, Memory.readBit m' j = if j = i then b else Memory.readBit m j

/-! ## What a command may write -/

/-- The commands that write one shadow register and send it once, with the driver and the register (41_encoders). -/
def oneShot : Instr → Option (Nat × Reg)
  | .mdSetmres d _ => some (d, .drvctrl)
  | .mdChopConst d _ _ _ _ _ => some (d, .chopconf)
  | .mdChopSpread d _ _ _ _ _ => some (d, .chopconf)
  | .mdSgt d _ _ => some (d, .sgcsconf)
  | .mdCoolcfg d _ _ _ _ _ => some (d, .smarten)
  | .mdCoolen d _ => some (d, .smarten)
  | .mdEnable d _ => some (d, .chopconf)
  | .mdSetcur _ _ => none
  | .mdRdstat _ _ => none
  | .busInit _ => none
  | .busSetbit _ => none
  | .busClearbit _ => none
  | .busCommit => none
  | .busTeardown => none
  | .busIndex _ _ _ => none
  | .mdGetcur _ => none
  | .mdOtpw _ => none
  | .mdOt _ => none
  | .mdS2ga _ => none
  | .mdS2gb _ => none
  | .mdOla _ => none
  | .mdOlb _ => none
  | .mdStst _ => none
  | .mdSgreached _ => none
  | .mdSgval _ => none
  | .mdMstep _ => none
  | .mdActcur _ => none

/-- Which shadow registers of which driver a command writes: the "written by" columns of 10_state R31 to R35. -/
def writesReg (i : Instr) (d : Nat) (r : Reg) : Bool :=
  match i with
  | .mdSetcur e _ => e == d && (r == .drvconf || r == .sgcsconf)
  | .mdRdstat e _ => e == d && r == .drvconf
  | _ => oneShot i == some (d, r)

/-- `OFF_CACHE[d]` is written by MD_CHOP_CONST and MD_CHOP_SPREAD (R27). -/
def writesOffCache (i : Instr) (d : Nat) : Bool :=
  match i with
  | .mdChopConst e _ _ _ _ _ => e == d
  | .mdChopSpread e _ _ _ _ _ => e == d
  | _ => false

/-- `LTHR_CACHE[d]` is written by MD_COOLCFG (R28). -/
def writesLthrCache (i : Instr) (d : Nat) : Bool :=
  match i with
  | .mdCoolcfg e _ _ _ _ _ => e == d
  | _ => false

/-- The bit of the buffer a command stores to, if it stores to one (R60, R70, R122, R123): the operand of BUS_SETBIT and BUS_CLEARBIT, the
chip-select bit of a transmitting command. BUS_INIT and BUS_TEARDOWN replace the whole buffer and are not asked about here. -/
def storedBit (i : Instr) (s : State) : Option Nat :=
  match i with
  | .busSetbit u => some u
  | .busClearbit u => some u
  | _ => if i.transmits then i.target.map fun d => (s.driver d).wiring.csBit else none

/-! ## Registers -/

/-- The signature of each register (10_state R25). -/
def signature : Reg → Nat
  | .drvctrl => 0b000
  | .chopconf => 0b100
  | .smarten => 0b101
  | .sgcsconf => 0b110
  | .drvconf => 0b111

/-- The bits of each register that some command writes (the "written by" columns of R31 to R35); the others are read-only to software
(R37). -/
def writableMask : Reg → Reg20
  | .drvctrl => 0x0000F#20
  | .chopconf => 0x1DFFF#20
  | .smarten => 0x0FF7F#20
  | .sgcsconf => 0x17F1F#20
  | .drvconf => 0x00070#20

/-- The match and mask of each row of the opcode table (30_encoding R96, opcode_table.json). -/
def opcodeTable : List (String × Word × Word) :=
  [("BUS_INIT", 0x0100000000000000#64, 0xFFFFFFFFFFFFFF00#64),
   ("BUS_SETBIT", 0x0200000000000000#64, 0xFFFFFFFFFFFF0000#64),
   ("BUS_CLEARBIT", 0x0300000000000000#64, 0xFFFFFFFFFFFF0000#64),
   ("BUS_COMMIT", 0x0400000000000000#64, 0xFFFFFFFFFFFFFFFF#64),
   ("BUS_TEARDOWN", 0x0500000000000000#64, 0xFFFFFFFFFFFFFFFF#64),
   ("BUS_INDEX", 0x0600000000000000#64, 0xFFFFFFFFFF000000#64),
   ("MD_SETCUR", 0x1000000000000000#64, 0xFF0FFFFFFFFF0000#64),
   ("MD_GETCUR", 0x1100000000000000#64, 0xFF0FFFFFFFFFFFFF#64),
   ("MD_SETMRES", 0x1200000000000000#64, 0xFF0FFFFFFFFF0000#64)] ++
  [("MD_CHOP_CONST", 0x1300000000000000#64, 0xFF0FFFFE00000000#64),
   ("MD_CHOP_SPREAD", 0x1400000000000000#64, 0xFF0FFF0000000000#64),
   ("MD_SGT", 0x1500000000000000#64, 0xFF0FFFFFFFFFFE00#64),
   ("MD_COOLCFG", 0x1600000000000000#64, 0xFF0FF00000000000#64),
   ("MD_COOLEN", 0x1700000000000000#64, 0xFF0FFFFFFFFFFFFE#64),
   ("MD_ENABLE", 0x1800000000000000#64, 0xFF0FFFFFFFFFFFFE#64),
   ("MD_RDSTAT", 0x2000000000000000#64, 0xFF0FFFFFFFFFFFFC#64),
   ("MD_OTPW", 0x2100000000000000#64, 0xFF0FFFFFFFFFFFFF#64),
   ("MD_OT", 0x2200000000000000#64, 0xFF0FFFFFFFFFFFFF#64)] ++
  [("MD_S2GA", 0x2300000000000000#64, 0xFF0FFFFFFFFFFFFF#64),
   ("MD_S2GB", 0x2400000000000000#64, 0xFF0FFFFFFFFFFFFF#64),
   ("MD_OLA", 0x2500000000000000#64, 0xFF0FFFFFFFFFFFFF#64),
   ("MD_OLB", 0x2600000000000000#64, 0xFF0FFFFFFFFFFFFF#64),
   ("MD_STST", 0x2700000000000000#64, 0xFF0FFFFFFFFFFFFF#64),
   ("MD_SGREACHED", 0x2800000000000000#64, 0xFF0FFFFFFFFFFFFF#64),
   ("MD_SGVAL", 0x2900000000000000#64, 0xFF0FFFFFFFFFFFFF#64),
   ("MD_MSTEP", 0x2A00000000000000#64, 0xFF0FFFFFFFFFFFFF#64),
   ("MD_ACTCUR", 0x2B00000000000000#64, 0xFF0FFFFFFFFFFFFF#64)]

/-! ## Invariants -/

/-- The buffer is in canonical form and lists no byte outside its `4 · NB` (R22, R23). -/
def MemoryInv (s : State) : Prop := Memory.wf s.buf ∧ ∀ c ∈ s.buf, c.1 < 4 * s.nb

/-- The bus state machine (40_iochain R129): no buffer and `NB = 0` while Uninitialized; while Ready, `NB` between 1 and `MAX_BOARDS`, the
lines idle with enable active (R121, R124), and a chain of `32 · NB` stages and latches (R252). -/
def BusInv (s : State) : Prop :=
  (s.busState = .uninitialized → s.nb = 0 ∧ s.buf = []) ∧
  (s.busState = .ready → 1 ≤ s.nb ∧ s.nb ≤ s.params.maxBoards ∧
    s.wires.en = some true ∧ s.wires.dat = some false ∧ s.wires.clk = some false ∧ s.wires.stb = some false ∧
    s.wires.stages.length = 32 * s.nb ∧ s.wires.latches.length = 32 * s.nb)

/-- Bits 19:17 of every shadow register are its signature (R25), and every datagram sent so far had four zero bits and then one of the
five signatures (R63, R66). -/
def SignatureInv (s : State) : Prop :=
  (∀ d r, d < s.drivers.length → ((getReg (s.driver d).shadow r).extractLsb 19 17).toNat = signature r) ∧
  ∀ t0 t1 t2, Event.xfer t0 t1 t2 ∈ s.events → ∃ r, t0.toNat / 2 = signature r

/-- The field values no command writes do not occur (R155 "Values 9..15 of MRES are never written", R35, R27, 93 U21): MRES is at most 8,
RDSEL at most 2, OFF_CACHE is not 1. -/
def FieldInv (s : State) : Prop :=
  ∀ d, d < s.drivers.length →
    ((s.driver d).shadow.drvctrl.extractLsb 3 0).toNat ≤ 8 ∧
    ((s.driver d).shadow.drvconf.extractLsb 5 4).toNat ≤ 2 ∧
    (s.driver d).offCache ≠ 1#4

/-- The response registers hold the last response, or 0 and 0 before the first (R40); no response has a reserved code (R240), and one that
is not OK has result 0 (R92). -/
def ResponseInv (s : State) : Prop :=
  (s.responses.getLast?.getD ⟨0#3, 0#32⟩ = ⟨s.respStatus, s.respResult⟩) ∧
  ∀ r ∈ s.responses, r.status ≤ 5#3 ∧ (r.status ≠ 0#3 → r.result = 0#32)

end Sys2Proof.Safety
end

