-- ==== Sys2Proof/Certificates/Slice0/Obligations.lean ====
section
/-! DEFINITION. The statements for the provers, in the order of the spec's files. Each names in its docstring the rules it formalises. -/

open Sys2Proof Sys2Proof.Machine Sys2Proof.Safety

/-! ## Reset -/

/-- R271 with the table of R44: after reset every piece of MDRC's state holds the value of the table, for any parameters, and nothing is
known of the chips and the chain (R274); the default of `RESET_*` is the five patterns the rule gives. -/
def Obligations.ResetLeavesTableValues : Prop :=
  Config.signatureOnly =
    { drvctrl := 0x00000#20, chopconf := 0x80000#20, smarten := 0xA0000#20, sgcsconf := 0xC0000#20, drvconf := 0xE0000#20 } ∧
  ∀ (p : Params) (ws : List Wiring), ∃ s, s = State.resetWith p ws ∧
    s.busState = .uninitialized ∧ s.nb = 0 ∧ s.buf = [] ∧
    s.wires.en = none ∧ s.wires.dat = none ∧ s.wires.clk = none ∧ s.wires.stb = none ∧
    s.drivers.length = ws.length ∧
    (∀ d, d < ws.length →
      (s.driver d).shadow = p.resets ∧ (s.driver d).status = 0#20 ∧
      (s.driver d).offCache = 0#4 ∧ (s.driver d).lthrCache = 0#4 ∧
      (∀ r, getReg (s.driver d).chip.regs r = none) ∧ (s.driver d).chip.selector = none) ∧
    (∀ k, s.wires.stages.getD k none = none ∧ s.wires.latches.getD k none = none) ∧
    s.halted = false ∧ s.subaddrLog = false ∧ s.respStatus = 0#3 ∧ s.respResult = 0#32 ∧
    s.port = [] ∧ s.events = []

/-- The invariants of the machine hold at reset, for every legal choice of the parameters whose `RESET_*` hold no value outside the legal
values of MRES and RDSEL. -/
def Obligations.ResetMeetsInvariants : Prop :=
  ∀ (p : Params) (ws : List Wiring), p.legal = true →
    (p.resets.drvctrl.extractLsb 3 0).toNat ≤ 8 → (p.resets.drvconf.extractLsb 5 4).toNat ≤ 2 →
    MemoryInv (State.resetWith p ws) ∧ BusInv (State.resetWith p ws) ∧ SignatureInv (State.resetWith p ws) ∧
      FieldInv (State.resetWith p ws) ∧ ResponseInv (State.resetWith p ws)

/-- R275: what the commands that read the reset state answer: MD_GETCUR and MD_ACTCUR the current of scale 0 at the full reference, the other
accessors 0, for reset patterns with scale 0 and the half-reference flag at 0. -/
def Obligations.ResetReadings : Prop :=
  ∀ (p : Params) (ws : List Wiring) (d : Nat), d < ws.length →
    (p.resets.sgcsconf.extractLsb 4 0).toNat = 0 → (p.resets.drvconf.extractLsb 6 6).toNat = 0 →
    ∃ s, s = State.resetWith p ws ∧
      (∀ i ∈ [Instr.mdGetcur d, .mdActcur d], exec i s =
        .next (replied s 0#3 (BitVec.ofNat 32 (310000 / (32 * (s.driver d).wiring.rsense))))) ∧
      (∀ i ∈ [Instr.mdOtpw d, .mdOt d, .mdS2ga d, .mdS2gb d, .mdOla d, .mdOlb d, .mdStst d, .mdSgreached d, .mdSgval d, .mdMstep d],
        exec i s = .next (replied s 0#3 0#32))

/-! ## Invariants every step keeps -/

/-- Every step keeps the buffer canonical and inside its `4 · NB` bytes (R22, R23, R69). -/
def Obligations.StepKeepsMemoryCanonical : Prop :=
  ∀ s t, MemoryInv s → step s = .next t → MemoryInv t

/-- Every step keeps the bus state machine coherent with `NB`, the buffer, the idle lines and the chain's length (R129, R121, R124, R252). -/
def Obligations.StepKeepsBusCoherent : Prop :=
  ∀ s t, BusInv s → step s = .next t → BusInv t

/-- Every step keeps the signatures of the shadow registers, and so MDRC only ever sends the five signatures (R25, R63). -/
def Obligations.StepKeepsSignatures : Prop :=
  ∀ s t, SignatureInv s → step s = .next t → SignatureInv t

/-- Every step keeps MRES at most 8, RDSEL at most 2 and OFF_CACHE off 1: no command writes those values (R27, R31, R35, R155). -/
def Obligations.StepKeepsLegalFieldValues : Prop :=
  ∀ s t, FieldInv s → step s = .next t → FieldInv t

/-- Every step keeps the response registers equal to the last response, gives no reserved code, and result 0 with every error (R40, R92,
R240). -/
def Obligations.StepKeepsResponseRecord : Prop :=
  ∀ s t, ResponseInv s → step s = .next t → ResponseInv t

/-! ## Whole-machine rules -/

/-- R37: a bit of a shadow register that no command writes keeps its value at every step, in every driver. -/
def Obligations.UnwrittenBitsNeverChange : Prop :=
  ∀ s t, step s = .next t → ∀ d r, d < s.drivers.length →
    getReg (t.driver d).shadow r &&& ~~~(writableMask r) = getReg (s.driver d).shadow r &&& ~~~(writableMask r)

/-- No step changes the parameters, the number of instances or an instance's wiring (R7, R273). -/
def Obligations.ParametersNeverChange : Prop :=
  ∀ s t, step s = .next t → t.params = s.params ∧ t.drivers.length = s.drivers.length ∧
    ∀ d, (t.driver d).wiring = (s.driver d).wiring

/-- R246, R38: a BUS_INIT larger than MAX_BOARDS in an Uninitialized block sets HALTED, changes nothing else and presents no response; no other
step sets HALTED; no step runs in a halted block, so none clears it, and a run that reaches it is not finished. -/
def Obligations.OnlyOversizeInitHalts : Prop :=
  (∀ s w rest nb, s.halted = false → s.port = w :: rest → decode w = .legal (.busInit nb) → 1 ≤ nb → s.params.maxBoards < nb →
    s.busState = .uninitialized → step s = .next { s with port := rest, halted := true }) ∧
  (∀ s t, step s = .next t → t.halted = true →
    ∃ w rest nb, s.port = w :: rest ∧ decode w = .legal (.busInit nb) ∧ s.params.maxBoards < nb ∧
      s.busState = .uninitialized ∧ t.responses = s.responses) ∧
  (∀ s, s.halted = true → step s = .fault .halted ∧ ¬ Finished s)

/-- R91, R92: a step in a running block that takes a word from the port presents exactly one response, unless it halts; it adds to the event
list and takes back nothing (R12, R291). -/
def Obligations.OneResponsePerWord : Prop :=
  ∀ s t w rest, s.halted = false → s.port = w :: rest → step s = .next t → t.port = rest ∧
    (∃ es, t.events = s.events ++ es) ∧
    ((t.halted = false ∧ ∃ code result, Replied s t code result) ∨ (t.halted = true ∧ t.responses = s.responses))

/-- R243, R246: the order of the checks. A halted block accepts nothing, whatever stands at its port; an idle port changes nothing; an illegal
word is answered with IllegalCommand and changes nothing else; a legal word runs its instruction. A well-formed instruction placed at the head
of the port is the one the next step runs. -/
def Obligations.StepRunsTheDecodedWord : Prop :=
  (∀ s, s.halted = true → step s = .fault .halted) ∧
  (∀ s w rest i, s.halted = false → s.port = w :: rest → decode w = .legal i → step s = exec i { s with port := rest }) ∧
  (∀ s w rest e, s.halted = false → s.port = w :: rest → decode w = .illegal e →
    step s = .next (replied { s with port := rest } 5#3 0#32)) ∧
  (∀ s, s.halted = false → s.port = [] → step s = .next s) ∧
  (∀ s w i, s.halted = false → decode w = .legal i → step (s.withFetchWord 64 w.toNat) = exec i s)

/-! ## Encoding -/

/-- Decoding the command word of a well-formed command gives the command, whatever its operands (R90, R93, R94, R96). -/
def Obligations.DecodeOfEncode : Prop := ∀ i : Instr, i.wellFormed = true → decode (encode i) = .legal i

/-- A legal word is the command word of the command it decodes to, and that command is well-formed: each legal word has one meaning. -/
def Obligations.EncodeOfDecode : Prop := ∀ (w : Word) (i : Instr), decode w = .legal i → i.wellFormed = true ∧ encode i = w

/-- R96, R97: a word is legal, and is the command of a row, exactly when it matches that row of the opcode table under the row's mask; so a word
that matches no row is illegal. -/
def Obligations.LegalWordsAreTheTableRows : Prop :=
  (∀ row ∈ opcodeTable, ∀ w : Word,
    (∃ i, decode w = .legal i ∧ i.mnemonic = row.1) ↔ w &&& row.2.2 = row.2.1) ∧
  (∀ w : Word, (∀ row ∈ opcodeTable, w &&& row.2.2 ≠ row.2.1) ↔ ∃ e, decode w = .illegal e)

/-- Words written out from the encodings of R90, R93 and R96 (the words of 95_test_vectors V4, V11, V14, V21 to V25), one or more of each
family, decode to the command they stand for. -/
def Obligations.SpecWordsDecode : Prop :=
  decode 0x0600000000060302#64 = .legal (.busIndex 2 3 6) ∧
  decode 0x020000000000003F#64 = .legal (.busSetbit 63) ∧
  decode 0x10000000000003E8#64 = .legal (.mdSetcur 0 1000) ∧
  decode 0x12F000000000FFFF#64 = .legal (.mdSetmres 15 (-1)) ∧
  decode 0x13000000FCFF1701#64 = .legal (.mdChopConst 0 1 23 (-1) (-4) false) ∧
  decode 0x140000FFFC000000#64 = .legal (.mdChopSpread 0 0 0 0 (-4) (-1)) ∧
  decode 0x15000000000001BF#64 = .legal (.mdSgt 0 (-65) true) ∧
  decode 0x1600011200FA0064#64 = .legal (.mdCoolcfg 0 100 250 2 1 1) ∧
  decode 0x2000000000000002#64 = .legal (.mdRdstat 0 2) ∧
  decode 0x2BF0000000000000#64 = .legal (.mdActcur 15) ∧
  decode 0x0000000000000000#64 = .illegal .unassignedOpcode ∧
  decode 0x1300000200000000#64 = .illegal .reservedBit ∧
  decode 0x0410000000000000#64 = .illegal .busTarget

/-! ## IOChainBus -/

/-- R121: BUS_INIT tests the board count, then the bus state, then MAX_BOARDS (which halts); otherwise it gives a Ready bus of `nb` boards, all
bits 0, the four events and the four line levels, and changes nothing else but the length of the chain (log entry 7) and the response. -/
def Obligations.BusInitAllocatesZeroedBuffer : Prop :=
  ∀ (nb : Nat) (s : State),
    (nb < 1 → exec (.busInit nb) s = .next (replied s 1#3 0#32)) ∧
    (1 ≤ nb → s.busState = .ready → exec (.busInit nb) s = .next (replied s 3#3 0#32)) ∧
    (1 ≤ nb → s.busState = .uninitialized → s.params.maxBoards < nb →
      exec (.busInit nb) s = .next { s with halted := true }) ∧
    (1 ≤ nb → s.busState = .uninitialized → nb ≤ s.params.maxBoards →
      ∃ t, exec (.busInit nb) s = .next t ∧ t.nb = nb ∧ t.busState = .ready ∧
        (∀ i, i < 32 * nb → Memory.readBit t.buf i = false) ∧
        t.events = s.events ++ [.dat false, .clk false, .stb false, .en true] ∧
        t.wires.dat = some false ∧ t.wires.clk = some false ∧ t.wires.stb = some false ∧ t.wires.en = some true ∧
        { t with nb := s.nb, busState := s.busState, buf := s.buf, events := s.events, wires := s.wires } =
          replied s 0#3 0#32)

/-- R122, R123: BUS_SETBIT and BUS_CLEARBIT answer NotInitialized outside Ready, InvalidParameter for an index at or above `32 · NB`, and
otherwise write that bit of the buffer and nothing else, with no event. -/
def Obligations.SetAndClearWriteOneBit : Prop :=
  ∀ (b : Bool) (u : Nat) (s : State), ∃ i : Instr, i = (if b then .busSetbit u else .busClearbit u) ∧
    (s.busState = .uninitialized → exec i s = .next (replied s 2#3 0#32)) ∧
    (s.busState = .ready → 32 * s.nb ≤ u → exec i s = .next (replied s 1#3 0#32)) ∧
    (s.busState = .ready → u < 32 * s.nb →
      ∃ t, exec i s = .next t ∧ WithBit s.buf t.buf u b ∧ { t with buf := s.buf } = replied s 0#3 0#32)

/-- R124, R125: BUS_COMMIT answers NotInitialized outside Ready; otherwise it sends every bit from the highest index down to 0, each with its
hold, clock pulse, data reset and hold, then one strobe pulse, leaves data, clock and strobe low and enable as it was, and changes nothing but
the events, the wires and the response. -/
def Obligations.CommitSendsHighestBitFirst : Prop :=
  ∀ s : State,
    (s.busState = .uninitialized → exec .busCommit s = .next (replied s 2#3 0#32)) ∧
    (s.busState = .ready → 1 ≤ s.nb →
      ∃ t, exec .busCommit s = .next t ∧
        t.events = s.events ++
          ((List.range (32 * s.nb)).reverse.flatMap fun i =>
            [.dat (Memory.readBit s.buf i), .wait, .clk true, .clk false, .dat false, .wait]) ++ [.stb true, .stb false] ∧
        t.wires.dat = some false ∧ t.wires.clk = some false ∧ t.wires.stb = some false ∧ t.wires.en = s.wires.en ∧
        { t with events := s.events, wires := s.wires } = replied s 0#3 0#32)

/-- R127: a commit of `NB` boards has `6 · 32 · NB + 2` events, `32 · NB` rising clocks, one strobe pulse, at its end, as many `DAT(1)` as the
buffer has bits at 1, and its `k`-th clock shifts `BUF[32 · NB − k]`. -/
def Obligations.CommitEventCounts : Prop :=
  ∀ (m : List Host.Cell) (nb : Nat),
    (commitEvents m nb).length = 6 * (32 * nb) + 2 ∧
    (commitEvents m nb).count (.clk true) = 32 * nb ∧
    (commitEvents m nb).count (.dat true) = (List.range (32 * nb)).countP (fun i => Memory.readBit m i) ∧
    (∃ serial, commitEvents m nb = serial ++ [.stb true, .stb false] ∧ ∀ b, Event.stb b ∉ serial) ∧
    ∀ k, 1 ≤ k → k ≤ 32 * nb →
      (commitEvents m nb)[6 * (k - 1)]? = some (.dat (Memory.readBit m (32 * nb - k))) ∧
      (commitEvents m nb)[6 * (k - 1) + 2]? = some (.clk true)

/-- R73, R253: after a BUS_COMMIT the serial stages and the latched outputs of the reference chain equal the buffer, bit for bit, whatever the
chain held before; with enable active the outputs show it (R62). -/
def Obligations.CommitPublishesTheBuffer : Prop :=
  ∀ s t : State, s.busState = .ready → BusInv s → exec .busCommit s = .next t →
    t.buf = s.buf ∧ t.wires.latches.length = 32 * s.nb ∧ t.wires.stages.length = 32 * s.nb ∧
    ∀ k, k < 32 * s.nb →
      t.wires.stages[k]? = some (some (Memory.readBit s.buf k)) ∧
      t.wires.latches[k]? = some (some (Memory.readBit s.buf k)) ∧
      chainOutput t.wires k = .driven (some (Memory.readBit s.buf k))

/-- R73, R253: within a commit the latched outputs change at most once, at the strobe: after every prefix of its events they are what they
were before it, or, from the rising strobe on, what they are at its end. No in-progress shift state is ever on the outputs. -/
def Obligations.LatchesChangeOnlyAtTheStrobe : Prop :=
  ∀ (w : Wires) (m : List Host.Cell) (nb : Nat) (p q : List Event), p ++ q = commitEvents m nb →
    (Event.stb true ∉ p → (p.foldl Wires.drive w).latches = w.latches) ∧
    (Event.stb true ∈ p → (p.foldl Wires.drive w).latches = ((commitEvents m nb).foldl Wires.drive w).latches)

/-- R126: BUS_TEARDOWN releases the buffer and changes nothing else; when there is none it changes nothing. -/
def Obligations.TeardownReleasesTheBuffer : Prop :=
  ∀ s : State,
    (s.busState = .uninitialized → exec .busTeardown s = .next (replied s 0#3 0#32)) ∧
    (s.busState = .ready → ∃ t, exec .busTeardown s = .next t ∧ t.busState = .uninitialized ∧ t.nb = 0 ∧
      { t with busState := s.busState, nb := s.nb, buf := s.buf } = replied s 0#3 0#32)

/-- R128, R61: BUS_INDEX answers NotInitialized outside Ready and InvalidParameter for a board, slot or offset out of range; otherwise the
bit index, which is below `32 · NB`; and every bit index is the answer to exactly the board, slot and offset of the inverse map. -/
def Obligations.IndexMapIsABijection : Prop :=
  ∀ (board slot offset : Nat) (s : State),
    (s.busState = .uninitialized → exec (.busIndex board slot offset) s = .next (replied s 2#3 0#32)) ∧
    (s.busState = .ready → (board < 1 ∨ s.nb < board ∨ slot < 1 ∨ 4 < slot ∨ 7 < offset) →
      exec (.busIndex board slot offset) s = .next (replied s 1#3 0#32)) ∧
    (s.busState = .ready → 1 ≤ board → board ≤ s.nb → 1 ≤ slot → slot ≤ 4 → offset ≤ 7 →
      ∃ i, exec (.busIndex board slot offset) s = .next (replied s 0#3 (BitVec.ofNat 32 i)) ∧
        i = (board - 1) * 32 + (slot - 1) * 8 + offset ∧ i < 32 * s.nb ∧
        board = i / 32 + 1 ∧ slot = i % 32 / 8 + 1 ∧ offset = i % 8) ∧
    (s.busState = .ready → ∀ i, i < 32 * s.nb →
      exec (.busIndex (i / 32 + 1) (i % 32 / 8 + 1) (i % 8)) s = .next (replied s 0#3 (BitVec.ofNat 32 i)))

/-- R120, R273: no BUS command changes an MDRM instance, the sub-address log or the answers of the transfer primitive; it never transmits. -/
def Obligations.BusCommandsLeaveDriversAlone : Prop :=
  ∀ (i : Instr) (s t : State), i.target = none → exec i s = .next t →
    t.drivers = s.drivers ∧ t.subaddrLog = s.subaddrLog ∧ t.inbound = s.inbound ∧ t.xferCount = s.xferCount ∧
    ∃ es, t.events = s.events ++ es ∧ ∀ t0 t1 t2, Event.xfer t0 t1 t2 ∉ es

/-! ## Encoders: what each packs -/

/-- R152: MD_SETCUR writes the half-reference flag and the current scale by the two exact floor formulas, keeps every other bit of both
registers, and does so whatever its transmits return. -/
def Obligations.SetCurrentPacksScale : Prop :=
  ∀ (d mA : Nat) (s : State), d < s.drivers.length → ∃ t, exec (.mdSetcur d mA) s = .next t ∧
    ((64 * ((s.driver d).wiring.rsense : Int) * mA - 310000) / 620000 < 16 →
      ((t.driver d).shadow.drvconf.extractLsb 6 6).toNat = 1 ∧
      (((t.driver d).shadow.sgcsconf.extractLsb 4 0).toNat : Int) =
        min (max ((64 * ((s.driver d).wiring.rsense : Int) * mA - 165000) / 330000) 0) 31) ∧
    (16 ≤ (64 * ((s.driver d).wiring.rsense : Int) * mA - 310000) / 620000 →
      ((t.driver d).shadow.drvconf.extractLsb 6 6).toNat = 0 ∧
      (((t.driver d).shadow.sgcsconf.extractLsb 4 0).toNat : Int) =
        min ((64 * ((s.driver d).wiring.rsense : Int) * mA - 310000) / 620000) 31) ∧
    (t.driver d).shadow.drvconf &&& ~~~0x00040#20 = (s.driver d).shadow.drvconf &&& ~~~0x00040#20 ∧
    (t.driver d).shadow.sgcsconf &&& ~~~0x0001F#20 = (s.driver d).shadow.sgcsconf &&& ~~~0x0001F#20

/-- R153, R154: MD_GETCUR answers the dequantized current of the shadow scale and flag, and changes nothing but the response. -/
def Obligations.GetCurrentDequantizes : Prop :=
  ∀ (d : Nat) (s : State), d < s.drivers.length →
    exec (.mdGetcur d) s = .next (replied s 0#3 (BitVec.ofNat 32
      ((((s.driver d).shadow.sgcsconf.extractLsb 4 0).toNat + 1) *
        (if ((s.driver d).shadow.drvconf.extractLsb 6 6).toNat = 1 then 165000 else 310000) /
        (32 * (s.driver d).wiring.rsense))))

/-- R154 (95 V6): with a 91 mΩ sense resistor, MD_GETCUR after MD_SETCUR reads back within one quantization step, and within 53 mA, for every
current in [100, 2000] mA, whatever the transmits returned. -/
def Obligations.CurrentRoundTripWithinOneStep : Prop :=
  ∀ (d mA : Nat) (s : State), d < s.drivers.length → (s.driver d).wiring.rsense = 91 → 100 ≤ mA → mA ≤ 2000 →
    ∃ t u, exec (.mdSetcur d mA) s = .next t ∧ exec (.mdGetcur d) t = .next u ∧
      |((u.respResult.toNat : Int) - mA)| ≤ 53 ∧
      |((u.respResult.toNat : Int) - mA)| * (32 * 91) ≤
        (if ((t.driver d).shadow.drvconf.extractLsb 6 6).toNat = 1 then 165000 else 310000)

/-- R155, R156: MD_SETMRES writes the index of the table of R156 into MRES and keeps every other bit of DriverControl. -/
def Obligations.MicrostepIndexFollowsTheTable : Prop :=
  ∀ (d : Nat) (n : Int) (s : State), d < s.drivers.length → ∃ t, exec (.mdSetmres d n) s = .next t ∧
    ((t.driver d).shadow.drvctrl.extractLsb 3 0).toNat =
      (if 256 ≤ n then 0 else if 128 ≤ n then 1 else if 64 ≤ n then 2 else if 32 ≤ n then 3 else if 16 ≤ n then 4
        else if 8 ≤ n then 5 else if 4 ≤ n then 6 else if 2 ≤ n then 7 else 8) ∧
    (t.driver d).shadow.drvctrl &&& ~~~0x0000F#20 = (s.driver d).shadow.drvctrl &&& ~~~0x0000F#20

/-- R157: MD_CHOP_CONST packs each clamped operand into its field of ChopperConfig, splits the fast-decay time, sets CHM, inverts the
comparator flag, keeps bits 19:17 and 13, and caches the clamped off time. -/
def Obligations.ConstantOffTimeChopperPacks : Prop :=
  ∀ (d : Nat) (off blank fastDecay sineOffset : Int) (useComparator : Bool) (s : State), d < s.drivers.length →
    ∃ t c, exec (.mdChopConst d off blank fastDecay sineOffset useComparator) s = .next t ∧ c = (t.driver d).shadow.chopconf ∧
      ((c.extractLsb 16 15).toNat : Int) = (if blank ≥ 54 then 3 else if blank ≥ 36 then 2 else if blank ≥ 24 then 1 else 0) ∧
      (c.extractLsb 14 14).toNat = 1 ∧
      (c.extractLsb 12 12).toNat = (if useComparator then 0 else 1) ∧
      (((c.extractLsb 11 11).toNat * 8 + (c.extractLsb 6 4).toNat : Nat) : Int) = min (max fastDecay 0) 15 ∧
      ((c.extractLsb 10 7).toNat : Int) = min (max sineOffset (-3)) 12 + 3 ∧
      ((c.extractLsb 3 0).toNat : Int) = min (max off 2) 15 ∧
      c &&& 0xE2000#20 = (s.driver d).shadow.chopconf &&& 0xE2000#20 ∧
      ((t.driver d).offCache.toNat : Int) = min (max off 2) 15

/-- R158: MD_CHOP_SPREAD packs each clamped operand into its field of ChopperConfig, clears CHM, overwrites bits 12:11 with the hysteresis
decrement, keeps bits 19:17 and 13, and caches the clamped off time. -/
def Obligations.SpreadCycleChopperPacks : Prop :=
  ∀ (d : Nat) (off blank hystStart hystEnd hystDecrement : Int) (s : State), d < s.drivers.length →
    ∃ t c, exec (.mdChopSpread d off blank hystStart hystEnd hystDecrement) s = .next t ∧ c = (t.driver d).shadow.chopconf ∧
      ((c.extractLsb 16 15).toNat : Int) = (if blank ≥ 54 then 3 else if blank ≥ 36 then 2 else if blank ≥ 24 then 1 else 0) ∧
      (c.extractLsb 14 14).toNat = 0 ∧
      ((c.extractLsb 12 11).toNat : Int) = min (max hystDecrement 0) 3 ∧
      ((c.extractLsb 10 7).toNat : Int) = min (max hystEnd (-3)) 12 + 3 ∧
      ((c.extractLsb 6 4).toNat : Int) = min (max hystStart 1) 8 - 1 ∧
      ((c.extractLsb 3 0).toNat : Int) = min (max off 2) 15 ∧
      c &&& 0xE2000#20 = (s.driver d).shadow.chopconf &&& 0xE2000#20 ∧
      ((t.driver d).offCache.toNat : Int) = min (max off 2) 15

/-- R159: MD_SGT stores the clamped threshold as a signed 7-bit field and the filter flag in its own bit, and leaves CS and every other bit of
StallGuardCurrent alone. -/
def Obligations.StallGuardThresholdIsSignedSevenBits : Prop :=
  ∀ (d : Nat) (th : Int) (filterEnabled : Bool) (s : State), d < s.drivers.length →
    ∃ t, exec (.mdSgt d th filterEnabled) s = .next t ∧
      ((t.driver d).shadow.sgcsconf.extractLsb 14 8).toInt = min (max th (-64)) 63 ∧
      ((t.driver d).shadow.sgcsconf.extractLsb 16 16).toNat = (if filterEnabled then 1 else 0) ∧
      (t.driver d).shadow.sgcsconf &&& ~~~0x17F00#20 = (s.driver d).shadow.sgcsconf &&& ~~~0x17F00#20

/-- R160: MD_COOLCFG packs the two thresholds as `clamp(x, 0, 480) div 32`, the two clamped steps and the clamped limit, keeps bits 19:17, 16 and 7
of CoolStep, and caches the lower threshold's code. -/
def Obligations.CoolStepConfigPacks : Prop :=
  ∀ (d lowerThr hysteresis decStep incStep lowerLimit : Nat) (s : State), d < s.drivers.length →
    ∃ t c, exec (.mdCoolcfg d lowerThr hysteresis decStep incStep lowerLimit) s = .next t ∧ c = (t.driver d).shadow.smarten ∧
      (c.extractLsb 15 15).toNat = min lowerLimit 1 ∧
      (c.extractLsb 14 13).toNat = min decStep 3 ∧
      (c.extractLsb 12 8).toNat = min hysteresis 480 / 32 ∧
      (c.extractLsb 6 5).toNat = min incStep 3 ∧
      (c.extractLsb 4 0).toNat = min lowerThr 480 / 32 ∧
      c &&& 0xF0080#20 = (s.driver d).shadow.smarten &&& 0xF0080#20 ∧
      (t.driver d).lthrCache.toNat = min lowerThr 480 / 32

/-- R161: MD_COOLEN zeroes the lower-threshold field or restores it from the cache, and changes no other field and not the cache; disabling
and then enabling gives back the cached threshold. -/
def Obligations.CoolStepEnableRestoresTheCache : Prop :=
  ∀ (d : Nat) (flag : Bool) (s : State), d < s.drivers.length → ∃ t, exec (.mdCoolen d flag) s = .next t ∧
    ((t.driver d).shadow.smarten.extractLsb 4 0).toNat = (if flag then (s.driver d).lthrCache.toNat else 0) ∧
    (t.driver d).shadow.smarten &&& ~~~0x0001F#20 = (s.driver d).shadow.smarten &&& ~~~0x0001F#20 ∧
    (t.driver d).lthrCache = (s.driver d).lthrCache ∧
    ∃ u, exec (.mdCoolen d true) t = .next u ∧
      ((u.driver d).shadow.smarten.extractLsb 4 0).toNat = (s.driver d).lthrCache.toNat ∧
      (u.driver d).shadow.smarten &&& ~~~0x0001F#20 = (s.driver d).shadow.smarten &&& ~~~0x0001F#20

/-- R162: MD_ENABLE zeroes only the off-time field or restores it from the cache, leaving every other field and the cache untouched; disabling
and then enabling gives back exactly the cached off time. -/
def Obligations.DriverEnableRestoresTheCache : Prop :=
  ∀ (d : Nat) (flag : Bool) (s : State), d < s.drivers.length → ∃ t, exec (.mdEnable d flag) s = .next t ∧
    ((t.driver d).shadow.chopconf.extractLsb 3 0).toNat = (if flag then (s.driver d).offCache.toNat else 0) ∧
    (t.driver d).shadow.chopconf &&& ~~~0x0000F#20 = (s.driver d).shadow.chopconf &&& ~~~0x0000F#20 ∧
    (t.driver d).offCache = (s.driver d).offCache ∧
    ∃ u, exec (.mdEnable d true) t = .next u ∧
      ((u.driver d).shadow.chopconf.extractLsb 3 0).toNat = (s.driver d).offCache.toNat ∧
      (u.driver d).shadow.chopconf &&& ~~~0x0000F#20 = (s.driver d).shadow.chopconf &&& ~~~0x0000F#20

/-- R75, R150: a transmitting command repeated on identical inputs leaves the same shadow registers and caches as once. -/
def Obligations.EncodersAreIdempotent : Prop :=
  ∀ (i : Instr) (s t u : State), i.transmits = true → exec i s = .next t → exec i t = .next u → ∀ d,
    (u.driver d).shadow = (t.driver d).shadow ∧ (u.driver d).offCache = (t.driver d).offCache ∧
    (u.driver d).lthrCache = (t.driver d).lthrCache

/-! ## Transmit -/

/-- R70, R150, R288, R283: a transmitting command whose transmit is refused answers NotInitialized without a bus, InvalidParameter with a
chip-select bit outside the buffer; it emits no event and changes no state of MDRC but shadow registers and caches (which ones, and with which
values, the statements on each command say; that a refusal makes no difference to them, `ShadowsDoNotDependOnTheTransmit`). Of the chips, one
register that the command writes is unknown afterwards and the others are as they were: for MD_SETCUR it is DriverConfig, the first one to be
sent, and for MD_RDSTAT it is DriverConfig too, so the chip's selector is unknown. -/
def Obligations.RefusedTransmitOnlyWritesShadows : Prop :=
  ∀ (i : Instr) (d : Nat) (s : State), i.transmits = true → i.target = some d → d < s.drivers.length → SignatureInv s →
    (∀ sel, i = .mdRdstat d sel → sel ≠ 3) → (s.busState = .uninitialized ∨ 32 * s.nb ≤ (s.driver d).wiring.csBit) →
    ∃ t r, exec i s = .next t ∧
      { t with drivers := s.drivers } = replied s (if s.busState = .uninitialized then 2#3 else 1#3) 0#32 ∧
      (∀ e, (t.driver e).status = (s.driver e).status) ∧
      (∀ e, e ≠ d → (t.driver e).chip = (s.driver e).chip) ∧
      writesReg i d r = true ∧ getReg (t.driver d).chip.regs r = none ∧
      (∀ r', r' ≠ r → getReg (t.driver d).chip.regs r' = getReg (s.driver d).chip.regs r') ∧
      (t.driver d).chip.statusSel = (s.driver d).chip.statusSel ∧
      (∀ mA, i = .mdSetcur d mA → r = .drvconf) ∧
      (∀ sel, i = .mdRdstat d sel → (t.driver d).chip.selector = none)

/-- R70, R66, R67: a command that sends one register (`oneShot`: MD_SETMRES, MD_CHOP_CONST, MD_CHOP_SPREAD, MD_SGT, MD_COOLCFG, MD_COOLEN,
MD_ENABLE), when the transfer answers, completes: it emits one commit with the chip-select bit at 0, the three bytes of
the new register value, and one commit with the bit at 1; it leaves that bit at 1 and every other bit as it was, stores the captured word without
its low 4 bits in STATUS, uses up one answer, and answers OK. -/
def Obligations.TransmitSendsAndCaptures : Prop :=
  ∀ (i : Instr) (d : Nat) (r : Reg) (r0 r1 r2 : Byte) (s : State), oneShot i = some (d, r) → CanSend s d →
    nextAnswer s = .bytes r0 r1 r2 →
    ∃ t m, exec i s = .next t ∧ Replied s t 0#3 0#32 ∧
      (t.driver d).status = (r0 ++ r1 ++ r2).extractLsb 23 4 ∧
      WithBit s.buf m (s.driver d).wiring.csBit false ∧ WithBit s.buf t.buf (s.driver d).wiring.csBit true ∧
      t.events = s.events ++ exchangeEvents m t.buf s.nb (getReg (t.driver d).shadow r) ∧
      t.inbound = s.inbound.tail ∧ t.xferCount = s.xferCount + 1

/-- R245, R70: when the transfer fails, the same command still deselects the chip, with the same events and the same buffer, leaves STATUS
unchanged, and answers TransferFailure; the shadow holds the value that was sent. -/
def Obligations.FailedTransferDeselectsAndKeepsStatus : Prop :=
  ∀ (i : Instr) (d : Nat) (r : Reg) (s : State), oneShot i = some (d, r) → CanSend s d → nextAnswer s = .fail →
    ∃ t m, exec i s = .next t ∧ Replied s t 4#3 0#32 ∧
      (t.driver d).status = (s.driver d).status ∧
      WithBit s.buf m (s.driver d).wiring.csBit false ∧ WithBit s.buf t.buf (s.driver d).wiring.csBit true ∧
      t.events = s.events ++ exchangeEvents m t.buf s.nb (getReg (t.driver d).shadow r) ∧
      t.inbound = s.inbound.tail ∧ t.xferCount = s.xferCount + 1

/-- R152: MD_SETCUR sends DriverConfig, then StallGuardCurrent; if the first transfer fails it answers TransferFailure and does not send the
second; STATUS is the word of the last transfer that answered. Each transfer stands between a commit with the chip-select bit at 0 and one with it at
1, and the buffer keeps that last one: the bit is left at 1 and every other bit as it was (R70). -/
def Obligations.SetCurrentSendsTwoRegisters : Prop :=
  ∀ (d mA : Nat) (s : State), CanSend s d →
    ∃ t m, exec (.mdSetcur d mA) s = .next t ∧
      WithBit s.buf m (s.driver d).wiring.csBit false ∧ WithBit s.buf t.buf (s.driver d).wiring.csBit true ∧
      (nextAnswer s = .fail → Replied s t 4#3 0#32 ∧ (t.driver d).status = (s.driver d).status ∧
        t.events = s.events ++ exchangeEvents m t.buf s.nb (t.driver d).shadow.drvconf) ∧
      (∀ r0 r1 r2, nextAnswer s = .bytes r0 r1 r2 → nextAnswer (afterOneAnswer s) = .fail → Replied s t 4#3 0#32 ∧
        (t.driver d).status = (r0 ++ r1 ++ r2).extractLsb 23 4 ∧
        t.events = s.events ++ exchangeEvents m t.buf s.nb (t.driver d).shadow.drvconf
          ++ exchangeEvents m t.buf s.nb (t.driver d).shadow.sgcsconf) ∧
      (∀ r0 r1 r2 q0 q1 q2, nextAnswer s = .bytes r0 r1 r2 → nextAnswer (afterOneAnswer s) = .bytes q0 q1 q2 →
        Replied s t 0#3 0#32 ∧ (t.driver d).status = (q0 ++ q1 ++ q2).extractLsb 23 4 ∧
        t.events = s.events ++ exchangeEvents m t.buf s.nb (t.driver d).shadow.drvconf
          ++ exchangeEvents m t.buf s.nb (t.driver d).shadow.sgcsconf)

/-- R80, R286: when a transmitting command that is not refused is done, the latched outputs of the chain equal the whole buffer, so every
pending bit change has been published, whether its transfers succeeded or failed; the driver's own chip-select bit is at 1. -/
def Obligations.TransmitPublishesPendingChanges : Prop :=
  ∀ (i : Instr) (d : Nat) (s t : State), i.transmits = true → i.target = some d → (∀ sel, i = .mdRdstat d sel → sel ≠ 3) →
    CanSend s d → BusInv s → exec i s = .next t →
    ∀ k, k < 32 * s.nb →
      t.wires.latches[k]? = some (some (if k = (s.driver d).wiring.csBit then true else Memory.readBit s.buf k))

/-! ## The chip behind the transmits -/

/-- R42, R74: with the host's chip-select duty kept, a transmitting command that answers OK (so every transfer it made was answered) leaves the
chip's copy of each register it writes equal to the shadow, the chip's other registers and every other chip untouched. The status word it
stored belongs to the selector the chip held before the last transfer: the one before the command for a command that sends one register, the
one it sent in DriverConfig for MD_SETCUR. For MD_RDSTAT `ReadStatusLatchesTheRequestedReadout` says which. -/
def Obligations.AnsweredTransmitMakesTheChipAgree : Prop :=
  ∀ (i : Instr) (d : Nat) (s t : State), i.transmits = true → i.target = some d → CanSend s d → SoleSelect s d → SignatureInv s →
    exec i s = .next t → t.respStatus = 0#3 →
    (∀ r, writesReg i d r = true → Agrees t d r) ∧
    (∀ r, writesReg i d r = false → getReg (t.driver d).chip.regs r = getReg (s.driver d).chip.regs r) ∧
    (∀ r, oneShot i = some (d, r) → (t.driver d).chip.statusSel = (s.driver d).chip.selector) ∧
    (∀ mA, i = .mdSetcur d mA →
      (t.driver d).chip.statusSel = some ((t.driver d).shadow.drvconf.extractLsb 5 4).toNat) ∧
    ∀ e, e ≠ d → (t.driver e).chip = (s.driver e).chip

/-- R164, R283: with the chip-select duty kept, after a command that answers TransferFailure the chip's copy of the register whose transfer failed
is unknown. MD_SETCUR that fails on DriverConfig has not sent StallGuardCurrent, which the chip keeps as it was; one that fails on the second has
the chip agree on DriverConfig. After a failed MD_RDSTAT the chip's selector is unknown too. The chip's other registers, and every other chip,
are as they were. -/
def Obligations.FailedTransferLeavesTheChipUnknown : Prop :=
  ∀ (i : Instr) (d : Nat) (s t : State), i.transmits = true → i.target = some d → CanSend s d → SoleSelect s d → SignatureInv s →
    exec i s = .next t → t.respStatus = 4#3 →
    (∀ r, oneShot i = some (d, r) → getReg (t.driver d).chip.regs r = none) ∧
    (∀ mA, i = .mdSetcur d mA → nextAnswer s = .fail →
      (t.driver d).chip.regs.drvconf = none ∧ (t.driver d).chip.regs.sgcsconf = (s.driver d).chip.regs.sgcsconf) ∧
    (∀ mA, i = .mdSetcur d mA → nextAnswer s ≠ .fail → Agrees t d .drvconf ∧ (t.driver d).chip.regs.sgcsconf = none) ∧
    (∀ sel, i = .mdRdstat d sel → (t.driver d).chip.regs.drvconf = none ∧ (t.driver d).chip.selector = none) ∧
    (∀ r, writesReg i d r = false → getReg (t.driver d).chip.regs r = getReg (s.driver d).chip.regs r) ∧
    ∀ e, e ≠ d → (t.driver e).chip = (s.driver e).chip

/-- R279: when the chip-select bit of another driver stands at 0, a transmitting command is not refused for it: its status is OK or
TransferFailure, and OK for a command that sends one register and is answered. Afterwards nothing is known of the registers of either chip, nor of
the selector of a word it stored. -/
def Obligations.SharedSelectLeavesChipsUnknown : Prop :=
  ∀ (i : Instr) (d e : Nat) (s t : State), i.transmits = true → i.target = some d → (∀ sel, i = .mdRdstat d sel → sel ≠ 3) →
    CanSend s d → e ≠ d → e < s.drivers.length → (s.driver e).wiring.csBit < 32 * s.nb →
    Memory.readBit s.buf (s.driver e).wiring.csBit = false → exec i s = .next t →
    (t.respStatus = 0#3 ∨ t.respStatus = 4#3) ∧
    (∀ r, oneShot i = some (d, r) → nextAnswer s ≠ .fail → t.respStatus = 0#3) ∧
    (∀ r, getReg (t.driver d).chip.regs r = none) ∧ (∀ r, getReg (t.driver e).chip.regs r = none) ∧
    (t.respStatus = 0#3 → (t.driver d).chip.statusSel = none)

/-! ## Status read-back -/

/-- R200: MD_RDSTAT refuses selector 3 with no change, on any bus. Otherwise it writes RDSEL and keeps every other bit of DriverConfig, whatever
its transmits return and also if they are refused (R150, R288). On a Ready bus that reaches the chip it transmits DriverConfig once if the selector is
the shadow's already and twice if it changes, the second only after a first that was answered; STATUS is the word of the last transfer that
answered; the chip-select bit is left at 1 and every other bit of the buffer as it was (R70). -/
def Obligations.ReadStatusTransmitsTwiceOnChange : Prop :=
  ∀ (d sel : Nat) (s : State), d < s.drivers.length →
    (sel = 3 → exec (.mdRdstat d sel) s = .next (replied s 1#3 0#32)) ∧
    (sel < 3 → ∃ t, exec (.mdRdstat d sel) s = .next t ∧
      ((t.driver d).shadow.drvconf.extractLsb 5 4).toNat = sel ∧
      (t.driver d).shadow.drvconf &&& ~~~0x00030#20 = (s.driver d).shadow.drvconf &&& ~~~0x00030#20 ∧
      (CanSend s d → ∃ m,
        WithBit s.buf m (s.driver d).wiring.csBit false ∧ WithBit s.buf t.buf (s.driver d).wiring.csBit true ∧
        (nextAnswer s = .fail → Replied s t 4#3 0#32 ∧ (t.driver d).status = (s.driver d).status ∧
          t.events = s.events ++ exchangeEvents m t.buf s.nb (t.driver d).shadow.drvconf) ∧
        (∀ r0 r1 r2, nextAnswer s = .bytes r0 r1 r2 → ((s.driver d).shadow.drvconf.extractLsb 5 4).toNat = sel →
          Replied s t 0#3 0#32 ∧ (t.driver d).status = (r0 ++ r1 ++ r2).extractLsb 23 4 ∧
          t.events = s.events ++ exchangeEvents m t.buf s.nb (t.driver d).shadow.drvconf) ∧
        (∀ r0 r1 r2 q0 q1 q2, nextAnswer s = .bytes r0 r1 r2 → nextAnswer (afterOneAnswer s) = .bytes q0 q1 q2 →
          ((s.driver d).shadow.drvconf.extractLsb 5 4).toNat ≠ sel →
          Replied s t 0#3 0#32 ∧ (t.driver d).status = (q0 ++ q1 ++ q2).extractLsb 23 4 ∧
          t.events = s.events ++ exchangeEvents m t.buf s.nb (t.driver d).shadow.drvconf
            ++ exchangeEvents m t.buf s.nb (t.driver d).shadow.drvconf) ∧
        (∀ r0 r1 r2, nextAnswer s = .bytes r0 r1 r2 → nextAnswer (afterOneAnswer s) = .fail →
          ((s.driver d).shadow.drvconf.extractLsb 5 4).toNat ≠ sel →
          Replied s t 4#3 0#32 ∧ (t.driver d).status = (r0 ++ r1 ++ r2).extractLsb 23 4 ∧
          t.events = s.events ++ exchangeEvents m t.buf s.nb (t.driver d).shadow.drvconf
            ++ exchangeEvents m t.buf s.nb (t.driver d).shadow.drvconf)))

/-- R74, R282: with the chip-select duty kept, an MD_RDSTAT that answers OK after a change of selector, or with a chip known to hold the
shadow's selector, leaves the chip holding the selector and a status word that belongs to it. -/
def Obligations.ReadStatusLatchesTheRequestedReadout : Prop :=
  ∀ (d sel : Nat) (s t : State), CanSend s d → SoleSelect s d → SignatureInv s → sel < 3 →
    exec (.mdRdstat d sel) s = .next t → t.respStatus = 0#3 →
    (((s.driver d).shadow.drvconf.extractLsb 5 4).toNat ≠ sel ∨ (s.driver d).chip.selector = some sel) →
    (t.driver d).chip.selector = some sel ∧ (t.driver d).chip.statusSel = some sel ∧ Agrees t d .drvconf

/-- R202 to R209, R201: each Boolean accessor answers its bit of STATUS and changes nothing but the response. -/
def Obligations.BooleanAccessorsReadStatusBits : Prop :=
  ∀ (d : Nat) (s : State), d < s.drivers.length → ∀ i k,
    (i, k) ∈ [(Instr.mdOtpw d, 2), (.mdOt d, 1), (.mdS2ga d, 3), (.mdS2gb d, 4), (.mdOla d, 5), (.mdOlb d, 6),
      (.mdStst d, 7), (.mdSgreached d, 0)] →
    exec i s = .next (replied s 0#3 (((s.driver d).status.extractLsb k k).zeroExtend 32))

/-- R210 to R212, R201: the numeric accessors answer the readout field of STATUS, or the current of its low five bits, and change nothing but
the response. -/
def Obligations.NumericAccessorsReadTheReadout : Prop :=
  ∀ (d : Nat) (s : State), d < s.drivers.length →
    exec (.mdSgval d) s = .next (replied s 0#3 (((s.driver d).status.extractLsb 19 10).zeroExtend 32)) ∧
    exec (.mdMstep d) s = .next (replied s 0#3 (((s.driver d).status.extractLsb 19 10).zeroExtend 32)) ∧
    exec (.mdActcur d) s = .next (replied s 0#3 (BitVec.ofNat 32
      ((((s.driver d).status.extractLsb 14 10).toNat + 1) *
        (if ((s.driver d).shadow.drvconf.extractLsb 6 6).toNat = 1 then 165000 else 310000) /
        (32 * (s.driver d).wiring.rsense))))

/-! ## Errors and frames -/

/-- R244: an MD command whose target names no instance changes nothing but SUBADDR_LOG, which it sets, and answers OK with result 0. -/
def Obligations.InvalidSubaddressIsALoggedNoOp : Prop :=
  ∀ (i : Instr) (d : Nat) (s : State), i.target = some d → s.drivers.length ≤ d →
    exec i s = .next (replied { s with subaddrLog := true } 0#3 0#32)

/-- R37, R30: a command changes no shadow register and no cache but those its rule names, in the driver it names; a field it does not name
keeps its value. -/
def Obligations.RegistersAreWrittenOnlyByTheirCommands : Prop :=
  ∀ (i : Instr) (s t : State), exec i s = .next t → ∀ d,
    (∀ r, writesReg i d r = false → getReg (t.driver d).shadow r = getReg (s.driver d).shadow r) ∧
    (writesOffCache i d = false → (t.driver d).offCache = (s.driver d).offCache) ∧
    (writesLthrCache i d = false → (t.driver d).lthrCache = (s.driver d).lthrCache)

/-- R26, R201: only a transmitting command, and only of the driver it names, changes STATUS. -/
def Obligations.StatusIsWrittenOnlyByTransmit : Prop :=
  ∀ (i : Instr) (s t : State), exec i s = .next t → ∀ d, (i.transmits = false ∨ i.target ≠ some d) →
    (t.driver d).status = (s.driver d).status

/-- R60, R72: BUS_INIT and BUS_TEARDOWN apart, a command changes no bit of the buffer but the one it stores to (the operand of BUS_SETBIT and
BUS_CLEARBIT, the chip-select bit of a transmitting command), and no byte but the one that holds it; a command that stores to none changes
none. -/
def Obligations.OnlyTheStoredBitOfTheBufferChanges : Prop :=
  ∀ (i : Instr) (s t : State), (∀ nb, i ≠ .busInit nb) → i ≠ .busTeardown → exec i s = .next t →
    (∀ j, (∀ a, storedBit i s = some a → j ≠ a) → Memory.readBit t.buf j = Memory.readBit s.buf j) ∧
    (∀ b, (∀ a, storedBit i s = some a → b ≠ a / 8) → Memory.read t.buf b = Memory.read s.buf b)

/-- The block's own state changes only where the rules say: no command but BUS_INIT and BUS_TEARDOWN changes BUS_STATE or NB, only BUS_INIT
changes HALTED, only an MD command with no instance changes SUBADDR_LOG, the events and the lines move only in a commit, a transmit or
BUS_INIT, and the port is left to the step (R12, R24, R38, R39, R72, R120). -/
def Obligations.BlockStateFrame : Prop :=
  ∀ (i : Instr) (s t : State), exec i s = .next t →
    t.port = s.port ∧
    ((∀ nb, i ≠ .busInit nb) → i ≠ .busTeardown → t.busState = s.busState ∧ t.nb = s.nb) ∧
    ((∀ nb, i ≠ .busInit nb) → t.halted = s.halted) ∧
    ((∀ d, i.target = some d → d < s.drivers.length) → t.subaddrLog = s.subaddrLog) ∧
    ((∀ nb, i ≠ .busInit nb) → i ≠ .busCommit → i.transmits = false →
      t.events = s.events ∧ t.wires = s.wires ∧ t.inbound = s.inbound ∧ t.xferCount = s.xferCount)

/-- R150, R288: a transmitting command leaves the same shadow registers and caches whatever becomes of its transmits: two states that agree on the
driver's shadow registers, caches and RSENSE, and perhaps on nothing else (the bus, the buffer, the chip-select bit, the answers), give the same.
So a command whose transmit is refused or fails leaves what an answered one would leave. -/
def Obligations.ShadowsDoNotDependOnTheTransmit : Prop :=
  ∀ (i : Instr) (d : Nat) (s s' t t' : State), i.transmits = true → i.target = some d → d < s.drivers.length → d < s'.drivers.length →
    (s'.driver d).shadow = (s.driver d).shadow → (s'.driver d).offCache = (s.driver d).offCache →
    (s'.driver d).lthrCache = (s.driver d).lthrCache → (s'.driver d).wiring.rsense = (s.driver d).wiring.rsense →
    exec i s = .next t → exec i s' = .next t' →
    (t'.driver d).shadow = (t.driver d).shadow ∧ (t'.driver d).offCache = (t.driver d).offCache ∧
    (t'.driver d).lthrCache = (t.driver d).lthrCache
end

