-- ==== Sys2Proof/Laws/Fields.lean ====
section
/-! SUPPORT. Register fields: what `setf` (41_encoders R151) does to each bit, to its own field and to any other; the five registers; the
bounds of the clamped codes. -/

namespace Sys2Proof.Machine

theorem getLsbD_fieldMask (f : Field) (i : Nat) :
    (fieldMask f).getLsbD i = decide (i < 20 ∧ f.lo ≤ i ∧ i < f.lo + f.width) := by
  unfold fieldMask
  rw [BitVec.getLsbD_ofNat, ← Nat.shiftLeft_eq, Nat.testBit_shiftLeft, Nat.testBit_two_pow_sub_one]
  by_cases h1 : i < 20 <;> by_cases h2 : f.lo ≤ i <;> by_cases h3 : i < f.lo + f.width <;> simp [h1, h2, h3] <;> omega

/-- Every bit of `setf`: the field's bits come from `v`, the others stay (R151). -/
theorem getLsbD_setf (r : Reg20) (f : Field) (v i : Nat) :
    (setf r f v).getLsbD i =
      if f.lo ≤ i ∧ i < f.lo + f.width then decide (i < 20) && v.testBit (i - f.lo) else r.getLsbD i := by
  unfold setf
  rw [BitVec.getLsbD_or, BitVec.getLsbD_and, BitVec.getLsbD_and, BitVec.getLsbD_not, getLsbD_fieldMask,
    BitVec.getLsbD_ofNat, ← Nat.shiftLeft_eq, Nat.testBit_shiftLeft]
  by_cases h1 : i < 20
  · by_cases h2 : f.lo ≤ i <;> by_cases h3 : i < f.lo + f.width <;> simp [h1, h2, h3]
  · have := BitVec.getLsbD_of_ge r i (by omega)
    simp [h1, this]

/-- The value of a field just written (R10, R151). -/
theorem extractLsb_setf_same (r : Reg20) {hi lo : Nat} (v : Nat) (h : lo ≤ hi) (hi20 : hi < 20) :
    ((setf r ⟨hi, lo⟩ v).extractLsb hi lo).toNat = v % 2 ^ (hi - lo + 1) := by
  have e : (setf r ⟨hi, lo⟩ v).extractLsb hi lo = BitVec.ofNat (hi - lo + 1) v := by
    apply BitVec.eq_of_getLsbD_eq
    intro i hiw
    rw [BitVec.getLsbD_extractLsb, getLsbD_setf, BitVec.getLsbD_ofNat]
    have h1 : lo + i < 20 := by omega
    have h2 : i < lo + (hi - lo + 1) := by omega
    simp [Field.width, h1, hiw]
  rw [e, BitVec.toNat_ofNat]

/-- A field written elsewhere leaves this one alone. -/
theorem extractLsb_setf_other (r : Reg20) (f : Field) (v hi lo : Nat) (hle : lo ≤ hi) (h : hi < f.lo ∨ f.lo + f.width ≤ lo) :
    (setf r f v).extractLsb hi lo = r.extractLsb hi lo := by
  apply BitVec.eq_of_getLsbD_eq
  intro i hiw
  rw [BitVec.getLsbD_extractLsb, BitVec.getLsbD_extractLsb, getLsbD_setf]
  have : ¬(f.lo ≤ lo + i ∧ lo + i < f.lo + f.width) := by omega
  simp [this]

/-- Bits outside a mask that covers the field stay. -/
theorem setf_outside (r : Reg20) (f : Field) (v : Nat) (m : Reg20) (h : fieldMask f &&& ~~~m = 0#20) :
    setf r f v &&& ~~~m = r &&& ~~~m := by
  apply BitVec.eq_of_getLsbD_eq
  intro i hi
  have hb := congrArg (fun x : Reg20 => x.getLsbD i) h
  simp only [BitVec.getLsbD_and, BitVec.getLsbD_not, getLsbD_fieldMask, BitVec.getLsbD_zero] at hb
  simp only [BitVec.getLsbD_and, BitVec.getLsbD_not, getLsbD_setf]
  by_cases hf : f.lo ≤ i ∧ i < f.lo + f.width
  · have : m.getLsbD i = true := by simpa [hi, hf] using hb
    simp [this]
  · simp [hf]

/-- `getf` reads the same bits as `r[hi:lo]` (R10). -/
theorem getf_eq_extractLsb (r : Reg20) (hi lo : Nat) : getf r ⟨hi, lo⟩ = (r.extractLsb hi lo).toNat := by
  simp [getf, Field.width, BitVec.extractLsb, BitVec.extractLsb'_toNat, Nat.shiftRight_eq_div_pow]

theorem getf_setf_same (r : Reg20) {f : Field} (v : Nat) (h : f.lo ≤ f.hi) (h20 : f.hi < 20) :
    getf (setf r f v) f = v % 2 ^ f.width := by
  obtain ⟨hi, lo⟩ := f
  rw [getf_eq_extractLsb, extractLsb_setf_same r v h h20]
  rfl

theorem getf_setf_other (r : Reg20) (f g : Field) (v : Nat) (hle : g.lo ≤ g.hi)
    (h : g.hi < f.lo ∨ f.lo + f.width ≤ g.lo) : getf (setf r f v) g = getf r g := by
  obtain ⟨hi, lo⟩ := g
  rw [getf_eq_extractLsb, getf_eq_extractLsb, extractLsb_setf_other r f v hi lo hle h]

theorem getf_lt (r : Reg20) (f : Field) : getf r f < 2 ^ f.width := Nat.mod_lt _ (by positivity)

/-- Writing a field twice leaves the second value. -/
theorem setf_setf_same (r : Reg20) (f : Field) (v w : Nat) : setf (setf r f v) f w = setf r f w := by
  apply BitVec.eq_of_getLsbD_eq
  intro i _
  simp only [getLsbD_setf]
  split <;> rfl

/-- Fields that do not overlap are written in either order. -/
theorem setf_comm (r : Reg20) (f g : Field) (v w : Nat) (h : f.lo + f.width ≤ g.lo ∨ g.lo + g.width ≤ f.lo) :
    setf (setf r f v) g w = setf (setf r g w) f v := by
  apply BitVec.eq_of_getLsbD_eq
  intro i _
  simp only [getLsbD_setf]
  split <;> split <;> first | rfl | omega

/-! ## The five registers -/

@[simp] theorem getReg_setReg_self {α : Type} (r : Regs α) (k : Reg) (v : α) : getReg (setReg r k v) k = v := by
  cases k <;> rfl

theorem getReg_setReg_other {α : Type} (r : Regs α) {k k' : Reg} (v : α) (h : k' ≠ k) :
    getReg (setReg r k v) k' = getReg r k' := by
  cases k <;> cases k' <;> first | rfl | exact absurd rfl h

/-! ## Bounds of the clamped codes (R151, R154 to R160) -/

theorem offCode_bounds (off : Int) : 2 ≤ offCode off ∧ offCode off ≤ 15 := by
  unfold offCode clamp; omega

theorem blankCode_le (b : Int) : blankCode b ≤ 3 := by
  unfold blankCode; split_ifs <;> omega

theorem bias3_le (x : Int) : bias3 x ≤ 15 := by
  unfold bias3 clamp; omega

theorem fastDecayCode_le (x : Int) : fastDecayCode x ≤ 15 := by
  unfold fastDecayCode clamp; omega

theorem hystStartCode_le (x : Int) : hystStartCode x ≤ 7 := by
  unfold hystStartCode clamp; omega

theorem hystDecrementCode_le (x : Int) : hystDecrementCode x ≤ 3 := by
  unfold hystDecrementCode clamp; omega

theorem sgtCode_lt (t : Int) : sgtCode t < 128 := by
  unfold sgtCode clamp; omega

theorem coolCode_le (x : Nat) : coolCode x ≤ 15 := by
  unfold coolCode; omega

theorem currentScale_bounds (R mA : Nat) : (currentScale R mA).1 ≤ 1 ∧ (currentScale R mA).2 ≤ 31 := by
  unfold currentScale clamp; split_ifs <;> simp

theorem mresIndex_le (n : Int) : mresIndex n ≤ 8 := by
  unfold mresIndex
  split
  · exact le_rfl
  · cases h : (List.range 9).find? fun i => decide (((256 >>> i : Nat) : Int) ≤ n) with
    | none => exact le_rfl
    | some i =>
      have := List.mem_of_find?_eq_some h
      rw [List.mem_range] at this
      exact Nat.le_of_lt_succ this

/-! ## Framing (R66, R67) -/

/-- The three bytes of a datagram, as the bits of the value right-aligned in 24 (R66). -/
theorem datagram_eq (v : Reg20) :
    datagram v = .xfer ((v.zeroExtend 24).extractLsb 23 16) ((v.zeroExtend 24).extractLsb 15 8)
      ((v.zeroExtend 24).extractLsb 7 0) := by
  have h := v.isLt
  simp only [datagram, Event.xfer.injEq]
  refine ⟨?_, ?_, ?_⟩ <;> apply BitVec.eq_of_toNat_eq <;> simp [Nat.shiftRight_eq_div_pow]
  omega

/-- The captured word is the upper 20 bits of the 24 received (R67). -/
theorem capture_eq (r0 r1 r2 : Byte) : capture r0 r1 r2 = (r0 ++ r1 ++ r2).extractLsb 23 4 := by
  apply BitVec.eq_of_toNat_eq
  have h1 := r1.isLt
  have h2 := r2.isLt
  have e1 : r0.toNat <<< 8 ||| r1.toNat = r0.toNat * 2 ^ 8 + r1.toNat := by
    rw [Nat.shiftLeft_eq, Nat.mul_comm, Nat.two_pow_add_eq_or_of_lt (by omega)]
  have e2 : (r0.toNat * 2 ^ 8 + r1.toNat) <<< 8 ||| r2.toNat = (r0.toNat * 2 ^ 8 + r1.toNat) * 2 ^ 8 + r2.toNat := by
    rw [Nat.shiftLeft_eq, Nat.mul_comm (r0.toNat * 2 ^ 8 + r1.toNat), Nat.two_pow_add_eq_or_of_lt (by omega)]
  have e3 : r0.toNat * 2 ^ 16 + r1.toNat * 2 ^ 8 + r2.toNat = (r0.toNat * 2 ^ 8 + r1.toNat) * 2 ^ 8 + r2.toNat := by ring
  simp only [capture, BitVec.extractLsb, BitVec.extractLsb'_toNat, BitVec.toNat_append, BitVec.toNat_ofNat]
  rw [e1, e2, e3, Nat.shiftRight_eq_div_pow]

end Sys2Proof.Machine
end

