-- ==== Sys2Proof/Laws/State.lean ====
section
/-! SUPPORT. One lemma per field and update of the state, true by definition: what each shared operation writes, and that it leaves every
other field alone. -/

namespace Sys2Proof.Machine

/-! `respond`: a response is presented (R92). -/

@[simp] theorem respond_params (st : Status) (r : BitVec 32) (s : State) : (respond st r s).params = s.params := rfl
@[simp] theorem respond_busState (st : Status) (r : BitVec 32) (s : State) : (respond st r s).busState = s.busState := rfl
@[simp] theorem respond_nb (st : Status) (r : BitVec 32) (s : State) : (respond st r s).nb = s.nb := rfl
@[simp] theorem respond_buf (st : Status) (r : BitVec 32) (s : State) : (respond st r s).buf = s.buf := rfl
@[simp] theorem respond_wires (st : Status) (r : BitVec 32) (s : State) : (respond st r s).wires = s.wires := rfl
@[simp] theorem respond_drivers (st : Status) (r : BitVec 32) (s : State) : (respond st r s).drivers = s.drivers := rfl
@[simp] theorem respond_halted (st : Status) (r : BitVec 32) (s : State) : (respond st r s).halted = s.halted := rfl
@[simp] theorem respond_subaddrLog (st : Status) (r : BitVec 32) (s : State) : (respond st r s).subaddrLog = s.subaddrLog := rfl
@[simp] theorem respond_respStatus (st : Status) (r : BitVec 32) (s : State) : (respond st r s).respStatus = st.code := rfl
@[simp] theorem respond_respResult (st : Status) (r : BitVec 32) (s : State) : (respond st r s).respResult = r := rfl
@[simp] theorem respond_port (st : Status) (r : BitVec 32) (s : State) : (respond st r s).port = s.port := rfl
@[simp] theorem respond_inbound (st : Status) (r : BitVec 32) (s : State) : (respond st r s).inbound = s.inbound := rfl
@[simp] theorem respond_xferCount (st : Status) (r : BitVec 32) (s : State) : (respond st r s).xferCount = s.xferCount := rfl
@[simp] theorem respond_events (st : Status) (r : BitVec 32) (s : State) : (respond st r s).events = s.events := rfl
@[simp] theorem respond_responses (st : Status) (r : BitVec 32) (s : State) : (respond st r s).responses = s.responses ++ [⟨st.code, r⟩] := rfl
@[simp] theorem respond_driver (st : Status) (r : BitVec 32) (s : State) (e : Nat) : (respond st r s).driver e = s.driver e := rfl

/-! `writeBuf`: one bit of the buffer (R60). -/

@[simp] theorem writeBuf_params (i : Nat) (b : Bool) (s : State) : (writeBuf i b s).params = s.params := rfl
@[simp] theorem writeBuf_busState (i : Nat) (b : Bool) (s : State) : (writeBuf i b s).busState = s.busState := rfl
@[simp] theorem writeBuf_nb (i : Nat) (b : Bool) (s : State) : (writeBuf i b s).nb = s.nb := rfl
@[simp] theorem writeBuf_buf (i : Nat) (b : Bool) (s : State) : (writeBuf i b s).buf = Memory.writeBit s.buf i b := rfl
@[simp] theorem writeBuf_wires (i : Nat) (b : Bool) (s : State) : (writeBuf i b s).wires = s.wires := rfl
@[simp] theorem writeBuf_drivers (i : Nat) (b : Bool) (s : State) : (writeBuf i b s).drivers = s.drivers := rfl
@[simp] theorem writeBuf_halted (i : Nat) (b : Bool) (s : State) : (writeBuf i b s).halted = s.halted := rfl
@[simp] theorem writeBuf_subaddrLog (i : Nat) (b : Bool) (s : State) : (writeBuf i b s).subaddrLog = s.subaddrLog := rfl
@[simp] theorem writeBuf_respStatus (i : Nat) (b : Bool) (s : State) : (writeBuf i b s).respStatus = s.respStatus := rfl
@[simp] theorem writeBuf_respResult (i : Nat) (b : Bool) (s : State) : (writeBuf i b s).respResult = s.respResult := rfl
@[simp] theorem writeBuf_port (i : Nat) (b : Bool) (s : State) : (writeBuf i b s).port = s.port := rfl
@[simp] theorem writeBuf_inbound (i : Nat) (b : Bool) (s : State) : (writeBuf i b s).inbound = s.inbound := rfl
@[simp] theorem writeBuf_xferCount (i : Nat) (b : Bool) (s : State) : (writeBuf i b s).xferCount = s.xferCount := rfl
@[simp] theorem writeBuf_events (i : Nat) (b : Bool) (s : State) : (writeBuf i b s).events = s.events := rfl
@[simp] theorem writeBuf_responses (i : Nat) (b : Bool) (s : State) : (writeBuf i b s).responses = s.responses := rfl
@[simp] theorem writeBuf_driver (i : Nat) (b : Bool) (s : State) (e : Nat) : (writeBuf i b s).driver e = s.driver e := rfl

/-! `emit`: events (R12). -/

@[simp] theorem emit_params (es : List Event) (s : State) : (emit es s).params = s.params := rfl
@[simp] theorem emit_busState (es : List Event) (s : State) : (emit es s).busState = s.busState := rfl
@[simp] theorem emit_nb (es : List Event) (s : State) : (emit es s).nb = s.nb := rfl
@[simp] theorem emit_buf (es : List Event) (s : State) : (emit es s).buf = s.buf := rfl
@[simp] theorem emit_wires (es : List Event) (s : State) : (emit es s).wires = es.foldl Wires.drive s.wires := rfl
@[simp] theorem emit_drivers (es : List Event) (s : State) : (emit es s).drivers = s.drivers := rfl
@[simp] theorem emit_halted (es : List Event) (s : State) : (emit es s).halted = s.halted := rfl
@[simp] theorem emit_subaddrLog (es : List Event) (s : State) : (emit es s).subaddrLog = s.subaddrLog := rfl
@[simp] theorem emit_respStatus (es : List Event) (s : State) : (emit es s).respStatus = s.respStatus := rfl
@[simp] theorem emit_respResult (es : List Event) (s : State) : (emit es s).respResult = s.respResult := rfl
@[simp] theorem emit_port (es : List Event) (s : State) : (emit es s).port = s.port := rfl
@[simp] theorem emit_inbound (es : List Event) (s : State) : (emit es s).inbound = s.inbound := rfl
@[simp] theorem emit_xferCount (es : List Event) (s : State) : (emit es s).xferCount = s.xferCount := rfl
@[simp] theorem emit_events (es : List Event) (s : State) : (emit es s).events = s.events ++ es := rfl
@[simp] theorem emit_responses (es : List Event) (s : State) : (emit es s).responses = s.responses := rfl
@[simp] theorem emit_driver (es : List Event) (s : State) (e : Nat) : (emit es s).driver e = s.driver e := rfl

/-! `commitSeq`: the line sequence of a commit (R124). -/

@[simp] theorem commitSeq_params (s : State) : (commitSeq s).params = s.params := rfl
@[simp] theorem commitSeq_busState (s : State) : (commitSeq s).busState = s.busState := rfl
@[simp] theorem commitSeq_nb (s : State) : (commitSeq s).nb = s.nb := rfl
@[simp] theorem commitSeq_buf (s : State) : (commitSeq s).buf = s.buf := rfl
@[simp] theorem commitSeq_wires (s : State) : (commitSeq s).wires = (commitEvents s.buf s.nb).foldl Wires.drive s.wires := rfl
@[simp] theorem commitSeq_drivers (s : State) : (commitSeq s).drivers = s.drivers := rfl
@[simp] theorem commitSeq_halted (s : State) : (commitSeq s).halted = s.halted := rfl
@[simp] theorem commitSeq_subaddrLog (s : State) : (commitSeq s).subaddrLog = s.subaddrLog := rfl
@[simp] theorem commitSeq_respStatus (s : State) : (commitSeq s).respStatus = s.respStatus := rfl
@[simp] theorem commitSeq_respResult (s : State) : (commitSeq s).respResult = s.respResult := rfl
@[simp] theorem commitSeq_port (s : State) : (commitSeq s).port = s.port := rfl
@[simp] theorem commitSeq_inbound (s : State) : (commitSeq s).inbound = s.inbound := rfl
@[simp] theorem commitSeq_xferCount (s : State) : (commitSeq s).xferCount = s.xferCount := rfl
@[simp] theorem commitSeq_events (s : State) : (commitSeq s).events = s.events ++ commitEvents s.buf s.nb := rfl
@[simp] theorem commitSeq_responses (s : State) : (commitSeq s).responses = s.responses := rfl
@[simp] theorem commitSeq_driver (s : State) (e : Nat) : (commitSeq s).driver e = s.driver e := rfl

/-! `modifyDriver`: one instance. -/

@[simp] theorem modifyDriver_params (s : State) (d : Nat) (f : Driver → Driver) : (s.modifyDriver d f).params = s.params := rfl
@[simp] theorem modifyDriver_busState (s : State) (d : Nat) (f : Driver → Driver) : (s.modifyDriver d f).busState = s.busState := rfl
@[simp] theorem modifyDriver_nb (s : State) (d : Nat) (f : Driver → Driver) : (s.modifyDriver d f).nb = s.nb := rfl
@[simp] theorem modifyDriver_buf (s : State) (d : Nat) (f : Driver → Driver) : (s.modifyDriver d f).buf = s.buf := rfl
@[simp] theorem modifyDriver_wires (s : State) (d : Nat) (f : Driver → Driver) : (s.modifyDriver d f).wires = s.wires := rfl
@[simp] theorem modifyDriver_drivers (s : State) (d : Nat) (f : Driver → Driver) : (s.modifyDriver d f).drivers = s.drivers.modify d f := rfl
@[simp] theorem modifyDriver_halted (s : State) (d : Nat) (f : Driver → Driver) : (s.modifyDriver d f).halted = s.halted := rfl
@[simp] theorem modifyDriver_subaddrLog (s : State) (d : Nat) (f : Driver → Driver) : (s.modifyDriver d f).subaddrLog = s.subaddrLog := rfl
@[simp] theorem modifyDriver_respStatus (s : State) (d : Nat) (f : Driver → Driver) : (s.modifyDriver d f).respStatus = s.respStatus := rfl
@[simp] theorem modifyDriver_respResult (s : State) (d : Nat) (f : Driver → Driver) : (s.modifyDriver d f).respResult = s.respResult := rfl
@[simp] theorem modifyDriver_port (s : State) (d : Nat) (f : Driver → Driver) : (s.modifyDriver d f).port = s.port := rfl
@[simp] theorem modifyDriver_inbound (s : State) (d : Nat) (f : Driver → Driver) : (s.modifyDriver d f).inbound = s.inbound := rfl
@[simp] theorem modifyDriver_xferCount (s : State) (d : Nat) (f : Driver → Driver) : (s.modifyDriver d f).xferCount = s.xferCount := rfl
@[simp] theorem modifyDriver_events (s : State) (d : Nat) (f : Driver → Driver) : (s.modifyDriver d f).events = s.events := rfl
@[simp] theorem modifyDriver_responses (s : State) (d : Nat) (f : Driver → Driver) : (s.modifyDriver d f).responses = s.responses := rfl

/-! `writeShadow`: a shadow register (R30). -/

@[simp] theorem writeShadow_params (d : Nat) (r : Reg) (v : Reg20) (s : State) : (writeShadow d r v s).params = s.params := rfl
@[simp] theorem writeShadow_busState (d : Nat) (r : Reg) (v : Reg20) (s : State) : (writeShadow d r v s).busState = s.busState := rfl
@[simp] theorem writeShadow_nb (d : Nat) (r : Reg) (v : Reg20) (s : State) : (writeShadow d r v s).nb = s.nb := rfl
@[simp] theorem writeShadow_buf (d : Nat) (r : Reg) (v : Reg20) (s : State) : (writeShadow d r v s).buf = s.buf := rfl
@[simp] theorem writeShadow_wires (d : Nat) (r : Reg) (v : Reg20) (s : State) : (writeShadow d r v s).wires = s.wires := rfl
@[simp] theorem writeShadow_drivers (d : Nat) (r : Reg) (v : Reg20) (s : State) : (writeShadow d r v s).drivers = s.drivers.modify d fun m => { m with shadow := setReg m.shadow r v } := rfl
@[simp] theorem writeShadow_halted (d : Nat) (r : Reg) (v : Reg20) (s : State) : (writeShadow d r v s).halted = s.halted := rfl
@[simp] theorem writeShadow_subaddrLog (d : Nat) (r : Reg) (v : Reg20) (s : State) : (writeShadow d r v s).subaddrLog = s.subaddrLog := rfl
@[simp] theorem writeShadow_respStatus (d : Nat) (r : Reg) (v : Reg20) (s : State) : (writeShadow d r v s).respStatus = s.respStatus := rfl
@[simp] theorem writeShadow_respResult (d : Nat) (r : Reg) (v : Reg20) (s : State) : (writeShadow d r v s).respResult = s.respResult := rfl
@[simp] theorem writeShadow_port (d : Nat) (r : Reg) (v : Reg20) (s : State) : (writeShadow d r v s).port = s.port := rfl
@[simp] theorem writeShadow_inbound (d : Nat) (r : Reg) (v : Reg20) (s : State) : (writeShadow d r v s).inbound = s.inbound := rfl
@[simp] theorem writeShadow_xferCount (d : Nat) (r : Reg) (v : Reg20) (s : State) : (writeShadow d r v s).xferCount = s.xferCount := rfl
@[simp] theorem writeShadow_events (d : Nat) (r : Reg) (v : Reg20) (s : State) : (writeShadow d r v s).events = s.events := rfl
@[simp] theorem writeShadow_responses (d : Nat) (r : Reg) (v : Reg20) (s : State) : (writeShadow d r v s).responses = s.responses := rfl

/-! `writeOffCache`: OFF_CACHE (R27). -/

@[simp] theorem writeOffCache_params (d v : Nat) (s : State) : (writeOffCache d v s).params = s.params := rfl
@[simp] theorem writeOffCache_busState (d v : Nat) (s : State) : (writeOffCache d v s).busState = s.busState := rfl
@[simp] theorem writeOffCache_nb (d v : Nat) (s : State) : (writeOffCache d v s).nb = s.nb := rfl
@[simp] theorem writeOffCache_buf (d v : Nat) (s : State) : (writeOffCache d v s).buf = s.buf := rfl
@[simp] theorem writeOffCache_wires (d v : Nat) (s : State) : (writeOffCache d v s).wires = s.wires := rfl
@[simp] theorem writeOffCache_drivers (d v : Nat) (s : State) : (writeOffCache d v s).drivers = s.drivers.modify d fun m => { m with offCache := BitVec.ofNat 4 v } := rfl
@[simp] theorem writeOffCache_halted (d v : Nat) (s : State) : (writeOffCache d v s).halted = s.halted := rfl
@[simp] theorem writeOffCache_subaddrLog (d v : Nat) (s : State) : (writeOffCache d v s).subaddrLog = s.subaddrLog := rfl
@[simp] theorem writeOffCache_respStatus (d v : Nat) (s : State) : (writeOffCache d v s).respStatus = s.respStatus := rfl
@[simp] theorem writeOffCache_respResult (d v : Nat) (s : State) : (writeOffCache d v s).respResult = s.respResult := rfl
@[simp] theorem writeOffCache_port (d v : Nat) (s : State) : (writeOffCache d v s).port = s.port := rfl
@[simp] theorem writeOffCache_inbound (d v : Nat) (s : State) : (writeOffCache d v s).inbound = s.inbound := rfl
@[simp] theorem writeOffCache_xferCount (d v : Nat) (s : State) : (writeOffCache d v s).xferCount = s.xferCount := rfl
@[simp] theorem writeOffCache_events (d v : Nat) (s : State) : (writeOffCache d v s).events = s.events := rfl
@[simp] theorem writeOffCache_responses (d v : Nat) (s : State) : (writeOffCache d v s).responses = s.responses := rfl

/-! `writeLthrCache`: LTHR_CACHE (R28). -/

@[simp] theorem writeLthrCache_params (d v : Nat) (s : State) : (writeLthrCache d v s).params = s.params := rfl
@[simp] theorem writeLthrCache_busState (d v : Nat) (s : State) : (writeLthrCache d v s).busState = s.busState := rfl
@[simp] theorem writeLthrCache_nb (d v : Nat) (s : State) : (writeLthrCache d v s).nb = s.nb := rfl
@[simp] theorem writeLthrCache_buf (d v : Nat) (s : State) : (writeLthrCache d v s).buf = s.buf := rfl
@[simp] theorem writeLthrCache_wires (d v : Nat) (s : State) : (writeLthrCache d v s).wires = s.wires := rfl
@[simp] theorem writeLthrCache_drivers (d v : Nat) (s : State) : (writeLthrCache d v s).drivers = s.drivers.modify d fun m => { m with lthrCache := BitVec.ofNat 4 v } := rfl
@[simp] theorem writeLthrCache_halted (d v : Nat) (s : State) : (writeLthrCache d v s).halted = s.halted := rfl
@[simp] theorem writeLthrCache_subaddrLog (d v : Nat) (s : State) : (writeLthrCache d v s).subaddrLog = s.subaddrLog := rfl
@[simp] theorem writeLthrCache_respStatus (d v : Nat) (s : State) : (writeLthrCache d v s).respStatus = s.respStatus := rfl
@[simp] theorem writeLthrCache_respResult (d v : Nat) (s : State) : (writeLthrCache d v s).respResult = s.respResult := rfl
@[simp] theorem writeLthrCache_port (d v : Nat) (s : State) : (writeLthrCache d v s).port = s.port := rfl
@[simp] theorem writeLthrCache_inbound (d v : Nat) (s : State) : (writeLthrCache d v s).inbound = s.inbound := rfl
@[simp] theorem writeLthrCache_xferCount (d v : Nat) (s : State) : (writeLthrCache d v s).xferCount = s.xferCount := rfl
@[simp] theorem writeLthrCache_events (d v : Nat) (s : State) : (writeLthrCache d v s).events = s.events := rfl
@[simp] theorem writeLthrCache_responses (d v : Nat) (s : State) : (writeLthrCache d v s).responses = s.responses := rfl

/-! `refuseTransmit`: a refused transmit (R70, R283). -/

@[simp] theorem refuseTransmit_params (d : Nat) (v : Reg20) (s : State) : (refuseTransmit d v s).params = s.params := rfl
@[simp] theorem refuseTransmit_busState (d : Nat) (v : Reg20) (s : State) : (refuseTransmit d v s).busState = s.busState := rfl
@[simp] theorem refuseTransmit_nb (d : Nat) (v : Reg20) (s : State) : (refuseTransmit d v s).nb = s.nb := rfl
@[simp] theorem refuseTransmit_buf (d : Nat) (v : Reg20) (s : State) : (refuseTransmit d v s).buf = s.buf := rfl
@[simp] theorem refuseTransmit_wires (d : Nat) (v : Reg20) (s : State) : (refuseTransmit d v s).wires = s.wires := rfl
@[simp] theorem refuseTransmit_drivers (d : Nat) (v : Reg20) (s : State) : (refuseTransmit d v s).drivers = s.drivers.modify d fun m => { m with chip := m.chip.receiveMaybe v } := rfl
@[simp] theorem refuseTransmit_halted (d : Nat) (v : Reg20) (s : State) : (refuseTransmit d v s).halted = s.halted := rfl
@[simp] theorem refuseTransmit_subaddrLog (d : Nat) (v : Reg20) (s : State) : (refuseTransmit d v s).subaddrLog = s.subaddrLog := rfl
@[simp] theorem refuseTransmit_respStatus (d : Nat) (v : Reg20) (s : State) : (refuseTransmit d v s).respStatus = s.respStatus := rfl
@[simp] theorem refuseTransmit_respResult (d : Nat) (v : Reg20) (s : State) : (refuseTransmit d v s).respResult = s.respResult := rfl
@[simp] theorem refuseTransmit_port (d : Nat) (v : Reg20) (s : State) : (refuseTransmit d v s).port = s.port := rfl
@[simp] theorem refuseTransmit_inbound (d : Nat) (v : Reg20) (s : State) : (refuseTransmit d v s).inbound = s.inbound := rfl
@[simp] theorem refuseTransmit_xferCount (d : Nat) (v : Reg20) (s : State) : (refuseTransmit d v s).xferCount = s.xferCount := rfl
@[simp] theorem refuseTransmit_events (d : Nat) (v : Reg20) (s : State) : (refuseTransmit d v s).events = s.events := rfl
@[simp] theorem refuseTransmit_responses (d : Nat) (v : Reg20) (s : State) : (refuseTransmit d v s).responses = s.responses := rfl

/-! `storeStatus`: STATUS (R26). -/

@[simp] theorem storeStatus_params (d : Nat) (word : Reg20) (sel : Option Nat) (s : State) : (storeStatus d word sel s).params = s.params := rfl
@[simp] theorem storeStatus_busState (d : Nat) (word : Reg20) (sel : Option Nat) (s : State) : (storeStatus d word sel s).busState = s.busState := rfl
@[simp] theorem storeStatus_nb (d : Nat) (word : Reg20) (sel : Option Nat) (s : State) : (storeStatus d word sel s).nb = s.nb := rfl
@[simp] theorem storeStatus_buf (d : Nat) (word : Reg20) (sel : Option Nat) (s : State) : (storeStatus d word sel s).buf = s.buf := rfl
@[simp] theorem storeStatus_wires (d : Nat) (word : Reg20) (sel : Option Nat) (s : State) : (storeStatus d word sel s).wires = s.wires := rfl
@[simp] theorem storeStatus_drivers (d : Nat) (word : Reg20) (sel : Option Nat) (s : State) : (storeStatus d word sel s).drivers = s.drivers.modify d fun m => { m with status := word, chip := { m.chip with statusSel := sel } } := rfl
@[simp] theorem storeStatus_halted (d : Nat) (word : Reg20) (sel : Option Nat) (s : State) : (storeStatus d word sel s).halted = s.halted := rfl
@[simp] theorem storeStatus_subaddrLog (d : Nat) (word : Reg20) (sel : Option Nat) (s : State) : (storeStatus d word sel s).subaddrLog = s.subaddrLog := rfl
@[simp] theorem storeStatus_respStatus (d : Nat) (word : Reg20) (sel : Option Nat) (s : State) : (storeStatus d word sel s).respStatus = s.respStatus := rfl
@[simp] theorem storeStatus_respResult (d : Nat) (word : Reg20) (sel : Option Nat) (s : State) : (storeStatus d word sel s).respResult = s.respResult := rfl
@[simp] theorem storeStatus_port (d : Nat) (word : Reg20) (sel : Option Nat) (s : State) : (storeStatus d word sel s).port = s.port := rfl
@[simp] theorem storeStatus_inbound (d : Nat) (word : Reg20) (sel : Option Nat) (s : State) : (storeStatus d word sel s).inbound = s.inbound := rfl
@[simp] theorem storeStatus_xferCount (d : Nat) (word : Reg20) (sel : Option Nat) (s : State) : (storeStatus d word sel s).xferCount = s.xferCount := rfl
@[simp] theorem storeStatus_events (d : Nat) (word : Reg20) (sel : Option Nat) (s : State) : (storeStatus d word sel s).events = s.events := rfl
@[simp] theorem storeStatus_responses (d : Nat) (word : Reg20) (sel : Option Nat) (s : State) : (storeStatus d word sel s).responses = s.responses := rfl

/-! `deliver`: a transfer reaches the chips; only they change. -/

@[simp] theorem deliver_params (d : Nat) (v : Reg20) (ans : XferAnswer) (s : State) : (deliver d v ans s).params = s.params := by unfold deliver; split <;> rfl
@[simp] theorem deliver_busState (d : Nat) (v : Reg20) (ans : XferAnswer) (s : State) : (deliver d v ans s).busState = s.busState := by unfold deliver; split <;> rfl
@[simp] theorem deliver_nb (d : Nat) (v : Reg20) (ans : XferAnswer) (s : State) : (deliver d v ans s).nb = s.nb := by unfold deliver; split <;> rfl
@[simp] theorem deliver_buf (d : Nat) (v : Reg20) (ans : XferAnswer) (s : State) : (deliver d v ans s).buf = s.buf := by unfold deliver; split <;> rfl
@[simp] theorem deliver_wires (d : Nat) (v : Reg20) (ans : XferAnswer) (s : State) : (deliver d v ans s).wires = s.wires := by unfold deliver; split <;> rfl
@[simp] theorem deliver_halted (d : Nat) (v : Reg20) (ans : XferAnswer) (s : State) : (deliver d v ans s).halted = s.halted := by unfold deliver; split <;> rfl
@[simp] theorem deliver_subaddrLog (d : Nat) (v : Reg20) (ans : XferAnswer) (s : State) : (deliver d v ans s).subaddrLog = s.subaddrLog := by unfold deliver; split <;> rfl
@[simp] theorem deliver_respStatus (d : Nat) (v : Reg20) (ans : XferAnswer) (s : State) : (deliver d v ans s).respStatus = s.respStatus := by unfold deliver; split <;> rfl
@[simp] theorem deliver_respResult (d : Nat) (v : Reg20) (ans : XferAnswer) (s : State) : (deliver d v ans s).respResult = s.respResult := by unfold deliver; split <;> rfl
@[simp] theorem deliver_port (d : Nat) (v : Reg20) (ans : XferAnswer) (s : State) : (deliver d v ans s).port = s.port := by unfold deliver; split <;> rfl
@[simp] theorem deliver_inbound (d : Nat) (v : Reg20) (ans : XferAnswer) (s : State) : (deliver d v ans s).inbound = s.inbound := by unfold deliver; split <;> rfl
@[simp] theorem deliver_xferCount (d : Nat) (v : Reg20) (ans : XferAnswer) (s : State) : (deliver d v ans s).xferCount = s.xferCount := by unfold deliver; split <;> rfl
@[simp] theorem deliver_events (d : Nat) (v : Reg20) (ans : XferAnswer) (s : State) : (deliver d v ans s).events = s.events := by unfold deliver; split <;> rfl
@[simp] theorem deliver_responses (d : Nat) (v : Reg20) (ans : XferAnswer) (s : State) : (deliver d v ans s).responses = s.responses := by unfold deliver; split <;> rfl

/-! `xfer`: one transfer; the event moves no line, one answer is used up. -/

@[simp] theorem xfer_params (d : Nat) (v : Reg20) (s : State) : (xfer d v s).params = s.params := by simp [xfer]
@[simp] theorem xfer_busState (d : Nat) (v : Reg20) (s : State) : (xfer d v s).busState = s.busState := by simp [xfer]
@[simp] theorem xfer_nb (d : Nat) (v : Reg20) (s : State) : (xfer d v s).nb = s.nb := by simp [xfer]
@[simp] theorem xfer_buf (d : Nat) (v : Reg20) (s : State) : (xfer d v s).buf = s.buf := by simp [xfer]
@[simp] theorem xfer_wires (d : Nat) (v : Reg20) (s : State) : (xfer d v s).wires = s.wires := by simp [xfer, datagram, Wires.drive]
@[simp] theorem xfer_drivers (d : Nat) (v : Reg20) (s : State) : (xfer d v s).drivers = (deliver d v (nextAnswer s) s).drivers := by simp [xfer]
@[simp] theorem xfer_halted (d : Nat) (v : Reg20) (s : State) : (xfer d v s).halted = s.halted := by simp [xfer]
@[simp] theorem xfer_subaddrLog (d : Nat) (v : Reg20) (s : State) : (xfer d v s).subaddrLog = s.subaddrLog := by simp [xfer]
@[simp] theorem xfer_respStatus (d : Nat) (v : Reg20) (s : State) : (xfer d v s).respStatus = s.respStatus := by simp [xfer]
@[simp] theorem xfer_respResult (d : Nat) (v : Reg20) (s : State) : (xfer d v s).respResult = s.respResult := by simp [xfer]
@[simp] theorem xfer_port (d : Nat) (v : Reg20) (s : State) : (xfer d v s).port = s.port := by simp [xfer]
@[simp] theorem xfer_inbound (d : Nat) (v : Reg20) (s : State) : (xfer d v s).inbound = s.inbound.tail := by simp [xfer]
@[simp] theorem xfer_xferCount (d : Nat) (v : Reg20) (s : State) : (xfer d v s).xferCount = s.xferCount + 1 := by simp [xfer]
@[simp] theorem xfer_events (d : Nat) (v : Reg20) (s : State) : (xfer d v s).events = s.events ++ [datagram v] := by simp [xfer]
@[simp] theorem xfer_responses (d : Nat) (v : Reg20) (s : State) : (xfer d v s).responses = s.responses := by simp [xfer]

/-! `selectChip`: a chip-select bit and a commit (R70). -/

@[simp] theorem selectChip_params (d : Nat) (s : State) : (selectChip d s).params = s.params := rfl
@[simp] theorem selectChip_busState (d : Nat) (s : State) : (selectChip d s).busState = s.busState := rfl
@[simp] theorem selectChip_nb (d : Nat) (s : State) : (selectChip d s).nb = s.nb := rfl
@[simp] theorem selectChip_buf (d : Nat) (s : State) : (selectChip d s).buf = Memory.writeBit s.buf (s.driver d).wiring.csBit false := rfl
@[simp] theorem selectChip_wires (d : Nat) (s : State) : (selectChip d s).wires = (commitEvents (Memory.writeBit s.buf (s.driver d).wiring.csBit false) s.nb).foldl Wires.drive s.wires := rfl
@[simp] theorem selectChip_drivers (d : Nat) (s : State) : (selectChip d s).drivers = s.drivers := rfl
@[simp] theorem selectChip_halted (d : Nat) (s : State) : (selectChip d s).halted = s.halted := rfl
@[simp] theorem selectChip_subaddrLog (d : Nat) (s : State) : (selectChip d s).subaddrLog = s.subaddrLog := rfl
@[simp] theorem selectChip_respStatus (d : Nat) (s : State) : (selectChip d s).respStatus = s.respStatus := rfl
@[simp] theorem selectChip_respResult (d : Nat) (s : State) : (selectChip d s).respResult = s.respResult := rfl
@[simp] theorem selectChip_port (d : Nat) (s : State) : (selectChip d s).port = s.port := rfl
@[simp] theorem selectChip_inbound (d : Nat) (s : State) : (selectChip d s).inbound = s.inbound := rfl
@[simp] theorem selectChip_xferCount (d : Nat) (s : State) : (selectChip d s).xferCount = s.xferCount := rfl
@[simp] theorem selectChip_events (d : Nat) (s : State) : (selectChip d s).events = s.events ++ commitEvents (Memory.writeBit s.buf (s.driver d).wiring.csBit false) s.nb := rfl
@[simp] theorem selectChip_responses (d : Nat) (s : State) : (selectChip d s).responses = s.responses := rfl
@[simp] theorem selectChip_driver (d : Nat) (s : State) (e : Nat) : (selectChip d s).driver e = s.driver e := rfl

/-! `deselectChip`: a chip-select bit and a commit (R70). -/

@[simp] theorem deselectChip_params (d : Nat) (s : State) : (deselectChip d s).params = s.params := rfl
@[simp] theorem deselectChip_busState (d : Nat) (s : State) : (deselectChip d s).busState = s.busState := rfl
@[simp] theorem deselectChip_nb (d : Nat) (s : State) : (deselectChip d s).nb = s.nb := rfl
@[simp] theorem deselectChip_buf (d : Nat) (s : State) : (deselectChip d s).buf = Memory.writeBit s.buf (s.driver d).wiring.csBit true := rfl
@[simp] theorem deselectChip_wires (d : Nat) (s : State) : (deselectChip d s).wires = (commitEvents (Memory.writeBit s.buf (s.driver d).wiring.csBit true) s.nb).foldl Wires.drive s.wires := rfl
@[simp] theorem deselectChip_drivers (d : Nat) (s : State) : (deselectChip d s).drivers = s.drivers := rfl
@[simp] theorem deselectChip_halted (d : Nat) (s : State) : (deselectChip d s).halted = s.halted := rfl
@[simp] theorem deselectChip_subaddrLog (d : Nat) (s : State) : (deselectChip d s).subaddrLog = s.subaddrLog := rfl
@[simp] theorem deselectChip_respStatus (d : Nat) (s : State) : (deselectChip d s).respStatus = s.respStatus := rfl
@[simp] theorem deselectChip_respResult (d : Nat) (s : State) : (deselectChip d s).respResult = s.respResult := rfl
@[simp] theorem deselectChip_port (d : Nat) (s : State) : (deselectChip d s).port = s.port := rfl
@[simp] theorem deselectChip_inbound (d : Nat) (s : State) : (deselectChip d s).inbound = s.inbound := rfl
@[simp] theorem deselectChip_xferCount (d : Nat) (s : State) : (deselectChip d s).xferCount = s.xferCount := rfl
@[simp] theorem deselectChip_events (d : Nat) (s : State) : (deselectChip d s).events = s.events ++ commitEvents (Memory.writeBit s.buf (s.driver d).wiring.csBit true) s.nb := rfl
@[simp] theorem deselectChip_responses (d : Nat) (s : State) : (deselectChip d s).responses = s.responses := rfl
@[simp] theorem deselectChip_driver (d : Nat) (s : State) (e : Nat) : (deselectChip d s).driver e = s.driver e := rfl

/-! `exchange`: what it leaves alone; what it does to the rest is in Laws/Transmit.lean. -/

@[simp] theorem exchange_params (d : Nat) (v : Reg20) (s : State) : (exchange d v s).params = s.params := by simp [exchange]
@[simp] theorem exchange_busState (d : Nat) (v : Reg20) (s : State) : (exchange d v s).busState = s.busState := by simp [exchange]
@[simp] theorem exchange_nb (d : Nat) (v : Reg20) (s : State) : (exchange d v s).nb = s.nb := by simp [exchange]
@[simp] theorem exchange_halted (d : Nat) (v : Reg20) (s : State) : (exchange d v s).halted = s.halted := by simp [exchange]
@[simp] theorem exchange_subaddrLog (d : Nat) (v : Reg20) (s : State) : (exchange d v s).subaddrLog = s.subaddrLog := by simp [exchange]
@[simp] theorem exchange_respStatus (d : Nat) (v : Reg20) (s : State) : (exchange d v s).respStatus = s.respStatus := by simp [exchange]
@[simp] theorem exchange_respResult (d : Nat) (v : Reg20) (s : State) : (exchange d v s).respResult = s.respResult := by simp [exchange]
@[simp] theorem exchange_port (d : Nat) (v : Reg20) (s : State) : (exchange d v s).port = s.port := by simp [exchange]
@[simp] theorem exchange_responses (d : Nat) (v : Reg20) (s : State) : (exchange d v s).responses = s.responses := by simp [exchange]
@[simp] theorem exchange_inbound (d : Nat) (v : Reg20) (s : State) : (exchange d v s).inbound = s.inbound.tail := by simp [exchange]
@[simp] theorem exchange_xferCount (d : Nat) (v : Reg20) (s : State) : (exchange d v s).xferCount = s.xferCount + 1 := by simp [exchange]

@[simp] theorem nextAnswer_selectChip (d : Nat) (s : State) : nextAnswer (selectChip d s) = nextAnswer s := rfl

end Sys2Proof.Machine
end

