-- ==== Sys2Proof/Laws/Drivers.lean ====
section
/-! SUPPORT. Driver instances: reading one after a change of one, the sub-address check, and what a transfer does to the instances. -/

namespace Sys2Proof.Machine

theorem driver_eq_of_drivers {s t : State} (h : t.drivers = s.drivers) (e : Nat) : t.driver e = s.driver e := by
  unfold State.driver; rw [h]

theorem drivers_getElem? {s : State} {d : Nat} (h : d < s.drivers.length) : s.drivers[d]? = some (s.driver d) := by
  simp [State.driver, List.getD_eq_getElem?_getD, h]

@[simp] theorem modifyDriver_length (s : State) (d : Nat) (f : Driver → Driver) :
    (s.modifyDriver d f).drivers.length = s.drivers.length := by simp

/-- Reading the instance just changed. -/
theorem driver_modifyDriver_self {s : State} {d : Nat} (f : Driver → Driver) (h : d < s.drivers.length) :
    (s.modifyDriver d f).driver d = f (s.driver d) := by
  simp [State.driver, State.modifyDriver, List.getD_eq_getElem?_getD, h]

/-- Reading any other instance. -/
theorem driver_modifyDriver_other (s : State) {d e : Nat} (f : Driver → Driver) (h : e ≠ d) :
    (s.modifyDriver d f).driver e = s.driver e := by
  simp [State.driver, State.modifyDriver, List.getD_eq_getElem?_getD, Ne.symm h]

/-- A property of an instance that `f` keeps is kept in every instance. -/
theorem driver_modifyDriver_keeps {α : Type} (s : State) (d e : Nat) {f : Driver → Driver} (g : Driver → α)
    (h : ∀ m, g (f m) = g m) : g ((s.modifyDriver d f).driver e) = g (s.driver e) := by
  by_cases he : e = d
  · subst he
    by_cases hl : e < s.drivers.length
    · rw [driver_modifyDriver_self f hl, h]
    · have : (s.modifyDriver e f).driver e = s.driver e := by
        simp [State.driver, State.modifyDriver, List.getD_eq_getElem?_getD, hl]
      rw [this]
  · rw [driver_modifyDriver_other s f he]

/-! ## What each write of one instance leaves alone -/

@[simp] theorem storeStatus_driver_wiring (d : Nat) (word : Reg20) (sel : Option Nat) (s : State) (e : Nat) :
    ((storeStatus d word sel s).driver e).wiring = (s.driver e).wiring :=
  driver_modifyDriver_keeps s d e (f := fun m => { m with status := word, chip := { m.chip with statusSel := sel } }) Driver.wiring fun _ => rfl

@[simp] theorem storeStatus_driver_shadow (d : Nat) (word : Reg20) (sel : Option Nat) (s : State) (e : Nat) :
    ((storeStatus d word sel s).driver e).shadow = (s.driver e).shadow :=
  driver_modifyDriver_keeps s d e (f := fun m => { m with status := word, chip := { m.chip with statusSel := sel } }) Driver.shadow fun _ => rfl

@[simp] theorem storeStatus_driver_offCache (d : Nat) (word : Reg20) (sel : Option Nat) (s : State) (e : Nat) :
    ((storeStatus d word sel s).driver e).offCache = (s.driver e).offCache :=
  driver_modifyDriver_keeps s d e (f := fun m => { m with status := word, chip := { m.chip with statusSel := sel } }) Driver.offCache fun _ => rfl

@[simp] theorem storeStatus_driver_lthrCache (d : Nat) (word : Reg20) (sel : Option Nat) (s : State) (e : Nat) :
    ((storeStatus d word sel s).driver e).lthrCache = (s.driver e).lthrCache :=
  driver_modifyDriver_keeps s d e (f := fun m => { m with status := word, chip := { m.chip with statusSel := sel } }) Driver.lthrCache fun _ => rfl

theorem storeStatus_driver_other (d : Nat) (word : Reg20) (sel : Option Nat) (s : State) {e : Nat} (h : e ≠ d) :
    (storeStatus d word sel s).driver e = s.driver e := driver_modifyDriver_other s _ h

theorem storeStatus_driver_self (d : Nat) (word : Reg20) (sel : Option Nat) (s : State) (h : d < s.drivers.length) :
    (storeStatus d word sel s).driver d = (fun m => { m with status := word, chip := { m.chip with statusSel := sel } }) (s.driver d) := driver_modifyDriver_self _ h

@[simp] theorem refuseTransmit_driver_wiring (d : Nat) (v : Reg20) (s : State) (e : Nat) :
    ((refuseTransmit d v s).driver e).wiring = (s.driver e).wiring :=
  driver_modifyDriver_keeps s d e (f := fun m => { m with chip := m.chip.receiveMaybe v }) Driver.wiring fun _ => rfl

@[simp] theorem refuseTransmit_driver_shadow (d : Nat) (v : Reg20) (s : State) (e : Nat) :
    ((refuseTransmit d v s).driver e).shadow = (s.driver e).shadow :=
  driver_modifyDriver_keeps s d e (f := fun m => { m with chip := m.chip.receiveMaybe v }) Driver.shadow fun _ => rfl

@[simp] theorem refuseTransmit_driver_status (d : Nat) (v : Reg20) (s : State) (e : Nat) :
    ((refuseTransmit d v s).driver e).status = (s.driver e).status :=
  driver_modifyDriver_keeps s d e (f := fun m => { m with chip := m.chip.receiveMaybe v }) Driver.status fun _ => rfl

@[simp] theorem refuseTransmit_driver_offCache (d : Nat) (v : Reg20) (s : State) (e : Nat) :
    ((refuseTransmit d v s).driver e).offCache = (s.driver e).offCache :=
  driver_modifyDriver_keeps s d e (f := fun m => { m with chip := m.chip.receiveMaybe v }) Driver.offCache fun _ => rfl

@[simp] theorem refuseTransmit_driver_lthrCache (d : Nat) (v : Reg20) (s : State) (e : Nat) :
    ((refuseTransmit d v s).driver e).lthrCache = (s.driver e).lthrCache :=
  driver_modifyDriver_keeps s d e (f := fun m => { m with chip := m.chip.receiveMaybe v }) Driver.lthrCache fun _ => rfl

theorem refuseTransmit_driver_other (d : Nat) (v : Reg20) (s : State) {e : Nat} (h : e ≠ d) :
    (refuseTransmit d v s).driver e = s.driver e := driver_modifyDriver_other s _ h

theorem refuseTransmit_driver_self (d : Nat) (v : Reg20) (s : State) (h : d < s.drivers.length) :
    (refuseTransmit d v s).driver d = { s.driver d with chip := (s.driver d).chip.receiveMaybe v } :=
  driver_modifyDriver_self _ h

@[simp] theorem writeShadow_driver_wiring (d : Nat) (r : Reg) (v : Reg20) (s : State) (e : Nat) :
    ((writeShadow d r v s).driver e).wiring = (s.driver e).wiring :=
  driver_modifyDriver_keeps s d e (f := fun m => { m with shadow := setReg m.shadow r v }) Driver.wiring fun _ => rfl

@[simp] theorem writeShadow_driver_status (d : Nat) (r : Reg) (v : Reg20) (s : State) (e : Nat) :
    ((writeShadow d r v s).driver e).status = (s.driver e).status :=
  driver_modifyDriver_keeps s d e (f := fun m => { m with shadow := setReg m.shadow r v }) Driver.status fun _ => rfl

@[simp] theorem writeShadow_driver_offCache (d : Nat) (r : Reg) (v : Reg20) (s : State) (e : Nat) :
    ((writeShadow d r v s).driver e).offCache = (s.driver e).offCache :=
  driver_modifyDriver_keeps s d e (f := fun m => { m with shadow := setReg m.shadow r v }) Driver.offCache fun _ => rfl

@[simp] theorem writeShadow_driver_lthrCache (d : Nat) (r : Reg) (v : Reg20) (s : State) (e : Nat) :
    ((writeShadow d r v s).driver e).lthrCache = (s.driver e).lthrCache :=
  driver_modifyDriver_keeps s d e (f := fun m => { m with shadow := setReg m.shadow r v }) Driver.lthrCache fun _ => rfl

@[simp] theorem writeShadow_driver_chip (d : Nat) (r : Reg) (v : Reg20) (s : State) (e : Nat) :
    ((writeShadow d r v s).driver e).chip = (s.driver e).chip :=
  driver_modifyDriver_keeps s d e (f := fun m => { m with shadow := setReg m.shadow r v }) Driver.chip fun _ => rfl

theorem writeShadow_driver_other (d : Nat) (r : Reg) (v : Reg20) (s : State) {e : Nat} (h : e ≠ d) :
    (writeShadow d r v s).driver e = s.driver e := driver_modifyDriver_other s _ h

theorem writeShadow_driver_self (d : Nat) (r : Reg) (v : Reg20) (s : State) (h : d < s.drivers.length) :
    (writeShadow d r v s).driver d = (fun m => { m with shadow := setReg m.shadow r v }) (s.driver d) := driver_modifyDriver_self _ h

@[simp] theorem writeOffCache_driver_wiring (d v : Nat) (s : State) (e : Nat) :
    ((writeOffCache d v s).driver e).wiring = (s.driver e).wiring :=
  driver_modifyDriver_keeps s d e (f := fun m => { m with offCache := BitVec.ofNat 4 v }) Driver.wiring fun _ => rfl

@[simp] theorem writeOffCache_driver_shadow (d v : Nat) (s : State) (e : Nat) :
    ((writeOffCache d v s).driver e).shadow = (s.driver e).shadow :=
  driver_modifyDriver_keeps s d e (f := fun m => { m with offCache := BitVec.ofNat 4 v }) Driver.shadow fun _ => rfl

@[simp] theorem writeOffCache_driver_status (d v : Nat) (s : State) (e : Nat) :
    ((writeOffCache d v s).driver e).status = (s.driver e).status :=
  driver_modifyDriver_keeps s d e (f := fun m => { m with offCache := BitVec.ofNat 4 v }) Driver.status fun _ => rfl

@[simp] theorem writeOffCache_driver_lthrCache (d v : Nat) (s : State) (e : Nat) :
    ((writeOffCache d v s).driver e).lthrCache = (s.driver e).lthrCache :=
  driver_modifyDriver_keeps s d e (f := fun m => { m with offCache := BitVec.ofNat 4 v }) Driver.lthrCache fun _ => rfl

@[simp] theorem writeOffCache_driver_chip (d v : Nat) (s : State) (e : Nat) :
    ((writeOffCache d v s).driver e).chip = (s.driver e).chip :=
  driver_modifyDriver_keeps s d e (f := fun m => { m with offCache := BitVec.ofNat 4 v }) Driver.chip fun _ => rfl

theorem writeOffCache_driver_other (d v : Nat) (s : State) {e : Nat} (h : e ≠ d) :
    (writeOffCache d v s).driver e = s.driver e := driver_modifyDriver_other s _ h

theorem writeOffCache_driver_self (d v : Nat) (s : State) (h : d < s.drivers.length) :
    (writeOffCache d v s).driver d = (fun m => { m with offCache := BitVec.ofNat 4 v }) (s.driver d) := driver_modifyDriver_self _ h

@[simp] theorem writeLthrCache_driver_wiring (d v : Nat) (s : State) (e : Nat) :
    ((writeLthrCache d v s).driver e).wiring = (s.driver e).wiring :=
  driver_modifyDriver_keeps s d e (f := fun m => { m with lthrCache := BitVec.ofNat 4 v }) Driver.wiring fun _ => rfl

@[simp] theorem writeLthrCache_driver_shadow (d v : Nat) (s : State) (e : Nat) :
    ((writeLthrCache d v s).driver e).shadow = (s.driver e).shadow :=
  driver_modifyDriver_keeps s d e (f := fun m => { m with lthrCache := BitVec.ofNat 4 v }) Driver.shadow fun _ => rfl

@[simp] theorem writeLthrCache_driver_status (d v : Nat) (s : State) (e : Nat) :
    ((writeLthrCache d v s).driver e).status = (s.driver e).status :=
  driver_modifyDriver_keeps s d e (f := fun m => { m with lthrCache := BitVec.ofNat 4 v }) Driver.status fun _ => rfl

@[simp] theorem writeLthrCache_driver_offCache (d v : Nat) (s : State) (e : Nat) :
    ((writeLthrCache d v s).driver e).offCache = (s.driver e).offCache :=
  driver_modifyDriver_keeps s d e (f := fun m => { m with lthrCache := BitVec.ofNat 4 v }) Driver.offCache fun _ => rfl

@[simp] theorem writeLthrCache_driver_chip (d v : Nat) (s : State) (e : Nat) :
    ((writeLthrCache d v s).driver e).chip = (s.driver e).chip :=
  driver_modifyDriver_keeps s d e (f := fun m => { m with lthrCache := BitVec.ofNat 4 v }) Driver.chip fun _ => rfl

theorem writeLthrCache_driver_other (d v : Nat) (s : State) {e : Nat} (h : e ≠ d) :
    (writeLthrCache d v s).driver e = s.driver e := driver_modifyDriver_other s _ h

theorem writeLthrCache_driver_self (d v : Nat) (s : State) (h : d < s.drivers.length) :
    (writeLthrCache d v s).driver d = (fun m => { m with lthrCache := BitVec.ofNat 4 v }) (s.driver d) := driver_modifyDriver_self _ h

/-- The sub-address check on an instance that exists. -/
theorem onDriver_of_lt {d : Nat} {s : State} (run : Driver → Host.Outcome State Fault Refusal) (h : d < s.drivers.length) :
    onDriver d s run = run (s.driver d) := by
  unfold onDriver; rw [drivers_getElem? h]

/-- The sub-address check on one that does not (R244). -/
theorem onDriver_of_ge {d : Nat} {s : State} (run : Driver → Host.Outcome State Fault Refusal) (h : s.drivers.length ≤ d) :
    onDriver d s run = answer 0 { s with subaddrLog := true } := by
  unfold onDriver; rw [List.getElem?_eq_none h]

/-- A transfer changes nothing of an instance but its chip's registers. -/
theorem deliver_keeps {α : Type} (d : Nat) (v : Reg20) (ans : XferAnswer) (s : State) (e : Nat) (g : Driver → α)
    (h : ∀ (m : Driver) (r : Regs (Option Reg20)), g { m with chip := { m.chip with regs := r } } = g m) :
    g ((deliver d v ans s).driver e) = g (s.driver e) := by
  unfold deliver
  split
  · by_cases hl : e < s.drivers.length
    · simp only [State.driver, List.getD_eq_getElem?_getD, List.getElem?_map, List.getElem?_eq_getElem hl, Option.map_some,
        Option.getD_some]
      split
      · rfl
      · exact h _ _
    · simp [State.driver, List.getD_eq_getElem?_getD, hl]
  · apply driver_modifyDriver_keeps
    intro m
    cases ans with
    | bytes r0 r1 r2 =>
      simp only [Chip.receive]
      split <;> exact h _ _
    | fail =>
      simp only [Chip.receiveMaybe]
      split <;> exact h _ _

@[simp] theorem deliver_length (d : Nat) (v : Reg20) (ans : XferAnswer) (s : State) :
    (deliver d v ans s).drivers.length = s.drivers.length := by
  unfold deliver; split <;> simp

@[simp] theorem xfer_driver (d : Nat) (v : Reg20) (s : State) (e : Nat) :
    (xfer d v s).driver e = (deliver d v (nextAnswer s) s).driver e := rfl

@[simp] theorem deliver_wiring (d : Nat) (v : Reg20) (ans : XferAnswer) (s : State) (e : Nat) :
    ((deliver d v ans s).driver e).wiring = (s.driver e).wiring := deliver_keeps d v ans s e Driver.wiring fun _ _ => rfl

@[simp] theorem deliver_shadow (d : Nat) (v : Reg20) (ans : XferAnswer) (s : State) (e : Nat) :
    ((deliver d v ans s).driver e).shadow = (s.driver e).shadow := deliver_keeps d v ans s e Driver.shadow fun _ _ => rfl

@[simp] theorem deliver_status (d : Nat) (v : Reg20) (ans : XferAnswer) (s : State) (e : Nat) :
    ((deliver d v ans s).driver e).status = (s.driver e).status := deliver_keeps d v ans s e Driver.status fun _ _ => rfl

@[simp] theorem deliver_offCache (d : Nat) (v : Reg20) (ans : XferAnswer) (s : State) (e : Nat) :
    ((deliver d v ans s).driver e).offCache = (s.driver e).offCache := deliver_keeps d v ans s e Driver.offCache fun _ _ => rfl

@[simp] theorem deliver_lthrCache (d : Nat) (v : Reg20) (ans : XferAnswer) (s : State) (e : Nat) :
    ((deliver d v ans s).driver e).lthrCache = (s.driver e).lthrCache := deliver_keeps d v ans s e Driver.lthrCache fun _ _ => rfl

/-- With one chip selected, the chip of the target takes the datagram when the transfer answers (R42). -/
theorem deliver_sole_self {d : Nat} (v : Reg20) {s : State} (r0 r1 r2 : Byte) (hc : contended s = false)
    (h : d < s.drivers.length) :
    ((deliver d v (.bytes r0 r1 r2) s).driver d).chip = (s.driver d).chip.receive v := by
  unfold deliver; rw [hc, if_neg (by simp), driver_modifyDriver_self _ h]

/-- With one chip selected, the register named by the datagram is unknown after a failed transfer (R164). -/
theorem deliver_sole_fail {d : Nat} (v : Reg20) {s : State} (hc : contended s = false) (h : d < s.drivers.length) :
    ((deliver d v .fail s).driver d).chip = (s.driver d).chip.receiveMaybe v := by
  unfold deliver; rw [hc, if_neg (by simp), driver_modifyDriver_self _ h]

/-- With one chip selected, no other instance changes. -/
theorem deliver_sole_other {d e : Nat} (v : Reg20) (ans : XferAnswer) {s : State} (hc : contended s = false) (h : e ≠ d) :
    (deliver d v ans s).driver e = s.driver e := by
  unfold deliver; rw [hc, if_neg (by simp), driver_modifyDriver_other _ _ h]

/-- With more than one chip selected, the registers of each selected chip are unknown afterwards (R279). -/
theorem deliver_contended {d e : Nat} (v : Reg20) (ans : XferAnswer) {s : State} (hc : contended s = true)
    (h : e < s.drivers.length) (hs : deselected s (s.driver e) = false) :
    ((deliver d v ans s).driver e).chip.regs = Chip.unknown.regs := by
  have he : s.drivers[e]? = some (s.driver e) := drivers_getElem? h
  unfold deliver
  rw [hc, if_pos rfl]
  simp [State.driver, List.getD_eq_getElem?_getD, h]
  simp [State.driver, List.getD_eq_getElem?_getD, h] at hs
  simp [hs]

/-- A list of which at most one entry has a property counts it at most once. -/
theorem filter_length_le_one {α : Type} (p : α → Bool) (l : List α) (d : Nat)
    (h : ∀ k x, l[k]? = some x → k ≠ d → p x = false) : (l.filter p).length ≤ 1 := by
  induction l generalizing d with
  | nil => simp
  | cons a rest ih =>
    cases d with
    | zero =>
      have hn : rest.filter p = [] := by
        rw [List.filter_eq_nil_iff]
        intro x hx
        obtain ⟨k, hk⟩ := List.mem_iff_getElem?.1 hx
        simp [h (k + 1) x (by simpa using hk) (by omega)]
      rw [List.filter_cons]
      split <;> simp [hn]
    | succ d =>
      have ha : p a = false := h 0 a rfl (by omega)
      rw [List.filter_cons, if_neg (by simp [ha])]
      exact ih d fun k x hk hne => h (k + 1) x (by simpa using hk) (by omega)

/-- With every other chip deselected, there is no contention (R279). -/
theorem contended_of_sole {s : State} {d : Nat}
    (h : ∀ e, e < s.drivers.length → e ≠ d → deselected s (s.driver e) = true) : contended s = false := by
  unfold contended
  rw [decide_eq_false_iff_not]
  have := filter_length_le_one (fun m => !deselected s m) s.drivers d (by
    intro k x hk hne
    have hl : k < s.drivers.length := by
      by_contra hc
      rw [List.getElem?_eq_none (by omega)] at hk
      cases hk
    have hx : s.driver k = x := by
      rw [drivers_getElem? hl] at hk
      exact Option.some.inj hk
    rw [← hx]
    simp [h k hl hne])
  omega

/-- Two chips not deselected contend (R279). -/
theorem contended_of_two {s : State} {d e : Nat} (hd : d < s.drivers.length) (he : e < s.drivers.length) (hne : e ≠ d)
    (h1 : deselected s (s.driver d) = false) (h2 : deselected s (s.driver e) = false) : contended s = true := by
  unfold contended
  rw [decide_eq_true_eq]
  by_contra hc
  have key : ∀ (l : List Driver) (a b : Nat) (x y : Driver), a < b → l[a]? = some x → l[b]? = some y →
      deselected s x = false → deselected s y = false → 1 < (l.filter fun m => !deselected s m).length := by
    intro l
    induction l with
    | nil => intro a b x y _ h; simp at h
    | cons m rest ih =>
      intro a b x y hab hx hy hx' hy'
      obtain ⟨b, rfl⟩ : ∃ b', b = b' + 1 := ⟨b - 1, by omega⟩
      have hyr : rest[b]? = some y := by simpa using hy
      cases a with
      | zero =>
        have hm : m = x := by simpa using hx
        have : 0 < (rest.filter fun m => !deselected s m).length :=
          List.length_pos_of_mem (List.mem_filter.2 ⟨List.mem_of_getElem? hyr, by simp [hy']⟩)
        rw [hm, List.filter_cons, if_pos (by simp [hx'])]
        simpa using this
      | succ a =>
        have := ih a b x y (by omega) (by simpa using hx) hyr hx' hy'
        rw [List.filter_cons]
        split
        · simp only [List.length_cons]; omega
        · exact this
  rcases Nat.lt_or_ge d e with h | h
  · exact hc (key _ d e _ _ h (drivers_getElem? hd) (drivers_getElem? he) h1 h2)
  · exact hc (key _ e d _ _ (by omega) (drivers_getElem? he) (drivers_getElem? hd) h2 h1)

end Sys2Proof.Machine
end

