-- ==== Sys2Proof/Laws/Memory.lean ====
section
/-! SUPPORT. The bit buffer: a read after a write, and that every write keeps the canonical form and the bound on addresses. -/

namespace Sys2Proof.Machine

theorem Memory.read_eq_zero {m : List Host.Cell} {a : Nat} (h : ∀ c ∈ m, c.1 ≠ a) : Memory.read m a = 0#8 := by
  induction m with
  | nil => rfl
  | cons c rest ih =>
    have hc : c.1 ≠ a := h c (by simp)
    simp [Memory.read, hc, ih fun c hc => h c (by simp [hc])]

theorem Memory.mem_erase {m : List Host.Cell} {a : Nat} {c : Host.Cell} :
    c ∈ Memory.erase m a ↔ c ∈ m ∧ c.1 ≠ a := by
  simp [Memory.erase]

theorem Memory.read_erase_self (m : List Host.Cell) (a : Nat) : Memory.read (Memory.erase m a) a = 0#8 :=
  Memory.read_eq_zero fun _ hc => (Memory.mem_erase.1 hc).2

theorem Memory.read_erase_other (m : List Host.Cell) {a b : Nat} (h : b ≠ a) :
    Memory.read (Memory.erase m a) b = Memory.read m b := by
  induction m with
  | nil => rfl
  | cons c rest ih =>
    by_cases hc : c.1 = a
    · have hb : c.1 ≠ b := fun e => h (e ▸ hc)
      simpa [Memory.erase, Memory.read, hc, hb, Ne.symm h] using ih
    · have hb : (c.1 != a) = true := by simpa using hc
      by_cases e : c.1 = b
      · subst e
        simp [Memory.erase, Memory.read, hc]
      · simpa [Memory.erase, Memory.read, hb, e] using ih

theorem Memory.read_insert_self {m : List Host.Cell} {a : Nat} (v : Byte) (h : ∀ c ∈ m, c.1 ≠ a) :
    Memory.read (Memory.insert m a v) a = v := by
  induction m with
  | nil => simp [Memory.insert, Memory.read]
  | cons c rest ih =>
    have hc : c.1 ≠ a := h c (by simp)
    by_cases hlt : c.1 < a
    · simp [Memory.insert, hlt, Memory.read, hc, ih fun c hc => h c (by simp [hc])]
    · simp [Memory.insert, hlt, Memory.read]

theorem Memory.read_insert_other (m : List Host.Cell) {a b : Nat} (v : Byte) (h : b ≠ a) :
    Memory.read (Memory.insert m a v) b = Memory.read m b := by
  induction m with
  | nil => simp [Memory.insert, Memory.read, Ne.symm h]
  | cons c rest ih =>
    by_cases hlt : c.1 < a
    · simp [Memory.insert, hlt, Memory.read, ih]
    · simp [Memory.insert, hlt, Memory.read, Ne.symm h]

/-- A read of the byte just written gives it. -/
theorem Memory.read_write_self (m : List Host.Cell) (a : Nat) (v : Byte) : Memory.read (Memory.write m a v) a = v := by
  unfold Memory.write
  split
  · next h => rw [Memory.read_erase_self, h]
  · exact Memory.read_insert_self v fun _ hc => (Memory.mem_erase.1 hc).2

/-- A read of any other byte gives what it gave before. -/
theorem Memory.read_write_other (m : List Host.Cell) {a b : Nat} (v : Byte) (h : b ≠ a) :
    Memory.read (Memory.write m a v) b = Memory.read m b := by
  unfold Memory.write
  split
  · exact Memory.read_erase_other m h
  · rw [Memory.read_insert_other _ v h, Memory.read_erase_other m h]

theorem Memory.mem_insert {m : List Host.Cell} {a : Nat} {v : Byte} {c : Host.Cell} :
    c ∈ Memory.insert m a v ↔ c = (a, v) ∨ c ∈ m := by
  induction m with
  | nil => simp [Memory.insert]
  | cons c' rest ih =>
    by_cases hlt : c'.1 < a
    · simp [Memory.insert, hlt, ih]; tauto
    · simp [Memory.insert, hlt]

theorem Memory.wf_erase {m : List Host.Cell} (h : Memory.wf m) (a : Nat) : Memory.wf (Memory.erase m a) :=
  ⟨h.1.filter _, fun c hc => h.2 c (Memory.mem_erase.1 hc).1⟩

theorem Memory.wf_insert {m : List Host.Cell} (h : Memory.wf m) {a : Nat} {v : Byte} (ha : ∀ c ∈ m, c.1 ≠ a)
    (hv : v ≠ 0#8) : Memory.wf (Memory.insert m a v) := by
  refine ⟨?_, fun c hc => ?_⟩
  · obtain ⟨hp, -⟩ := h
    induction m with
    | nil => simp [Memory.insert]
    | cons c rest ih =>
      have hc := List.pairwise_cons.1 hp
      have hne : c.1 ≠ a := ha c (by simp)
      by_cases hlt : c.1 < a
      · simp only [Memory.insert, hlt, if_true, List.pairwise_cons]
        refine ⟨fun c' hc' => ?_, ih (fun c' hc' => ha c' (by simp [hc'])) hc.2⟩
        rcases Memory.mem_insert.1 hc' with rfl | hm
        · exact hlt
        · exact hc.1 c' hm
      · simp only [Memory.insert, hlt, if_false, List.pairwise_cons, List.mem_cons]
        refine ⟨?_, hc⟩
        rintro c' (rfl | hm)
        · show a < c'.1
          omega
        · have := hc.1 c' hm
          show a < c'.1
          omega
  · rcases Memory.mem_insert.1 hc with rfl | hm
    · exact hv
    · exact h.2 c hm

/-- A write keeps the canonical form. -/
theorem Memory.wf_write {m : List Host.Cell} (h : Memory.wf m) (a : Nat) (v : Byte) : Memory.wf (Memory.write m a v) := by
  unfold Memory.write
  split
  · exact Memory.wf_erase h a
  · next hv => exact Memory.wf_insert (Memory.wf_erase h a) (fun _ hc => (Memory.mem_erase.1 hc).2) hv

/-- A write lists no address but the one written and those listed before. -/
theorem Memory.write_address {m : List Host.Cell} {a : Nat} {v : Byte} {c : Host.Cell} (h : c ∈ Memory.write m a v) :
    c.1 = a ∨ c ∈ m := by
  unfold Memory.write at h
  split at h
  · exact .inr (Memory.mem_erase.1 h).1
  · rcases Memory.mem_insert.1 h with rfl | hm
    · exact .inl rfl
    · exact .inr (Memory.mem_erase.1 hm).1

theorem setBitOfByte_same (v : Byte) {k : Nat} (b : Bool) (hk : k < 8) : (setBitOfByte v k b).getLsbD k = b := by
  unfold setBitOfByte
  cases b <;> simp [hk]

theorem setBitOfByte_other (v : Byte) {k j : Nat} (b : Bool) (h : j ≠ k) :
    (setBitOfByte v k b).getLsbD j = v.getLsbD j := by
  unfold setBitOfByte
  by_cases hj : j < 8
  · cases b <;> simp [hj] <;> omega
  · have hj' : 8 ≤ j := by omega
    rw [BitVec.getLsbD_of_ge _ _ hj', BitVec.getLsbD_of_ge _ _ hj']

/-- `BUF[i]` after `BUF[i] <- b` is `b`. -/
@[simp] theorem Memory.readBit_writeBit_self (m : List Host.Cell) (i : Nat) (b : Bool) :
    Memory.readBit (Memory.writeBit m i b) i = b := by
  unfold Memory.readBit Memory.writeBit
  rw [Memory.read_write_self, setBitOfByte_same _ b (Nat.mod_lt _ (by decide))]

/-- Any other bit keeps its value. -/
theorem Memory.readBit_writeBit_other (m : List Host.Cell) {i j : Nat} (b : Bool) (h : j ≠ i) :
    Memory.readBit (Memory.writeBit m i b) j = Memory.readBit m j := by
  unfold Memory.readBit Memory.writeBit
  by_cases hd : j / 8 = i / 8
  · rw [hd, Memory.read_write_self, setBitOfByte_other]
    omega
  · rw [Memory.read_write_other _ _ hd]

/-- A byte that does not hold the bit keeps its value. -/
theorem Memory.read_writeBit_other (m : List Host.Cell) {i a : Nat} (b : Bool) (h : a ≠ i / 8) :
    Memory.read (Memory.writeBit m i b) a = Memory.read m a := Memory.read_write_other _ _ h

/-- A bit write keeps the canonical form. -/
theorem Memory.wf_writeBit {m : List Host.Cell} (h : Memory.wf m) (i : Nat) (b : Bool) : Memory.wf (Memory.writeBit m i b) :=
  Memory.wf_write h _ _

/-- Every listed address lies in the `4 · nb` bytes of the buffer (R23). -/
abbrev Memory.within (m : List Host.Cell) (nb : Nat) : Prop := ∀ c ∈ m, c.1 < 4 * nb

/-- A write of an addressable bit stays in the buffer. -/
theorem Memory.within_writeBit {m : List Host.Cell} {nb i : Nat} (h : Memory.within m nb) (hi : i < 32 * nb) (b : Bool) :
    Memory.within (Memory.writeBit m i b) nb := by
  intro c hc
  rcases Memory.write_address hc with he | hm
  · omega
  · exact h c hm

/-- The memory of the reset state has the canonical form. -/
theorem Memory.wf_reset (p : Params) (ws : List Wiring) : Memory.wf (State.resetWith p ws).buf := by
  simp [State.resetWith, Memory.wf]

/-- A bit of the empty buffer is 0, as BUS_INIT leaves it (R22). -/
@[simp] theorem Memory.readBit_nil (i : Nat) : Memory.readBit [] i = false := by
  simp [Memory.readBit, Memory.read]

end Sys2Proof.Machine
end

