-- ==== Sys2Proof/Laws/Wires.lean ====
section
/-! SUPPORT. The lines and the reference chain: what the events of one bit of a commit do, what the serial phase does, and that the latches
wait for the strobe (40_iochain R124, 60_exceptions R252). -/

namespace Sys2Proof.Machine

/-- The six events of one bit on a low clock: the bit enters the chain, the clock and the data line end low (R124, R252). -/
theorem drive_bitEvents (b : Bool) {w : Wires} (h : w.clk = some false) :
    (bitEvents b).foldl Wires.drive w =
      { w with dat := some false, clk := some false, stages := shiftIn (some b) w.stages } := by
  simp [bitEvents, Wires.drive, isLow, h]

/-- The serial phase shifts each bit in, in order, and leaves enable, strobe and latches alone. -/
theorem drive_bits (bs : List Bool) {w : Wires} (h : w.clk = some false) :
    (bs.flatMap bitEvents).foldl Wires.drive w =
      { w with dat := if bs = [] then w.dat else some false
               clk := some false
               stages := bs.foldl (fun l b => shiftIn (some b) l) w.stages } := by
  induction bs generalizing w with
  | nil => simp [← h]
  | cons b rest ih =>
    rw [List.flatMap_cons, List.foldl_append, drive_bitEvents b h, ih rfl]
    simp

/-- While the enable line is active an output shows its latch (R252). -/
theorem chainOutput_of_active {w : Wires} (h : w.en = some true) (k : Nat) : chainOutput w k = .driven (w.latches.getD k none) := by
  simp [chainOutput, h]

/-- While the level of the enable line is unknown, nothing is known of an output (R24, R274). -/
theorem chainOutput_of_unknown {w : Wires} (h : w.en = none) (k : Nat) : chainOutput w k = .unknown := by
  simp [chainOutput, h]

@[simp] theorem shiftIn_length (l : Level) (stages : List Level) : (shiftIn l stages).length = stages.length := by
  simp [shiftIn]

@[simp] theorem bitsDown_length (m : List Host.Cell) (n : Nat) : (bitsDown m n).length = n := by
  induction n with
  | zero => rfl
  | succ n ih => simp [bitsDown, ih]

/-- The `k`-th bit sent is the one at index `n - 1 - k` (R65, R127). -/
theorem bitsDown_getElem? (m : List Host.Cell) (n k : Nat) (h : k < n) :
    (bitsDown m n)[k]? = some (Memory.readBit m (n - 1 - k)) := by
  induction n generalizing k with
  | zero => omega
  | succ n ih =>
    cases k with
    | zero => simp [bitsDown]
    | succ k =>
      have : n + 1 - 1 - (k + 1) = n - 1 - k := by omega
      rw [bitsDown, List.getElem?_cons_succ, ih k (by omega), this]

/-- A full chain's worth of bits pushes out everything that was there: the last bit sent stands at stage 0. -/
theorem shift_stages (bs : List Bool) (stages : List Level) :
    bs.foldl (fun l b => shiftIn (some b) l) stages = ((bs.reverse.map some) ++ stages).take stages.length := by
  induction bs generalizing stages with
  | nil => simp
  | cons b rest ih =>
    rw [List.foldl_cons, ih, shiftIn_length]
    simp only [shiftIn, List.reverse_cons, List.map_append, List.append_assoc, List.map_cons, List.map_nil,
      List.singleton_append]
    rw [List.take_append, List.take_append (l₂ := some b :: stages), List.take_take, Nat.min_eq_left (by omega)]

/-- An event that is no rising strobe leaves the latches alone (R252). -/
theorem drive_latches {w : Wires} {e : Event} (h : e ≠ .stb true) : (w.drive e).latches = w.latches := by
  cases e with
  | stb b => cases b <;> first | exact absurd rfl h | rfl
  | _ => rfl

@[simp] theorem drive_stages_length (w : Wires) (e : Event) : (w.drive e).stages.length = w.stages.length := by
  cases e with
  | clk b => simp only [Wires.drive]; split <;> simp
  | _ => rfl

@[simp] theorem resizeChain_length (n : Nat) (l : List Level) : (resizeChain n l).length = n := by
  simp [resizeChain]

/-- Everything a commit does to the wires when the clock and the strobe start low (R124, R252). -/
theorem drive_commitEvents (m : List Host.Cell) (nb : Nat) {w : Wires} (hc : w.clk = some false) (hs : w.stb = some false) :
    (commitEvents m nb).foldl Wires.drive w =
      { w with dat := if bitsDown m (32 * nb) = [] then w.dat else some false
               clk := some false
               stb := some false
               stages := (bitsDown m (32 * nb)).foldl (fun l b => shiftIn (some b) l) w.stages
               latches := (bitsDown m (32 * nb)).foldl (fun l b => shiftIn (some b) l) w.stages } := by
  unfold commitEvents
  rw [List.foldl_append, drive_bits _ hc]
  simp [Wires.drive, isLow, hs]

/-- A commit depends on the buffer only through its bits (R124). -/
theorem commitEvents_congr {m m' : List Host.Cell} (nb : Nat) (h : ∀ j, Memory.readBit m j = Memory.readBit m' j) :
    commitEvents m nb = commitEvents m' nb := by
  have hb : ∀ n, bitsDown m n = bitsDown m' n := by
    intro n
    induction n with
    | zero => rfl
    | succ n ih => rw [bitsDown, bitsDown, ih, h]
  rw [commitEvents, commitEvents, hb]

end Sys2Proof.Machine
end

