-- ==== Sys2Proof/Laws/Transmit.lean ====
section
/-! SUPPORT. Transmit (20_memory R70) said once: which of its four outcomes it has, and what the exchange on the wires does to every part of
the state. -/

namespace Sys2Proof.Machine

@[simp] theorem deselectChip_cs (d : Nat) (v : Reg20) (s : State) (e : Nat) :
    ((xfer d v (selectChip d s)).driver e).wiring = (s.driver e).wiring := by simp

/-- The buffer after an exchange: the chip-select bit was cleared and is set (R70). -/
theorem exchange_buf (d : Nat) (v : Reg20) (s : State) :
    (exchange d v s).buf =
      Memory.writeBit (Memory.writeBit s.buf (s.driver d).wiring.csBit false) (s.driver d).wiring.csBit true := by
  simp [exchange]

/-- The events of an exchange: a commit with the bit at 0, one transfer, a commit with the bit at 1 (R70, R77). -/
theorem exchange_events (d : Nat) (v : Reg20) (s : State) :
    (exchange d v s).events = s.events
      ++ commitEvents (Memory.writeBit s.buf (s.driver d).wiring.csBit false) s.nb
      ++ datagram v :: commitEvents (exchange d v s).buf s.nb := by
  simp [exchange]

/-- The lines and the chain after an exchange: the two commits drive them, the transfer does not. -/
theorem exchange_wires (d : Nat) (v : Reg20) (s : State) :
    (exchange d v s).wires =
      (commitEvents (exchange d v s).buf s.nb).foldl Wires.drive
        ((commitEvents (Memory.writeBit s.buf (s.driver d).wiring.csBit false) s.nb).foldl Wires.drive s.wires) := by
  simp [exchange]

/-- The instances after an exchange: only the chips behind them have changed. -/
theorem exchange_drivers (d : Nat) (v : Reg20) (s : State) :
    (exchange d v s).drivers = (deliver d v (nextAnswer s) (selectChip d s)).drivers := by
  simp [exchange]

theorem exchange_driver (d : Nat) (v : Reg20) (s : State) (e : Nat) :
    (exchange d v s).driver e = (deliver d v (nextAnswer s) (selectChip d s)).driver e :=
  driver_eq_of_drivers (exchange_drivers d v s) e

@[simp] theorem exchange_length (d : Nat) (v : Reg20) (s : State) :
    (exchange d v s).drivers.length = s.drivers.length := by rw [exchange_drivers]; simp

@[simp] theorem exchange_wiring (d : Nat) (v : Reg20) (s : State) (e : Nat) :
    ((exchange d v s).driver e).wiring = (s.driver e).wiring := by rw [exchange_driver]; simp

@[simp] theorem exchange_shadow (d : Nat) (v : Reg20) (s : State) (e : Nat) :
    ((exchange d v s).driver e).shadow = (s.driver e).shadow := by rw [exchange_driver]; simp

@[simp] theorem exchange_status (d : Nat) (v : Reg20) (s : State) (e : Nat) :
    ((exchange d v s).driver e).status = (s.driver e).status := by rw [exchange_driver]; simp

@[simp] theorem exchange_offCache (d : Nat) (v : Reg20) (s : State) (e : Nat) :
    ((exchange d v s).driver e).offCache = (s.driver e).offCache := by rw [exchange_driver]; simp

@[simp] theorem exchange_lthrCache (d : Nat) (v : Reg20) (s : State) (e : Nat) :
    ((exchange d v s).driver e).lthrCache = (s.driver e).lthrCache := by rw [exchange_driver]; simp

/-- Every bit of the buffer after an exchange (R70): the target's chip-select bit is 1, the others are as they were. -/
theorem exchange_readBit (d : Nat) (v : Reg20) (s : State) (i : Nat) :
    Memory.readBit (exchange d v s).buf i =
      if i = (s.driver d).wiring.csBit then true else Memory.readBit s.buf i := by
  rw [exchange_buf]
  split
  · next h => rw [h, Memory.readBit_writeBit_self]
  · next h => rw [Memory.readBit_writeBit_other _ _ h, Memory.readBit_writeBit_other _ _ h]

/-- A transmit is refused, or exchanges and then stores the status word or fails (R70). -/
theorem transmit_cases (d : Nat) (v : Reg20) (s : State) :
    (s.busState ≠ .ready ∧ transmit d v s = (refuseTransmit d v s, .notInitialized)) ∨
    (s.busState = .ready ∧ 32 * s.nb ≤ (s.driver d).wiring.csBit ∧ transmit d v s = (refuseTransmit d v s, .invalidParameter)) ∨
    (s.busState = .ready ∧ (s.driver d).wiring.csBit < 32 * s.nb ∧ nextAnswer s = .fail ∧
      transmit d v s = (exchange d v s, .transferFailure)) ∨
    (s.busState = .ready ∧ (s.driver d).wiring.csBit < 32 * s.nb ∧ ∃ r0 r1 r2, nextAnswer s = .bytes r0 r1 r2 ∧
      transmit d v s =
        (storeStatus d (capture r0 r1 r2) (wordSelector d (selectChip d s)) (exchange d v s), .ok)) := by
  unfold transmit
  by_cases h1 : s.busState = .ready
  · by_cases h2 : 32 * s.nb ≤ (s.driver d).wiring.csBit
    · simp [h1, h2]
    · cases h3 : nextAnswer s <;> simp [h1, h2] <;> omega
  · simp [h1]

/-- What every transmit leaves alone, whatever its outcome: the parameters, the bus state, the sticky bits, the response, the port. -/
theorem transmit_frame (d : Nat) (v : Reg20) (s : State) :
    (transmit d v s).1.params = s.params ∧ (transmit d v s).1.busState = s.busState ∧ (transmit d v s).1.nb = s.nb ∧
    (transmit d v s).1.halted = s.halted ∧ (transmit d v s).1.subaddrLog = s.subaddrLog ∧
    (transmit d v s).1.respStatus = s.respStatus ∧ (transmit d v s).1.respResult = s.respResult ∧
    (transmit d v s).1.port = s.port ∧ (transmit d v s).1.responses = s.responses ∧
    (transmit d v s).1.drivers.length = s.drivers.length := by
  rcases transmit_cases d v s with ⟨-, e⟩ | ⟨-, -, e⟩ | ⟨-, -, -, e⟩ | ⟨-, -, r0, r1, r2, -, e⟩ <;> simp [e]

/-- No transmit changes a shadow register, a cache or the wiring of any instance (R70). -/
theorem transmit_driver_frame (d : Nat) (v : Reg20) (s : State) (e : Nat) :
    ((transmit d v s).1.driver e).shadow = (s.driver e).shadow ∧
    ((transmit d v s).1.driver e).offCache = (s.driver e).offCache ∧
    ((transmit d v s).1.driver e).lthrCache = (s.driver e).lthrCache ∧
    ((transmit d v s).1.driver e).wiring = (s.driver e).wiring := by
  rcases transmit_cases d v s with ⟨-, h⟩ | ⟨-, -, h⟩ | ⟨-, -, -, h⟩ | ⟨-, -, r0, r1, r2, -, h⟩ <;> simp [h]

/-- A transmit keeps the buffer's canonical form and bound. -/
theorem transmit_buf_wf (d : Nat) (v : Reg20) {s : State} (hw : Memory.wf s.buf) (hb : Memory.within s.buf s.nb) :
    Memory.wf (transmit d v s).1.buf ∧ Memory.within (transmit d v s).1.buf s.nb := by
  rcases transmit_cases d v s with ⟨-, e⟩ | ⟨-, -, e⟩ | ⟨-, h, -, e⟩ | ⟨-, h, r0, r1, r2, -, e⟩
  · rw [e]; exact ⟨hw, hb⟩
  · rw [e]; exact ⟨hw, hb⟩
  all_goals
    rw [e]
    show Memory.wf (exchange d v s).buf ∧ Memory.within (exchange d v s).buf s.nb
    rw [exchange_buf]
    exact ⟨Memory.wf_writeBit (Memory.wf_writeBit hw _ _) _ _,
      Memory.within_writeBit (Memory.within_writeBit hb h _) h _⟩

/-- A second transmit runs only after a first that returned OK (R150). -/
theorem thenTransmit_eq (d : Nat) (v : Reg20) (r : State × Status) :
    thenTransmit d v r = if r.2 = .ok then transmit d v r.1 else r := by
  obtain ⟨s, st⟩ := r
  cases st <;> rfl

end Sys2Proof.Machine
end

