-- ==== Sys2Proof/Laws/Exec.lean ====
section
/-! SUPPORT. The commands said once: what each encoding command packs into its driver before it transmits, and the one form every
transmitting command has: pack, then one transmit or two. -/

namespace Sys2Proof.Machine

open Sys2Proof.Safety

@[simp] theorem raise_eq (st : Status) (s : State) : raise st s = .next (respond st 0#32 s) := rfl

@[simp] theorem answer_eq (v : Nat) (s : State) : answer v s = .next (respond .ok (BitVec.ofNat 32 v) s) := rfl

@[simp] theorem conclude_eq (r : State × Status) : conclude r = .next (respond r.2 0#32 r.1) := rfl

/-- A response in the terms of the statements: the number of the status, and nothing else changed. -/
theorem respond_eq_replied (st : Status) (r : BitVec 32) (s : State) : respond st r s = replied s st.code r := rfl

/-- A response is one response. -/
theorem replied_respond (st : Status) (r : BitVec 32) (s : State) : Replied s (respond st r s) st.code r := ⟨rfl, rfl, rfl⟩

/-- Put an instance in place of instance `d`. -/
def setDriver (d : Nat) (m : Driver) (s : State) : State := s.modifyDriver d fun _ => m

theorem modifyDriver_eq_setDriver (s : State) (d : Nat) (f : Driver → Driver) :
    s.modifyDriver d f = setDriver d (f (s.driver d)) s := by
  unfold setDriver State.modifyDriver
  congr 1
  apply List.ext_getElem?
  intro k
  rw [List.getElem?_modify, List.getElem?_modify]
  by_cases hk : d = k
  · subst hk
    by_cases hl : d < s.drivers.length
    · simp [State.driver, List.getD_eq_getElem?_getD, hl]
    · simp [List.getElem?_eq_none (Nat.le_of_not_lt hl)]
  · simp [hk]

@[simp] theorem setDriver_length (d : Nat) (m : Driver) (s : State) : (setDriver d m s).drivers.length = s.drivers.length := by
  simp [setDriver]

theorem setDriver_self {d : Nat} (m : Driver) {s : State} (h : d < s.drivers.length) : (setDriver d m s).driver d = m :=
  driver_modifyDriver_self _ h

theorem setDriver_other {d e : Nat} (m : Driver) (s : State) (h : e ≠ d) : (setDriver d m s).driver e = s.driver e :=
  driver_modifyDriver_other s _ h

theorem setDriver_setDriver (d : Nat) (m m' : Driver) (s : State) : setDriver d m (setDriver d m' s) = setDriver d m s := by
  unfold setDriver State.modifyDriver
  congr 1
  apply List.ext_getElem?
  intro k
  simp only [List.getElem?_modify]
  by_cases hk : d = k <;> cases s.drivers[k]? <;> simp [hk]

/-- Everything of the state but the instances is what it was. -/
theorem setDriver_rest (d : Nat) (m : Driver) (s : State) : { setDriver d m s with drivers := s.drivers } = s := rfl

/-- What packing may change of an instance (41_encoders R150, 10_state R37): the shadow registers and caches the command's rule names, and in
them only the bits some command writes. -/
structure Packed (i : Instr) (d : Nat) (m m' : Driver) : Prop where
  wiring : m'.wiring = m.wiring
  status : m'.status = m.status
  chip : m'.chip = m.chip
  reg : ∀ r, writesReg i d r = false → getReg m'.shadow r = getReg m.shadow r
  off : writesOffCache i d = false → m'.offCache = m.offCache
  lthr : writesLthrCache i d = false → m'.lthrCache = m.lthrCache
  masked : ∀ r, getReg m'.shadow r &&& ~~~(writableMask r) = getReg m.shadow r &&& ~~~(writableMask r)

/-- The instance an encoding command leaves in place before it transmits, for each command (R152, R155, R157 to R162, R200). -/
def packed (i : Instr) (m : Driver) : Driver :=
  match i with
  | .mdSetcur _ mA =>
    let drvconf := setf m.shadow.drvconf layout.vsense (currentScale m.wiring.rsense mA).1
    let sgcsconf := setf m.shadow.sgcsconf layout.cs (currentScale m.wiring.rsense mA).2
    { m with shadow := setReg (setReg m.shadow .drvconf drvconf) .sgcsconf sgcsconf }
  | .mdSetmres _ n => { m with shadow := setReg m.shadow .drvctrl (setf m.shadow.drvctrl layout.mres (mresIndex n)) }
  | .mdChopConst _ off blank fastDecay sineOffset useComparator =>
    { m with
      offCache := BitVec.ofNat 4 (offCode off)
      shadow := setReg m.shadow .chopconf (packChopConst m.shadow.chopconf off blank fastDecay sineOffset useComparator) }
  | .mdChopSpread _ off blank hystStart hystEnd hystDecrement =>
    { m with
      offCache := BitVec.ofNat 4 (offCode off)
      shadow := setReg m.shadow .chopconf (packChopSpread m.shadow.chopconf off blank hystStart hystEnd hystDecrement) }
  | .mdSgt _ t filterEnabled =>
    let sgcsconf := setf (setf m.shadow.sgcsconf layout.sfilt (bitOf filterEnabled)) layout.sgt (sgtCode t)
    { m with shadow := setReg m.shadow .sgcsconf sgcsconf }
  | .mdCoolcfg _ lowerThr hysteresis decStep incStep lowerLimit =>
    { m with
      lthrCache := BitVec.ofNat 4 (coolCode lowerThr)
      shadow := setReg m.shadow .smarten (packCoolcfg m.shadow.smarten lowerThr hysteresis decStep incStep lowerLimit) }
  | .mdCoolen _ flag =>
    { m with shadow := setReg m.shadow .smarten (setf m.shadow.smarten layout.semin (if flag then m.lthrCache.toNat else 0)) }
  | .mdEnable _ flag =>
    { m with shadow := setReg m.shadow .chopconf (setf m.shadow.chopconf layout.toff (if flag then m.offCache.toNat else 0)) }
  | .mdRdstat _ selector => { m with shadow := setReg m.shadow .drvconf (setf m.shadow.drvconf layout.rdsel selector) }
  | _ => m

/-- A command that sends one register: pack the instance, send the register (R150). -/
theorem exec_oneShot {i : Instr} {d : Nat} {r : Reg} {s : State} (hi : oneShot i = some (d, r)) (hd : d < s.drivers.length) :
    exec i s = conclude (transmit d (getReg (packed i (s.driver d)).shadow r) (setDriver d (packed i (s.driver d)) s)) := by
  cases i <;> simp only [oneShot, Option.some.injEq, Prod.mk.injEq, reduceCtorEq] at hi
  all_goals
    obtain ⟨rfl, rfl⟩ := hi
    simp only [exec, execMdSetmres, execMdChopConst, execMdChopSpread, execMdSgt, execMdCoolcfg, execMdCoolen, execMdEnable,
      sendReg, writeShadow, writeOffCache, writeLthrCache]
    rw [onDriver_of_lt _ hd]
    simp only [modifyDriver_eq_setDriver, setDriver_setDriver, setDriver_self _ hd]
    rfl

/-- MD_SETCUR: pack both registers, send DriverConfig, then StallGuardCurrent (R152). -/
theorem exec_setcur {d mA : Nat} {s : State} (hd : d < s.drivers.length) :
    exec (.mdSetcur d mA) s = conclude
      (thenTransmit d (packed (.mdSetcur d mA) (s.driver d)).shadow.sgcsconf
        (transmit d (packed (.mdSetcur d mA) (s.driver d)).shadow.drvconf
          (setDriver d (packed (.mdSetcur d mA) (s.driver d)) s))) := by
  simp only [exec, execMdSetcur, writeShadow]
  rw [onDriver_of_lt _ hd]
  simp only [modifyDriver_eq_setDriver, setDriver_setDriver, setDriver_self _ hd]
  rfl

/-- MD_RDSTAT with a legal selector: pack RDSEL, send DriverConfig once, or twice if the selector changes (R200). -/
theorem exec_rdstat {d selector : Nat} {s : State} (hd : d < s.drivers.length) (hs : selector ≠ 3) :
    exec (.mdRdstat d selector) s = conclude
      (if selector ≠ getf (s.driver d).shadow.drvconf layout.rdsel then
        thenTransmit d (packed (.mdRdstat d selector) (s.driver d)).shadow.drvconf
          (transmit d (packed (.mdRdstat d selector) (s.driver d)).shadow.drvconf
            (setDriver d (packed (.mdRdstat d selector) (s.driver d)) s))
      else transmit d (packed (.mdRdstat d selector) (s.driver d)).shadow.drvconf
        (setDriver d (packed (.mdRdstat d selector) (s.driver d)) s)) := by
  simp only [exec, execMdRdstat, sendReg, writeShadow]
  rw [onDriver_of_lt _ hd, if_neg hs]
  simp only [modifyDriver_eq_setDriver]
  rfl

/-- MD_RDSTAT with selector 3 (R200). -/
theorem exec_rdstat_three {d : Nat} {s : State} (hd : d < s.drivers.length) :
    exec (.mdRdstat d 3) s = raise .invalidParameter s := by
  simp only [exec, execMdRdstat]
  rw [onDriver_of_lt _ hd, if_pos trivial]

/-- Every transmitting command on an instance that exists, but MD_RDSTAT with selector 3: pack the instance, then one transmit or two, each of a
register the command writes, as packed. -/
theorem exec_sending {i : Instr} {d : Nat} {s : State} (ht : i.transmits = true) (hi : i.target = some d)
    (hd : d < s.drivers.length) (h3 : i ≠ .mdRdstat d 3) :
    ∃ r r', writesReg i d r = true ∧ writesReg i d r' = true ∧
      (exec i s = conclude (transmit d (getReg (packed i (s.driver d)).shadow r) (setDriver d (packed i (s.driver d)) s)) ∨
       exec i s = conclude (thenTransmit d (getReg (packed i (s.driver d)).shadow r')
          (transmit d (getReg (packed i (s.driver d)).shadow r) (setDriver d (packed i (s.driver d)) s)))) := by
  have one : ∀ r, oneShot i = some (d, r) → writesReg i d r = true → ∃ r r', writesReg i d r = true ∧ writesReg i d r' = true ∧
      (exec i s = conclude (transmit d (getReg (packed i (s.driver d)).shadow r) (setDriver d (packed i (s.driver d)) s)) ∨
       exec i s = conclude (thenTransmit d (getReg (packed i (s.driver d)).shadow r')
          (transmit d (getReg (packed i (s.driver d)).shadow r) (setDriver d (packed i (s.driver d)) s)))) :=
    fun r h hw => ⟨r, r, hw, hw, .inl (exec_oneShot h hd)⟩
  cases i <;> simp only [Instr.transmits, Bool.false_eq_true] at ht <;>
    simp only [Instr.target, Option.some.injEq] at hi <;> subst hi
  case mdSetcur e mA => exact ⟨.drvconf, .sgcsconf, by simp [writesReg], by simp [writesReg], .inr (exec_setcur hd)⟩
  case mdRdstat e sel =>
    have hs : sel ≠ 3 := fun h => h3 (by rw [h])
    refine ⟨.drvconf, .drvconf, by simp [writesReg], by simp [writesReg], ?_⟩
    rw [exec_rdstat hd hs]
    by_cases h : sel ≠ getf (s.driver e).shadow.drvconf layout.rdsel
    · exact .inr (by rw [if_pos h]; rfl)
    · exact .inl (by rw [if_neg h]; rfl)
  all_goals exact one _ rfl (by simp [writesReg, oneShot])

/-- Packing changes only what the command's rule names. -/
theorem packed_spec {i : Instr} {d : Nat} (hi : i.target = some d) (m : Driver) : Packed i d m (packed i m) := by
  have hm : ∀ (r : Reg) (f : Field) (v : Nat) (x : Reg20), fieldMask f &&& ~~~(writableMask r) = 0#20 →
      setf x f v &&& ~~~(writableMask r) = x &&& ~~~(writableMask r) := fun r f v x h => setf_outside x f v _ h
  cases i <;> simp only [Instr.target, Option.some.injEq, reduceCtorEq] at hi <;> (try subst hi)
  case mdSetcur e mA =>
    refine ⟨rfl, rfl, rfl, ?_, fun _ => rfl, fun _ => rfl, ?_⟩ <;> intro r <;> cases r
    all_goals first
      | (simp [writesReg, packed, setReg, getReg]; done)
      | (simp only [packed, setReg, getReg]; first | rfl | exact hm _ _ _ _ (by decide))
  case mdSetmres e n =>
    refine ⟨rfl, rfl, rfl, ?_, fun _ => rfl, fun _ => rfl, ?_⟩ <;> intro r <;> cases r
    all_goals first
      | (simp [writesReg, oneShot, packed, setReg, getReg]; done)
      | (simp only [packed, setReg, getReg]; first | rfl | exact hm _ _ _ _ (by decide))
  case mdChopConst e off blank fastDecay sineOffset useComparator =>
    refine ⟨rfl, rfl, rfl, ?_, ?_, fun _ => rfl, ?_⟩
    · intro r; cases r <;> simp [writesReg, oneShot, packed, setReg, getReg]
    · simp [writesOffCache]
    · intro r
      cases r <;> simp only [packed, setReg, getReg, packChopConst]
      rw [hm .chopconf layout.toff _ _ (by decide), hm .chopconf layout.hstrt _ _ (by decide),
        hm .chopconf layout.hend _ _ (by decide), hm .chopconf layout.tfd3 _ _ (by decide),
        hm .chopconf layout.cdis _ _ (by decide), hm .chopconf layout.chm _ _ (by decide),
        hm .chopconf layout.tbl _ _ (by decide)]
  case mdChopSpread e off blank hystStart hystEnd hystDecrement =>
    refine ⟨rfl, rfl, rfl, ?_, ?_, fun _ => rfl, ?_⟩
    · intro r; cases r <;> simp [writesReg, oneShot, packed, setReg, getReg]
    · simp [writesOffCache]
    · intro r
      cases r <;> simp only [packed, setReg, getReg, packChopSpread]
      rw [hm .chopconf layout.toff _ _ (by decide), hm .chopconf layout.hstrt _ _ (by decide),
        hm .chopconf layout.hend _ _ (by decide), hm .chopconf layout.hdec _ _ (by decide),
        hm .chopconf layout.chm _ _ (by decide), hm .chopconf layout.tbl _ _ (by decide)]
  case mdSgt e t filterEnabled =>
    refine ⟨rfl, rfl, rfl, ?_, fun _ => rfl, fun _ => rfl, ?_⟩ <;> intro r <;> cases r
    all_goals first
      | (simp [writesReg, oneShot, packed, setReg, getReg]; done)
      | (simp only [packed, setReg, getReg]; first | rfl | rw [hm .sgcsconf layout.sgt _ _ (by decide), hm .sgcsconf layout.sfilt _ _ (by decide)])
  case mdCoolcfg e lowerThr hysteresis decStep incStep lowerLimit =>
    refine ⟨rfl, rfl, rfl, ?_, fun _ => rfl, ?_, ?_⟩
    · intro r; cases r <;> simp [writesReg, oneShot, packed, setReg, getReg]
    · simp [writesLthrCache]
    · intro r
      cases r <;> simp only [packed, setReg, getReg, packCoolcfg]
      rw [hm .smarten layout.semin _ _ (by decide), hm .smarten layout.seup _ _ (by decide),
        hm .smarten layout.semax _ _ (by decide), hm .smarten layout.sedn _ _ (by decide),
        hm .smarten layout.seimin _ _ (by decide)]
  case mdCoolen e flag =>
    refine ⟨rfl, rfl, rfl, ?_, fun _ => rfl, fun _ => rfl, ?_⟩ <;> intro r <;> cases r
    all_goals first
      | (simp [writesReg, oneShot, packed, setReg, getReg]; done)
      | (simp only [packed, setReg, getReg]; first | rfl | exact hm _ _ _ _ (by decide))
  case mdEnable e flag =>
    refine ⟨rfl, rfl, rfl, ?_, fun _ => rfl, fun _ => rfl, ?_⟩ <;> intro r <;> cases r
    all_goals first
      | (simp [writesReg, oneShot, packed, setReg, getReg]; done)
      | (simp only [packed, setReg, getReg]; first | rfl | exact hm _ _ _ _ (by decide))
  case mdRdstat e sel =>
    refine ⟨rfl, rfl, rfl, ?_, fun _ => rfl, fun _ => rfl, ?_⟩ <;> intro r <;> cases r
    all_goals first
      | (simp [writesReg, packed, setReg, getReg]; done)
      | (simp only [packed, setReg, getReg]; first | rfl | exact hm _ _ _ _ (by decide))
  all_goals exact ⟨rfl, rfl, rfl, fun _ _ => rfl, fun _ => rfl, fun _ => rfl, fun _ => rfl⟩

/-- MD_GETCUR and the accessors write nothing but the response (R153, R201). -/
theorem exec_readsOnly {i : Instr} {d : Nat} {s : State} (hr : i.readsOnly = true) (hi : i.target = some d)
    (hd : d < s.drivers.length) : ∃ v, exec i s = answer v s := by
  cases i <;> simp only [Instr.readsOnly, Instr.target, Instr.transmits, Option.isSome_some, Option.isSome_none, Bool.not_true,
    Bool.not_false, Bool.and_true, Bool.and_false, Bool.false_eq_true] at hr <;>
    simp only [Instr.target, Option.some.injEq] at hi <;> subst hi
  all_goals
    simp only [exec, execMdGetcur, execMdOtpw, execMdOt, execMdS2ga, execMdS2gb, execMdOla, execMdOlb, execMdStst,
      execMdSgreached, execMdSgval, execMdMstep, execMdActcur, statusBit]
    rw [onDriver_of_lt _ hd]
    exact ⟨_, rfl⟩

/-- An MD command whose target names no instance (R244). -/
theorem exec_absent {i : Instr} {d : Nat} {s : State} (hi : i.target = some d) (hd : s.drivers.length ≤ d) :
    exec i s = answer 0 { s with subaddrLog := true } := by
  cases i <;> simp only [Instr.target, Option.some.injEq, reduceCtorEq] at hi <;> subst hi
  all_goals exact onDriver_of_ge _ hd

/-- Everything an MD command can do: log an absent instance, answer a read, refuse selector 3, or pack an instance and transmit. -/
theorem exec_md_cases {i : Instr} {d : Nat} {s t : State} (hi : i.target = some d) (h : exec i s = .next t) :
    (s.drivers.length ≤ d ∧ t = respond .ok 0#32 { s with subaddrLog := true }) ∨
    (d < s.drivers.length ∧ i.transmits = false ∧ ∃ v, t = respond .ok v s) ∨
    (d < s.drivers.length ∧ i = .mdRdstat d 3 ∧ t = respond .invalidParameter 0#32 s) ∨
    (d < s.drivers.length ∧ i.transmits = true ∧ i ≠ .mdRdstat d 3 ∧
      ∃ r r' sent, writesReg i d r = true ∧ writesReg i d r' = true ∧ t = respond sent.2 0#32 sent.1 ∧
        (sent = transmit d (getReg (packed i (s.driver d)).shadow r) (setDriver d (packed i (s.driver d)) s) ∨
         sent = thenTransmit d (getReg (packed i (s.driver d)).shadow r')
          (transmit d (getReg (packed i (s.driver d)).shadow r) (setDriver d (packed i (s.driver d)) s)))) := by
  by_cases hd : d < s.drivers.length
  · by_cases ht : i.transmits = true
    · by_cases h3 : i = .mdRdstat d 3
      · subst h3
        rw [exec_rdstat_three hd, raise_eq, Host.Outcome.next.injEq] at h
        exact .inr (.inr (.inl ⟨hd, rfl, h.symm⟩))
      · obtain ⟨r, r', hr, hr', e | e⟩ := exec_sending ht hi hd h3 <;> rw [e, conclude_eq, Host.Outcome.next.injEq] at h
        · exact .inr (.inr (.inr ⟨hd, ht, h3, r, r', _, hr, hr', h.symm, .inl rfl⟩))
        · exact .inr (.inr (.inr ⟨hd, ht, h3, r, r', _, hr, hr', h.symm, .inr rfl⟩))
    · have ht : i.transmits = false := by simpa using ht
      obtain ⟨v, e⟩ := exec_readsOnly (i := i) (by simp [Instr.readsOnly, hi, ht]) hi hd
      rw [e, answer_eq, Host.Outcome.next.injEq] at h
      exact .inr (.inl ⟨hd, ht, _, h.symm⟩)
  · rw [exec_absent hi (by omega), answer_eq, Host.Outcome.next.injEq] at h
    exact .inl ⟨by omega, h.symm⟩

/-- A property of states that responses, the sub-address log, packing and transmits of shadow registers keep is kept by every MD command. -/
theorem exec_md_keeps {P : State → Prop} {i : Instr} {d : Nat} {s t : State} (hi : i.target = some d)
    (h : exec i s = .next t) (hs : P s) (hok : ∀ r u, P u → P (respond .ok r u)) (herr : ∀ st u, P u → P (respond st 0#32 u))
    (hlog : ∀ u, P u → P { u with subaddrLog := true })
    (hpack : d < s.drivers.length → P (setDriver d (packed i (s.driver d)) s))
    (hsend : ∀ r u, d < u.drivers.length → P u → P (transmit d (getReg (u.driver d).shadow r) u).1) : P t := by
  rcases exec_md_cases hi h with ⟨-, rfl⟩ | ⟨-, -, v, rfl⟩ | ⟨-, -, rfl⟩ | ⟨hd, -, -, r, r', sent, -, -, rfl, hsent⟩
  · exact hok _ _ (hlog _ hs)
  · exact hok _ _ hs
  · exact herr _ _ hs
  · apply herr
    have hv : ∀ r, getReg (packed i (s.driver d)).shadow r =
        getReg ((setDriver d (packed i (s.driver d)) s).driver d).shadow r := fun r => by rw [setDriver_self _ hd]
    have hd' : d < (setDriver d (packed i (s.driver d)) s).drivers.length := by rwa [setDriver_length]
    have h1 := hsend r _ hd' (hpack hd)
    rcases hsent with rfl | rfl
    · rwa [hv]
    · rw [thenTransmit_eq, hv, hv]
      split
      · have hf := transmit_frame d (getReg ((setDriver d (packed i (s.driver d)) s).driver d).shadow r)
          (setDriver d (packed i (s.driver d)) s)
        have hg := transmit_driver_frame d (getReg ((setDriver d (packed i (s.driver d)) s).driver d).shadow r)
          (setDriver d (packed i (s.driver d)) s) d
        have h2 := hsend r' _ (by rw [hf.2.2.2.2.2.2.2.2.2]; exact hd') h1
        rwa [hg.1] at h2
      · exact h1

/-- What every BUS command leaves alone, and that it ends in a response unless it halts (R120, R92, R246). -/
theorem exec_bus_frame {i : Instr} {s t : State} (hi : i.target = none) (h : exec i s = .next t) :
    t.drivers = s.drivers ∧ t.params = s.params ∧ t.port = s.port ∧ t.subaddrLog = s.subaddrLog ∧
    ((∃ nb, i = .busInit nb ∧ s.params.maxBoards < nb ∧ s.busState = .uninitialized ∧ t = { s with halted := true }) ∨
     (t.halted = s.halted ∧ ∃ u st v, t = respond st v u ∧ (st = .ok ∨ v = 0#32) ∧
        u.respStatus = s.respStatus ∧ u.respResult = s.respResult ∧ u.responses = s.responses)) := by
  by_cases hn : ∃ nb, i = .busInit nb ∧ s.params.maxBoards < nb ∧ s.busState ≠ .ready ∧ ¬ nb < 1
  · obtain ⟨nb, rfl, h1, h2, h3⟩ := hn
    simp only [exec, execBusInit, if_neg h3, if_neg h2, if_pos h1, halt, Host.Outcome.next.injEq] at h
    have hb : s.busState = .uninitialized := by cases hs : s.busState <;> simp_all
    subst h
    exact ⟨rfl, rfl, rfl, rfl, .inl ⟨nb, rfl, h1, hb, rfl⟩⟩
  · cases i <;> simp only [Instr.target, reduceCtorEq] at hi <;>
      simp only [exec, execBusInit, execBusSetbit, execBusClearbit, execBusCommit, execBusTeardown, execBusIndex] at h <;>
      split_ifs at h <;> simp only [raise_eq, answer_eq, halt, Host.Outcome.next.injEq] at h <;> subst h
    all_goals first
      | exact ⟨rfl, rfl, rfl, rfl, .inr ⟨rfl, _, _, _, rfl, .inl rfl, rfl, rfl, rfl⟩⟩
      | exact ⟨rfl, rfl, rfl, rfl, .inr ⟨rfl, _, _, _, rfl, .inr rfl, rfl, rfl, rfl⟩⟩
      | exact absurd ⟨_, rfl, by assumption, by assumption, by assumption⟩ hn

/-- A transmitting command on an instance that exists always completes, and leaves that instance's shadow registers and caches as packed,
whatever its transmits return (R150). -/
theorem exec_packs {i : Instr} {d : Nat} {s : State} (hd : d < s.drivers.length) (ht : i.transmits = true)
    (hi : i.target = some d) (h3 : i ≠ .mdRdstat d 3) :
    ∃ t, exec i s = .next t ∧ t.drivers.length = s.drivers.length ∧
      (t.driver d).shadow = (packed i (s.driver d)).shadow ∧ (t.driver d).offCache = (packed i (s.driver d)).offCache ∧
      (t.driver d).lthrCache = (packed i (s.driver d)).lthrCache ∧ (t.driver d).wiring = (s.driver d).wiring := by
  have once : ∀ v u, u.drivers.length = s.drivers.length → (u.driver d).shadow = (packed i (s.driver d)).shadow →
      (u.driver d).offCache = (packed i (s.driver d)).offCache → (u.driver d).lthrCache = (packed i (s.driver d)).lthrCache →
      (u.driver d).wiring = (s.driver d).wiring →
      (transmit d v u).1.drivers.length = s.drivers.length ∧
      ((transmit d v u).1.driver d).shadow = (packed i (s.driver d)).shadow ∧
      ((transmit d v u).1.driver d).offCache = (packed i (s.driver d)).offCache ∧
      ((transmit d v u).1.driver d).lthrCache = (packed i (s.driver d)).lthrCache ∧
      ((transmit d v u).1.driver d).wiring = (s.driver d).wiring := by
    intro v u h1 h2 h3 h4 h5
    have hf := transmit_driver_frame d v u d
    have hg := transmit_frame d v u
    exact ⟨hg.2.2.2.2.2.2.2.2.2.trans h1, hf.1.trans h2, hf.2.1.trans h3, hf.2.2.1.trans h4, hf.2.2.2.trans h5⟩
  have h0 := setDriver_self (packed i (s.driver d)) hd
  obtain ⟨r, r', -, -, h | h⟩ := exec_sending ht hi hd h3 <;> rw [h]
  · exact ⟨_, rfl, once _ _ (by simp) (by rw [h0]) (by rw [h0]) (by rw [h0]) (by rw [h0]; exact (packed_spec hi _).wiring)⟩
  · have h1 := once (getReg (packed i (s.driver d)).shadow r) (setDriver d (packed i (s.driver d)) s) (by simp)
      (by rw [h0]) (by rw [h0]) (by rw [h0]) (by rw [h0]; exact (packed_spec hi _).wiring)
    refine ⟨_, rfl, ?_⟩
    rw [thenTransmit_eq]
    split
    · exact once _ _ h1.1 h1.2.1 h1.2.2.1 h1.2.2.2.1 h1.2.2.2.2
    · exact h1

/-- Writing a bit is a buffer with that bit replaced. -/
theorem withBit_writeBit (m : List Host.Cell) (i : Nat) (b : Bool) : WithBit m (Memory.writeBit m i b) i b := by
  intro j
  by_cases h : j = i
  · subst h; simp
  · rw [if_neg h, Memory.readBit_writeBit_other _ _ h]

/-- The events and the buffer of an exchange, against any buffer `b0` that agrees with the current one outside the chip-select bit: a second
transmit of the same command sends the same two commits as the first (R70, R77). -/
theorem exchange_spec {b0 m m' : List Host.Cell} {d c : Nat} {v : Reg20} {u : State} (hc : (u.driver d).wiring.csBit = c)
    (hm : WithBit b0 m c false) (hm' : WithBit b0 m' c true)
    (hu : ∀ j, j ≠ c → Memory.readBit u.buf j = Memory.readBit b0 j) :
    (exchange d v u).events = u.events ++ exchangeEvents m m' u.nb v ∧
    ∀ j, Memory.readBit (exchange d v u).buf j = Memory.readBit m' j := by
  subst hc
  have h1 : ∀ j, Memory.readBit (Memory.writeBit u.buf (u.driver d).wiring.csBit false) j = Memory.readBit m j := by
    intro j
    rw [withBit_writeBit _ _ _ j, hm j]
    split
    · rfl
    · next h => exact hu j h
  have h2 : ∀ j, Memory.readBit (exchange d v u).buf j = Memory.readBit m' j := by
    intro j
    rw [exchange_readBit, hm' j]
    split
    · rfl
    · next h => exact hu j h
  refine ⟨?_, h2⟩
  rw [exchange_events, datagram_eq, commitEvents_congr _ h1, commitEvents_congr _ h2, exchangeEvents]
  simp only [List.append_assoc, List.singleton_append]

/-- Everything a transmit that is not refused does, whichever way the transfer goes (R70). -/
theorem transmit_spec {b0 m m' : List Host.Cell} {d c : Nat} {u : State} (v : Reg20) (hd : d < u.drivers.length)
    (hc : (u.driver d).wiring.csBit = c) (hr : u.busState = .ready) (hlt : c < 32 * u.nb) (hm : WithBit b0 m c false)
    (hm' : WithBit b0 m' c true) (hu : ∀ j, j ≠ c → Memory.readBit u.buf j = Memory.readBit b0 j) :
    ∃ t st, transmit d v u = (t, st) ∧ (t.driver d).shadow = (u.driver d).shadow ∧
      t.events = u.events ++ exchangeEvents m m' u.nb v ∧ (∀ j, Memory.readBit t.buf j = Memory.readBit m' j) ∧
      t.inbound = u.inbound.tail ∧ t.xferCount = u.xferCount + 1 ∧ t.responses = u.responses ∧
      (d < t.drivers.length ∧ (t.driver d).wiring.csBit = c ∧ t.busState = .ready ∧ t.nb = u.nb) ∧
      (nextAnswer u = .fail → st = .transferFailure ∧ (t.driver d).status = (u.driver d).status) ∧
      (∀ r0 r1 r2, nextAnswer u = .bytes r0 r1 r2 → st = .ok ∧ (t.driver d).status = (r0 ++ r1 ++ r2).extractLsb 23 4) := by
  have hx := exchange_spec (v := v) hc hm hm' hu
  have hf := transmit_frame d v u
  have hg := transmit_driver_frame d v u d
  refine ⟨(transmit d v u).1, (transmit d v u).2, rfl, hg.1, ?_⟩
  have hgood : d < (transmit d v u).1.drivers.length ∧ ((transmit d v u).1.driver d).wiring.csBit = c ∧
      (transmit d v u).1.busState = .ready ∧ (transmit d v u).1.nb = u.nb :=
    ⟨by rw [hf.2.2.2.2.2.2.2.2.2]; exact hd, by rw [hg.2.2.2, hc], by rw [hf.2.1, hr], hf.2.2.1⟩
  rw [hf.2.2.2.2.2.2.2.2.1]
  rcases transmit_cases d v u with ⟨h, -⟩ | ⟨-, h, -⟩ | ⟨-, -, h, e⟩ | ⟨-, -, q0, q1, q2, h, e⟩
  · exact absurd hr h
  · omega
  · rw [e] at hgood ⊢
    rw [h]
    exact ⟨hx.1, hx.2, rfl, rfl, rfl, hgood, fun _ => ⟨rfl, by simp⟩, nofun⟩
  · rw [e] at hgood ⊢
    rw [h]
    refine ⟨hx.1, hx.2, rfl, rfl, rfl, hgood, nofun, ?_⟩
    intro r0 r1 r2 hh
    injection hh with a b c'
    subst a b c'
    refine ⟨rfl, ?_⟩
    rw [storeStatus_driver_self _ _ _ _ (by simpa using hd)]
    exact capture_eq _ _ _

/-- The commands that send one register transmit, and are not MD_RDSTAT. -/
theorem oneShot_spec {i : Instr} {d : Nat} {r : Reg} (h : oneShot i = some (d, r)) :
    i.target = some d ∧ i.transmits = true ∧ i ≠ .mdRdstat d 3 := by
  cases i <;> simp [oneShot, Instr.target, Instr.transmits] at h ⊢ <;> exact h.1

end Sys2Proof.Machine
end

