-- ==== Sys2Proof/Laws/Chips.lean ====
section
/-! SUPPORT. What a transmit that is not refused does to the chips behind it and to the outputs of the chain, said once for each case of the
host's chip-select duty (20_memory R70, R80, 10_state R42, 41_encoders R164, 70 R279), and the packed states it starts from. -/

namespace Sys2Proof.Machine

open Sys2Proof.Safety

/-! ## What packing leaves for the transmit -/

/-- Packing keeps the signature of every register (R25, R37). -/
theorem packed_signature (i : Instr) (m : Driver) (r : Reg) :
    (getReg (packed i m).shadow r).extractLsb 19 17 = (getReg m.shadow r).extractLsb 19 17 := by
  cases hi : i.target with
  | none => cases i <;> simp_all [Instr.target, packed]
  | some d =>
    have hm := congrArg (fun x => x.extractLsb 19 17) ((packed_spec hi m).masked r)
    have key : ∀ x : Reg20, (x &&& ~~~(writableMask r)).extractLsb 19 17 = x.extractLsb 19 17 := by
      intro x
      apply BitVec.eq_of_getLsbD_eq
      intro k hk
      have hw : (writableMask r).getLsbD (17 + k) = false := by
        have : k < 3 := by omega
        interval_cases k <;> cases r <;> decide
      have hl : 17 + k < 20 := by omega
      rw [BitVec.getLsbD_extractLsb, BitVec.getLsbD_extractLsb, BitVec.getLsbD_and, BitVec.getLsbD_not, hw]
      simp [hl]
    simpa only [key] using hm

/-- A value with a register's signature is a datagram for that register (R63, R99). -/
theorem regOfDatagram_of_signature {v : Reg20} {r : Reg} (h : (v.extractLsb 19 17).toNat = signature r) :
    regOfDatagram v = some r := by
  have hf : getf v layout.sig = signature r := by rw [← h]; exact getf_eq_extractLsb _ _ _
  unfold regOfDatagram
  rw [hf]
  cases r <;> rfl

/-- What an encoding command sends names the register it is meant for (R63). -/
theorem regOfDatagram_packed (i : Instr) {s : State} {d : Nat} (hd : d < s.drivers.length) (hs : SignatureInv s) (r : Reg) :
    regOfDatagram (getReg (packed i (s.driver d)).shadow r) = some r :=
  regOfDatagram_of_signature (by rw [packed_signature]; exact hs.1 d r hd)

theorem setDriver_packed_wiring {i : Instr} {d : Nat} (hi : i.target = some d) (s : State) (e : Nat) :
    ((setDriver d (packed i (s.driver d)) s).driver e).wiring = (s.driver e).wiring := by
  rw [← modifyDriver_eq_setDriver s d (packed i)]
  exact driver_modifyDriver_keeps s d e Driver.wiring fun m => (packed_spec hi m).wiring

theorem canSend_packed {i : Instr} {d : Nat} {s : State} (hi : i.target = some d) (h : CanSend s d) :
    CanSend (setDriver d (packed i (s.driver d)) s) d :=
  ⟨by simpa using h.1, h.2.1, by rw [setDriver_packed_wiring hi]; exact h.2.2⟩

theorem soleSelect_packed {i : Instr} {d : Nat} {s : State} (hi : i.target = some d) (h : SoleSelect s d) :
    SoleSelect (setDriver d (packed i (s.driver d)) s) d := by
  intro e he hne
  rw [setDriver_packed_wiring hi, setDriver_packed_wiring hi]
  exact h e (by simpa using he) hne

theorem chip_packed {i : Instr} {d : Nat} (hi : i.target = some d) (s : State) (e : Nat) :
    ((setDriver d (packed i (s.driver d)) s).driver e).chip = (s.driver e).chip := by
  rw [← modifyDriver_eq_setDriver s d (packed i)]
  exact driver_modifyDriver_keeps s d e Driver.chip fun m => (packed_spec hi m).chip

/-! ## A transmit that is not refused -/

/-- It can be repeated, it sets the chip-select bit and leaves every other bit, and it ends in the status its answer gives (R70, R245). -/
theorem transmit_sends {d : Nat} (v : Reg20) {u : State} (hs : CanSend u d) :
    CanSend (transmit d v u).1 d ∧ WithBit u.buf (transmit d v u).1.buf (u.driver d).wiring.csBit true ∧
    (nextAnswer u = .fail → (transmit d v u).2 = .transferFailure) ∧ (nextAnswer u ≠ .fail → (transmit d v u).2 = .ok) := by
  obtain ⟨t, st, e, -, -, hb, -, -, -, ⟨g1, g2, g3, g4⟩, hf, ho⟩ := transmit_spec v hs.1 rfl hs.2.1 hs.2.2
    (withBit_writeBit u.buf _ false) (withBit_writeBit u.buf _ true) fun _ _ => rfl
  rw [e]
  refine ⟨⟨g1, g3, ?_⟩, fun j => ?_, fun h => (hf h).1, fun h => ?_⟩
  · rw [g2, g4]; exact hs.2.2
  · rw [hb j, withBit_writeBit u.buf _ true j]
  · cases ha : nextAnswer u with
    | fail => exact absurd ha h
    | bytes r0 r1 r2 => exact (ho _ _ _ ha).1

/-- With the chip-select duty kept (R279): the target's chip takes the register and marks the word with the selector it held before, or the
register is unknown after a failure (R42, R74, R164); every other chip is as it was, and the duty is still kept. -/
theorem transmit_sole {d : Nat} {v : Reg20} {r : Reg} {u : State} (hs : CanSend u d) (hss : SoleSelect u d)
    (hv : regOfDatagram v = some r) :
    SoleSelect (transmit d v u).1 d ∧ (∀ e, e ≠ d → ((transmit d v u).1.driver e).chip = (u.driver e).chip) ∧
    (nextAnswer u = .fail → ((transmit d v u).1.driver d).chip =
      { (u.driver d).chip with regs := setReg (u.driver d).chip.regs r none }) ∧
    (nextAnswer u ≠ .fail → ((transmit d v u).1.driver d).chip =
      { regs := setReg (u.driver d).chip.regs r (some v), statusSel := (u.driver d).chip.selector }) := by
  have hcont : contended (selectChip d u) = false := by
    apply contended_of_sole (d := d)
    intro e he hne
    obtain ⟨h1, h2, h3⟩ := hss e he hne
    show (decide ((u.driver e).wiring.csBit < 32 * u.nb) &&
      Memory.readBit (Memory.writeBit u.buf (u.driver d).wiring.csBit false) (u.driver e).wiring.csBit) = true
    rw [Memory.readBit_writeBit_other _ _ h2]
    simp [h1, h3]
  refine ⟨?_, ?_⟩
  · intro e he hne
    have hf := transmit_frame d v u
    rw [hf.2.2.2.2.2.2.2.2.2] at he
    obtain ⟨h1, h2, h3⟩ := hss e he hne
    rw [(transmit_driver_frame d v u e).2.2.2, (transmit_driver_frame d v u d).2.2.2, hf.2.2.1]
    refine ⟨h1, h2, ?_⟩
    rw [(transmit_sends v hs).2.1, if_neg h2]
    exact h3
  have hx : ∀ e, (selectChip d u).driver e = u.driver e := fun _ => rfl
  have hl : d < (selectChip d u).drivers.length := hs.1
  rcases transmit_cases d v u with ⟨h, -⟩ | ⟨-, h, -⟩ | ⟨-, -, h, e⟩ | ⟨-, -, r0, r1, r2, h, e⟩
  · exact absurd hs.2.1 h
  · have := hs.2.2; omega
  · rw [e]
    refine ⟨fun e he => ?_, fun _ => ?_, fun h' => absurd h h'⟩
    · rw [exchange_driver, deliver_sole_other _ _ hcont he, hx]
    · rw [exchange_driver, h, deliver_sole_fail _ hcont hl, hx]
      simp [Chip.receiveMaybe, hv]
  · rw [e]
    refine ⟨fun e he => ?_, fun h' => (by rw [h] at h'; cases h'), fun _ => ?_⟩
    · rw [storeStatus_driver_other _ _ _ _ he, exchange_driver, deliver_sole_other _ _ hcont he, hx]
    · rw [storeStatus_driver_self _ _ _ _ (by simpa using hs.1)]
      simp only
      rw [exchange_driver, h, deliver_sole_self _ _ _ _ hcont hl, hx]
      simp [Chip.receive, hv, wordSelector, hcont, hx]

/-- Another driver's chip is selected with the target's: its bit is low, or it is the target's own bit (R279). -/
def SelectedWith (s : State) (d e : Nat) : Prop :=
  e ≠ d ∧ e < s.drivers.length ∧ (s.driver e).wiring.csBit < 32 * s.nb ∧
    ((s.driver e).wiring.csBit = (s.driver d).wiring.csBit ∨ Memory.readBit s.buf (s.driver e).wiring.csBit = false)

/-- With another chip selected too (R279): the registers of both are unknown afterwards, and so is the selector of a word stored; the other chip
is still selected at the next transmit. -/
theorem transmit_shared {d e : Nat} (v : Reg20) {u : State} (hs : CanSend u d) (he : SelectedWith u d e) :
    SelectedWith (transmit d v u).1 d e ∧ ((transmit d v u).1.driver d).chip.regs = Chip.unknown.regs ∧
    ((transmit d v u).1.driver e).chip.regs = Chip.unknown.regs ∧
    ((transmit d v u).2 = .ok → ((transmit d v u).1.driver d).chip.statusSel = none) := by
  obtain ⟨hne, hel, hec, hbit⟩ := he
  have hdd : deselected (selectChip d u) ((selectChip d u).driver d) = false := by
    show (_ && Memory.readBit (Memory.writeBit u.buf (u.driver d).wiring.csBit false) (u.driver d).wiring.csBit) = false
    simp
  have hde : deselected (selectChip d u) ((selectChip d u).driver e) = false := by
    show (_ && Memory.readBit (Memory.writeBit u.buf (u.driver d).wiring.csBit false) (u.driver e).wiring.csBit) = false
    rw [withBit_writeBit u.buf _ false]
    rcases hbit with h | h <;> simp [h]
  have hld : d < (selectChip d u).drivers.length := hs.1
  have hle : e < (selectChip d u).drivers.length := hel
  have hcont := contended_of_two hld hle hne hdd hde
  refine ⟨⟨hne, ?_⟩, ?_⟩
  · have hf := transmit_frame d v u
    rw [(transmit_driver_frame d v u e).2.2.2, (transmit_driver_frame d v u d).2.2.2, hf.2.2.1, hf.2.2.2.2.2.2.2.2.2]
    refine ⟨hel, hec, ?_⟩
    by_cases h : (u.driver e).wiring.csBit = (u.driver d).wiring.csBit
    · exact .inl h
    · rw [(transmit_sends v hs).2.1, if_neg h]
      exact hbit
  rcases transmit_cases d v u with ⟨h, -⟩ | ⟨-, h, -⟩ | ⟨-, -, h, eq⟩ | ⟨-, -, r0, r1, r2, h, eq⟩
  · exact absurd hs.2.1 h
  · have := hs.2.2; omega
  · rw [eq]
    refine ⟨?_, ?_, nofun⟩
    · rw [exchange_driver, deliver_contended _ _ hcont hld hdd]
    · rw [exchange_driver, deliver_contended _ _ hcont hle hde]
  · rw [eq]
    have hself := storeStatus_driver_self d (capture r0 r1 r2) (wordSelector d (selectChip d u)) (exchange d v u) (by simpa using hs.1)
    refine ⟨?_, ?_, fun _ => ?_⟩
    · rw [hself]
      simp only
      rw [exchange_driver, deliver_contended _ _ hcont hld hdd]
    · rw [storeStatus_driver_other _ _ _ _ hne, exchange_driver, deliver_contended _ _ hcont hle hde]
    · rw [hself]
      simp [wordSelector, hcont]

/-- On a coherent Ready bus it keeps the bus coherent and leaves every latch equal to its bit of the buffer (R73, R80). -/
theorem transmit_latches {d : Nat} (v : Reg20) {u : State} (hs : CanSend u d) (hb : BusInv u) :
    BusInv (transmit d v u).1 ∧
    ∀ k, k < 32 * u.nb → (transmit d v u).1.wires.latches[k]? = some (some (Memory.readBit (transmit d v u).1.buf k)) := by
  obtain ⟨h1, h2, h3, h4, h5, h6, h7, h8⟩ := hb.2 hs.2.1
  have hne : ∀ m : List Host.Cell, bitsDown m (32 * u.nb) ≠ [] := by
    intro m h
    have := congrArg List.length h
    simp at this
    omega
  have hlen : ∀ (bs : List Bool) (l : List Level), (bs.foldl (fun l b => shiftIn (some b) l) l).length = l.length := by
    intro bs
    induction bs with
    | nil => intro l; rfl
    | cons b rest ih => intro l; rw [List.foldl_cons, ih, shiftIn_length]
  have hw := exchange_wires d v u
  rw [drive_commitEvents (Memory.writeBit u.buf (u.driver d).wiring.csBit false) u.nb h5 h6, drive_commitEvents _ _ rfl rfl,
    if_neg (hne _), if_neg (hne _)] at hw
  have hinv : BusInv (exchange d v u) := by
    have hbs : (exchange d v u).busState = .ready := by simpa [exchange] using hs.2.1
    have hnb : (exchange d v u).nb = u.nb := by simp [exchange]
    have hp : (exchange d v u).params = u.params := by simp [exchange]
    refine ⟨fun h => absurd (hbs.symm.trans h) (by simp), fun _ => ?_⟩
    rw [hnb, hp, hw]
    refine ⟨h1, h2, ?_⟩
    refine ⟨h3, rfl, rfl, rfl, ?_, ?_⟩
    · show List.length (List.foldl _ (List.foldl _ _ _) _) = 32 * u.nb
      rw [hlen, hlen, h7]
    · show List.length (List.foldl _ (List.foldl _ _ _) _) = 32 * u.nb
      rw [hlen, hlen, h7]
  have hlat : ∀ k, k < 32 * u.nb → (exchange d v u).wires.latches[k]? = some (some (Memory.readBit (exchange d v u).buf k)) := by
    intro k hk
    rw [hw]
    show (List.foldl _ (List.foldl _ u.wires.stages _) _)[k]? = _
    rw [shift_stages, hlen, h7, List.getElem?_take, if_pos hk, List.getElem?_append_left (by simpa using hk), List.getElem?_map,
      List.getElem?_reverse (by simpa using hk), bitsDown_length, bitsDown_getElem? _ _ _ (by omega)]
    simp only [Option.map_some, Option.some.injEq]
    congr 1
    omega
  rcases transmit_cases d v u with ⟨h, -⟩ | ⟨-, h, -⟩ | ⟨-, -, -, e⟩ | ⟨-, -, r0, r1, r2, -, e⟩
  · exact absurd hs.2.1 h
  · have := hs.2.2; omega
  · rw [e]; exact ⟨hinv, hlat⟩
  · rw [e]; exact ⟨hinv, hlat⟩

/-- A transmitting command that is not refused, one transmit or two, leaves the chip-select bit at 1 and every other bit as it was (R70). -/
theorem exec_sending_buf {i : Instr} {d : Nat} {s t : State} (ht : i.transmits = true) (hi : i.target = some d)
    (h3 : i ≠ .mdRdstat d 3) (hs : CanSend s d) (h : exec i s = .next t) :
    WithBit s.buf t.buf (s.driver d).wiring.csBit true := by
  have hs0 := canSend_packed hi hs
  have hw := setDriver_packed_wiring hi s d
  obtain ⟨r, r', -, -, e | e⟩ := exec_sending ht hi hs.1 h3 <;> rw [e] at h <;> injection h with h <;> subst h <;> intro k
  · show Memory.readBit (transmit d _ _).1.buf k = _
    rw [(transmit_sends _ hs0).2.1 k, hw]
    rfl
  · have h1 := transmit_sends (getReg (packed i (s.driver d)).shadow r) hs0
    show Memory.readBit (thenTransmit d _ _).1.buf k = _
    rw [thenTransmit_eq]
    split
    · rw [(transmit_sends _ h1.1).2.1 k, h1.2.1 k, (transmit_driver_frame ..).2.2.2, hw]
      split <;> rfl
    · rw [h1.2.1 k, hw]
      rfl

/-- The events of an exchange depend on the buffer of its second commit only through its bits (R124). -/
theorem exchangeEvents_congr (m : List Host.Cell) {m' m'' : List Host.Cell} (nb : Nat) (v : Reg20)
    (h : ∀ j, Memory.readBit m' j = Memory.readBit m'' j) : exchangeEvents m m' nb v = exchangeEvents m m'' nb v := by
  rw [exchangeEvents, exchangeEvents, commitEvents_congr nb h]

end Sys2Proof.Machine
end

