-- ==== Sys2Proof/Laws/PerInstr.lean ====
section
/-! SUPPORT. Per instruction: the opcode and target fields of its command word (30_encoding R90, R95, R96). -/

set_option linter.unusedSimpArgs false

namespace Sys2Proof.Laws.OpcodeField

/-- The command word carries the instruction's opcode in `C[63:56]` and its target, 0 for the BUS family, in `C[55:52]`. -/
def Statement (i : Instr) : Prop :=
  i.wellFormed = true → bits (encode i) 63 56 = i.opcode ∧ tgt (encode i) = i.target.getD 0

/-- A word assembled from an opcode, a target and an operand area that fit holds each in its place (R90). -/
theorem assemble_fields {opc target area : Nat} (ho : opc < 2 ^ 8) (ht : target < 2 ^ 4) (ha : area < 2 ^ 52) :
    bits (assemble opc target area) 63 56 = opc ∧ tgt (assemble opc target area) = target := by
  simp only [bits, tgt, assemble, BitVec.toNat_ofNat]
  omega

theorem twos_lt (k : Nat) (x : Int) : twos k x < 2 ^ k := by
  have hp : ((2 ^ k : Nat) : Int) > 0 := by positivity
  have h1 := Int.emod_nonneg x (ne_of_gt hp)
  have h2 := Int.emod_lt_of_pos x hp
  unfold twos
  omega

theorem flagNat_le (b : Bool) : flagNat b ≤ 1 := by cases b <;> simp [flagNat]

theorem busInit (nb : Nat) : Statement (.busInit nb) := by
  intro h
  simp only [Instr.wellFormed, fitsU, fitsS, Bool.and_eq_true, decide_eq_true_eq] at h
  exact assemble_fields (by decide) (by omega) (by omega)

theorem busSetbit (u : Nat) : Statement (.busSetbit u) := by
  intro h
  simp only [Instr.wellFormed, fitsU, fitsS, Bool.and_eq_true, decide_eq_true_eq] at h
  exact assemble_fields (by decide) (by omega) (by omega)

theorem busClearbit (u : Nat) : Statement (.busClearbit u) := by
  intro h
  simp only [Instr.wellFormed, fitsU, fitsS, Bool.and_eq_true, decide_eq_true_eq] at h
  exact assemble_fields (by decide) (by omega) (by omega)

theorem busCommit : Statement (.busCommit) := by
  intro h
  simp only [Instr.wellFormed, fitsU, fitsS, Bool.and_eq_true, decide_eq_true_eq] at h
  exact assemble_fields (by decide) (by omega) (by omega)

theorem busTeardown : Statement (.busTeardown) := by
  intro h
  simp only [Instr.wellFormed, fitsU, fitsS, Bool.and_eq_true, decide_eq_true_eq] at h
  exact assemble_fields (by decide) (by omega) (by omega)

theorem busIndex (board : Nat) (slot : Nat) (offset : Nat) : Statement (.busIndex board slot offset) := by
  intro h
  simp only [Instr.wellFormed, fitsU, fitsS, Bool.and_eq_true, decide_eq_true_eq] at h
  exact assemble_fields (by decide) (by omega) (by omega)

theorem mdSetcur (d : Nat) (mA : Nat) : Statement (.mdSetcur d mA) := by
  intro h
  simp only [Instr.wellFormed, fitsU, fitsS, Bool.and_eq_true, decide_eq_true_eq] at h
  exact assemble_fields (by decide) (by omega) (by omega)

theorem mdGetcur (d : Nat) : Statement (.mdGetcur d) := by
  intro h
  simp only [Instr.wellFormed, fitsU, fitsS, Bool.and_eq_true, decide_eq_true_eq] at h
  exact assemble_fields (by decide) (by omega) (by omega)

theorem mdSetmres (d : Nat) (n : Int) : Statement (.mdSetmres d n) := by
  intro h
  simp only [Instr.wellFormed, fitsU, fitsS, Bool.and_eq_true, decide_eq_true_eq] at h
  have h_n := twos_lt 16 n
  exact assemble_fields (by decide) (by omega) (by omega)

theorem mdChopConst (d : Nat) (off : Int) (blank : Int) (fastDecay : Int) (sineOffset : Int) (useComparator : Bool) : Statement (.mdChopConst d off blank fastDecay sineOffset useComparator) := by
  intro h
  simp only [Instr.wellFormed, fitsU, fitsS, Bool.and_eq_true, decide_eq_true_eq] at h
  have h_off := twos_lt 8 off
  have h_blank := twos_lt 8 blank
  have h_fastDecay := twos_lt 8 fastDecay
  have h_sineOffset := twos_lt 8 sineOffset
  have h_useComparator := flagNat_le useComparator
  exact assemble_fields (by decide) (by omega) (by omega)

theorem mdChopSpread (d : Nat) (off : Int) (blank : Int) (hystStart : Int) (hystEnd : Int) (hystDecrement : Int) : Statement (.mdChopSpread d off blank hystStart hystEnd hystDecrement) := by
  intro h
  simp only [Instr.wellFormed, fitsU, fitsS, Bool.and_eq_true, decide_eq_true_eq] at h
  have h_off := twos_lt 8 off
  have h_blank := twos_lt 8 blank
  have h_hystStart := twos_lt 8 hystStart
  have h_hystEnd := twos_lt 8 hystEnd
  have h_hystDecrement := twos_lt 8 hystDecrement
  exact assemble_fields (by decide) (by omega) (by omega)

theorem mdSgt (d : Nat) (t : Int) (filterEnabled : Bool) : Statement (.mdSgt d t filterEnabled) := by
  intro h
  simp only [Instr.wellFormed, fitsU, fitsS, Bool.and_eq_true, decide_eq_true_eq] at h
  have h_t := twos_lt 8 t
  have h_filterEnabled := flagNat_le filterEnabled
  exact assemble_fields (by decide) (by omega) (by omega)

theorem mdCoolcfg (d : Nat) (lowerThr : Nat) (hysteresis : Nat) (decStep : Nat) (incStep : Nat) (lowerLimit : Nat) : Statement (.mdCoolcfg d lowerThr hysteresis decStep incStep lowerLimit) := by
  intro h
  simp only [Instr.wellFormed, fitsU, fitsS, Bool.and_eq_true, decide_eq_true_eq] at h
  exact assemble_fields (by decide) (by omega) (by omega)

theorem mdCoolen (d : Nat) (flag : Bool) : Statement (.mdCoolen d flag) := by
  intro h
  simp only [Instr.wellFormed, fitsU, fitsS, Bool.and_eq_true, decide_eq_true_eq] at h
  have h_flag := flagNat_le flag
  exact assemble_fields (by decide) (by omega) (by omega)

theorem mdEnable (d : Nat) (flag : Bool) : Statement (.mdEnable d flag) := by
  intro h
  simp only [Instr.wellFormed, fitsU, fitsS, Bool.and_eq_true, decide_eq_true_eq] at h
  have h_flag := flagNat_le flag
  exact assemble_fields (by decide) (by omega) (by omega)

theorem mdRdstat (d : Nat) (selector : Nat) : Statement (.mdRdstat d selector) := by
  intro h
  simp only [Instr.wellFormed, fitsU, fitsS, Bool.and_eq_true, decide_eq_true_eq] at h
  exact assemble_fields (by decide) (by omega) (by omega)

theorem mdOtpw (d : Nat) : Statement (.mdOtpw d) := by
  intro h
  simp only [Instr.wellFormed, fitsU, fitsS, Bool.and_eq_true, decide_eq_true_eq] at h
  exact assemble_fields (by decide) (by omega) (by omega)

theorem mdOt (d : Nat) : Statement (.mdOt d) := by
  intro h
  simp only [Instr.wellFormed, fitsU, fitsS, Bool.and_eq_true, decide_eq_true_eq] at h
  exact assemble_fields (by decide) (by omega) (by omega)

theorem mdS2ga (d : Nat) : Statement (.mdS2ga d) := by
  intro h
  simp only [Instr.wellFormed, fitsU, fitsS, Bool.and_eq_true, decide_eq_true_eq] at h
  exact assemble_fields (by decide) (by omega) (by omega)

theorem mdS2gb (d : Nat) : Statement (.mdS2gb d) := by
  intro h
  simp only [Instr.wellFormed, fitsU, fitsS, Bool.and_eq_true, decide_eq_true_eq] at h
  exact assemble_fields (by decide) (by omega) (by omega)

theorem mdOla (d : Nat) : Statement (.mdOla d) := by
  intro h
  simp only [Instr.wellFormed, fitsU, fitsS, Bool.and_eq_true, decide_eq_true_eq] at h
  exact assemble_fields (by decide) (by omega) (by omega)

theorem mdOlb (d : Nat) : Statement (.mdOlb d) := by
  intro h
  simp only [Instr.wellFormed, fitsU, fitsS, Bool.and_eq_true, decide_eq_true_eq] at h
  exact assemble_fields (by decide) (by omega) (by omega)

theorem mdStst (d : Nat) : Statement (.mdStst d) := by
  intro h
  simp only [Instr.wellFormed, fitsU, fitsS, Bool.and_eq_true, decide_eq_true_eq] at h
  exact assemble_fields (by decide) (by omega) (by omega)

theorem mdSgreached (d : Nat) : Statement (.mdSgreached d) := by
  intro h
  simp only [Instr.wellFormed, fitsU, fitsS, Bool.and_eq_true, decide_eq_true_eq] at h
  exact assemble_fields (by decide) (by omega) (by omega)

theorem mdSgval (d : Nat) : Statement (.mdSgval d) := by
  intro h
  simp only [Instr.wellFormed, fitsU, fitsS, Bool.and_eq_true, decide_eq_true_eq] at h
  exact assemble_fields (by decide) (by omega) (by omega)

theorem mdMstep (d : Nat) : Statement (.mdMstep d) := by
  intro h
  simp only [Instr.wellFormed, fitsU, fitsS, Bool.and_eq_true, decide_eq_true_eq] at h
  exact assemble_fields (by decide) (by omega) (by omega)

theorem mdActcur (d : Nat) : Statement (.mdActcur d) := by
  intro h
  simp only [Instr.wellFormed, fitsU, fitsS, Bool.and_eq_true, decide_eq_true_eq] at h
  exact assemble_fields (by decide) (by omega) (by omega)

end Sys2Proof.Laws.OpcodeField
end

