-- ==== Sys2Proof/Laws/Encoding.lean ====
section
/-! SUPPORT. Decoding said once (30_encoding R90, R94, R97): what a legal word is, what the fields of an assembled word read as, and how a
row's mask tests a word. -/

namespace Sys2Proof

open Sys2Proof.Laws.OpcodeField

/-- The assigned opcodes (R96). -/
theorem opcodeRow_mem {n : Nat} {row : OpcodeRow} (h : opcodeRow n = some row) :
    n ∈ [1, 2, 3, 4, 5, 6, 16, 17, 18, 19, 20, 21, 22, 23, 24] ++ [32, 33, 34, 35, 36, 37, 38, 39, 40, 41, 42, 43] := by
  unfold opcodeRow at h
  split at h <;> simp at h ⊢

/-- No format has its first reserved bit above 44 (R93). -/
theorem reservedFrom_le {n : Nat} {row : OpcodeRow} (h : opcodeRow n = some row) : row.reservedFrom ≤ 44 := by
  unfold opcodeRow at h
  split at h <;> simp at h <;> subst h <;> simp

/-- The tests of a word whose opcode is assigned (R97). -/
theorem decode_of_row {w : Word} {row : OpcodeRow} (h : opcodeRow (bits w 63 56) = some row) :
    decode w = if bits w 51 row.reservedFrom ≠ 0 then .illegal .reservedBit
      else if row.bus && tgt w != 0 then .illegal .busTarget else .legal (row.read w) := by
  unfold decode
  rw [h]

/-- A word whose opcode is not assigned (R97). -/
theorem decode_of_no_row {w : Word} (h : opcodeRow (bits w 63 56) = none) : decode w = .illegal .unassignedOpcode := by
  unfold decode
  rw [h]

/-- A word is legal exactly when it passes the three tests of R97; then its row reads it. -/
theorem decode_legal_iff {w : Word} {i : Instr} :
    decode w = .legal i ↔ ∃ row, opcodeRow (bits w 63 56) = some row ∧ bits w 51 row.reservedFrom = 0 ∧
      (row.bus = true → tgt w = 0) ∧ i = row.read w := by
  cases hr : opcodeRow (bits w 63 56) with
  | none => rw [decode_of_no_row hr]; exact ⟨nofun, fun ⟨_, h, _⟩ => nomatch h⟩
  | some row =>
    rw [decode_of_row hr]
    by_cases h1 : bits w 51 row.reservedFrom = 0
    · rw [if_neg (not_not.2 h1)]
      by_cases h2 : (row.bus && tgt w != 0) = true
      · rw [if_pos h2]
        have h2' : row.bus = true ∧ tgt w ≠ 0 := by simpa using h2
        refine ⟨nofun, ?_⟩
        rintro ⟨_, h, -, h', -⟩
        cases h
        exact absurd (h' h2'.1) h2'.2
      · rw [if_neg h2]
        have h2' : row.bus = true → tgt w = 0 := by simpa using h2
        constructor
        · intro h
          injection h with h
          exact ⟨row, rfl, h1, h2', h.symm⟩
        · rintro ⟨_, h, -, -, rfl⟩
          cases h
          rfl
    · rw [if_pos h1]
      refine ⟨nofun, ?_⟩
      rintro ⟨_, h, h', -⟩
      cases h
      exact absurd h' h1

/-- A field of the operand area of an assembled word (R90). -/
theorem bits_assemble {opc target area hi lo : Nat} (ho : opc < 2 ^ 8) (ht : target < 2 ^ 4) (ha : area < 2 ^ 52)
    (hlo : lo ≤ hi) (hhi : hi < 52) : bits (assemble opc target area) hi lo = area / 2 ^ lo % 2 ^ (hi - lo + 1) := by
  have hsum : (opc * 2 ^ 56 + target * 2 ^ 52 + area) % 2 ^ 64 = opc * 2 ^ 56 + target * 2 ^ 52 + area :=
    Nat.mod_eq_of_lt (by omega)
  have e : opc * 2 ^ 56 + target * 2 ^ 52 = 2 ^ lo * (2 ^ (hi - lo + 1) * (2 ^ (51 - hi) * (opc * 16 + target))) := by
    rw [← Nat.mul_assoc, ← Nat.mul_assoc, ← Nat.pow_add, ← Nat.pow_add, show lo + (hi - lo + 1) + (51 - hi) = 52 by omega]
    omega
  rw [bits, assemble, BitVec.toNat_ofNat, hsum, e, Nat.mul_add_div (by positivity), Nat.mul_add_mod]

/-- An assembled word whose operands leave the reserved bits clear is legal, and its row reads it. -/
theorem decode_assemble {opc target area : Nat} {row : OpcodeRow} (hr : opcodeRow opc = some row) (ho : opc < 2 ^ 8)
    (ht : target < 2 ^ 4) (ha : area < 2 ^ row.reservedFrom) (hb : row.bus = true → target = 0) :
    decode (assemble opc target area) = .legal (row.read (assemble opc target area)) := by
  have h44 := reservedFrom_le hr
  have ha52 : area < 2 ^ 52 := lt_of_lt_of_le ha (Nat.pow_le_pow_right (by decide) (by omega))
  have hf := assemble_fields ho ht ha52
  refine decode_legal_iff.2 ⟨row, by rw [hf.1]; exact hr, ?_, by rw [hf.2]; exact hb, rfl⟩
  rw [bits_assemble ho ht ha52 (by omega) (by decide), Nat.div_eq_of_lt ha, Nat.zero_mod]

/-- Two's complement there and back (R94). -/
theorem signed_twos {k : Nat} (hk : 0 < k) {x : Int} (h : fitsS k x = true) : signed k (twos k x) = x := by
  simp only [fitsS, Bool.and_eq_true, decide_eq_true_eq] at h
  have hp : (2 ^ k : Nat) = 2 * 2 ^ (k - 1) := by
    rw [← Nat.pow_succ']; congr 1; omega
  unfold signed twos
  rw [hp]
  have h1 := h.1
  have h2 := h.2
  have hq : (2 ^ (k - 1) : Int) = ((2 ^ (k - 1) : Nat) : Int) := by norm_num
  rw [hq] at h1 h2
  generalize 2 ^ (k - 1) = q at *
  by_cases hx : 0 ≤ x
  · rw [Int.emod_eq_of_lt hx (by push_cast; omega), if_pos (by omega)]
    omega
  · have : x % ((2 * q : Nat) : Int) = x + 2 * q := by
      rw [← Int.add_emod_right, Int.emod_eq_of_lt (by push_cast; omega) (by push_cast; omega)]
      push_cast; rfl
    rw [this, if_neg (by omega)]
    push_cast
    omega

/-- Two's complement back and there (R94). -/
theorem twos_signed {k n : Nat} (h : n < 2 ^ k) : twos k (signed k n) = n := by
  unfold signed twos
  split
  · rw [Int.emod_eq_of_lt (by omega) (by exact_mod_cast h)]
    rfl
  · rw [← Int.add_emod_right, Int.emod_eq_of_lt (by omega) (by omega)]
    omega

/-- What a signed field reads fits it (R94). -/
theorem fitsS_signed {k n : Nat} (hk : 0 < k) (h : n < 2 ^ k) : fitsS k (signed k n) = true := by
  have hp : (2 ^ k : Nat) = 2 * 2 ^ (k - 1) := by
    rw [← Nat.pow_succ']; congr 1; omega
  have hq : (2 ^ (k - 1) : Int) = ((2 ^ (k - 1) : Nat) : Int) := by norm_num
  unfold fitsS signed
  rw [hq]
  rw [hp] at h ⊢
  generalize 2 ^ (k - 1) = q at *
  simp only [Bool.and_eq_true, decide_eq_true_eq]
  split <;> omega

/-- A field reads as a value that fits it (R10). -/
theorem bits_lt (w : Word) {hi lo k : Nat} (hk : hi - lo + 1 = k) : bits w hi lo < 2 ^ k := by
  subst hk; exact Nat.mod_lt _ (by positivity)

theorem flagNat_flagBit (w : Word) (k : Nat) : flagNat (flagBit w k) = bits w k k := by
  have := bits_lt w (hi := k) (lo := k) (k := 1) (by omega)
  unfold flagNat flagBit
  interval_cases bits w k k <;> rfl

/-- A mask of the top bits keeps what stands above them. -/
theorem and_topMask {n r : Nat} (h : n < 2 ^ 64) (hr : r ≤ 64) : n &&& (2 ^ 64 - 2 ^ r) = n / 2 ^ r * 2 ^ r := by
  have e : 2 ^ 64 - 2 ^ r = (2 ^ (64 - r) - 1) * 2 ^ r := by
    rw [Nat.sub_mul, ← Nat.pow_add, Nat.one_mul, Nat.sub_add_cancel hr]
  apply Nat.eq_of_testBit_eq
  intro i
  rw [e, Nat.testBit_and, ← Nat.shiftLeft_eq, Nat.testBit_shiftLeft, Nat.testBit_two_pow_sub_one, ← Nat.shiftLeft_eq,
    Nat.testBit_shiftLeft, ← Nat.shiftRight_eq_div_pow, Nat.testBit_shiftRight]
  by_cases h1 : r ≤ i
  · have hi : r + (i - r) = i := by omega
    by_cases h2 : i - r < 64 - r
    · simp [h1, h2, hi]
    · have : n.testBit i = false := Nat.testBit_lt_two_pow (lt_of_lt_of_le h (Nat.pow_le_pow_right (by decide) (by omega)))
      simp [h1, hi, this]
  · simp [h1]

/-- The mask of a BUS row tests the opcode, the reserved bits and the target (R96, R97). -/
theorem busMask_iff (w : Word) {opc r : Nat} (ho : opc < 2 ^ 8) (hr : r ≤ 51) :
    w.toNat &&& (2 ^ 64 - 2 ^ r) = opc * 2 ^ 56 ↔ bits w 63 56 = opc ∧ bits w 51 r = 0 ∧ tgt w = 0 := by
  rw [and_topMask w.isLt (by omega)]
  unfold tgt bits
  have hw := w.isLt
  generalize w.toNat = n at *
  have e : 2 ^ 56 = 2 ^ r * 2 ^ (56-r) := by rw [← Nat.pow_add]; congr 1; omega
  have e2 : opc * 2 ^ 56 = (opc * 2 ^ (56-r)) * 2 ^ r := by rw [e]; ring
  rw [e2, Nat.mul_left_inj (by positivity)]
  have p : 0 < 2 ^ r := by positivity
  have e3 : n / 2 ^ 56 = n / 2 ^ r / 2 ^ (56-r) := by rw [e, Nat.div_div_eq_div_mul]
  have e4 : n / 2 ^ 52 = n / 2 ^ r / 2 ^ (52-r) := by rw [Nat.div_div_eq_div_mul, ← Nat.pow_add]; congr 2; omega
  have e5 : 51 - r + 1 = 52 - r := by omega
  rw [show 63 - 56 + 1 = 8 from rfl, show 55 - 52 + 1 = 4 from rfl, e3, e4, e5]
  have hx : n / 2 ^ r < 2 ^ (64-r) := by
    rw [Nat.div_lt_iff_lt_mul p, ← Nat.pow_add]; have : 64 - r + r = 64 := by omega
    rwa [this]
  have q1 : 2 ^ (56-r) = 2 ^ (52-r) * 16 := by rw [show 56 - r = 52 - r + 4 by omega, Nat.pow_add]
  have q2 : 2 ^ (64-r) = 2 ^ (52-r) * 4096 := by rw [show 64 - r = 52 - r + 12 by omega, Nat.pow_add]
  rw [q1]; rw [q2] at hx
  have hq : 0 < 2 ^ (52-r) := by positivity
  generalize 2 ^ (52-r) = q at *
  generalize n / 2 ^ r = x at *
  rw [← Nat.div_div_eq_div_mul]
  have hxq : x / q < 4096 := by rw [Nat.div_lt_iff_lt_mul hq, Nat.mul_comm]; exact hx
  have hdm := Nat.div_add_mod x q
  constructor
  · rintro rfl
    have : opc * (q * 16) = q * (opc * 16) := by ring
    rw [this, Nat.mul_div_cancel_left _ hq, Nat.mul_mod_right]
    omega
  · rintro ⟨h1, h2, h3⟩
    rw [h2] at hdm
    have : x / q = opc * 16 := by omega
    rw [this] at hdm; rw [← hdm]; ring

/-- A word with its target field cleared. -/
theorem and_clearTarget (n : Nat) (h : n < 2 ^ 64) :
    n &&& (2 ^ 64 - 1 - 15 * 2 ^ 52) = n / 2 ^ 56 * 2 ^ 56 + n % 2 ^ 52 := by
  have e : 2 ^ 64 - 1 - 15 * 2 ^ 52 = (2 ^ 64 - 2 ^ 56) ||| (2 ^ 52 - 1) := by decide
  rw [e, Nat.and_or_distrib_left, and_topMask h (by decide), Nat.and_two_pow_sub_one_eq_mod, Nat.mul_comm (n / 2 ^ 56),
    Nat.two_pow_add_eq_or_of_lt (by omega)]

/-- The mask of an MD row tests the opcode and the reserved bits, and leaves the target free (R96, R97). -/
theorem mdMask_iff (w : Word) {opc r : Nat} (ho : opc < 2 ^ 8) (hr : r ≤ 51) :
    w.toNat &&& ((2 ^ 64 - 1 - 15 * 2 ^ 52) &&& (2 ^ 64 - 2 ^ r)) = opc * 2 ^ 56 ↔ bits w 63 56 = opc ∧ bits w 51 r = 0 := by
  have hw := w.isLt
  rw [← Nat.and_assoc, and_clearTarget _ hw]
  have hlt : w.toNat / 2 ^ 56 * 2 ^ 56 + w.toNat % 2 ^ 52 < 2 ^ 64 := by omega
  have hx := busMask_iff (BitVec.ofNat 64 (w.toNat / 2 ^ 56 * 2 ^ 56 + w.toNat % 2 ^ 52)) ho hr
  unfold tgt bits at hx
  rw [BitVec.toNat_ofNat, Nat.mod_eq_of_lt hlt] at hx
  rw [hx]
  unfold bits
  have h1 : (w.toNat / 2 ^ 56 * 2 ^ 56 + w.toNat % 2 ^ 52) / 2 ^ 56 = w.toNat / 2 ^ 56 := by omega
  have h2 : (w.toNat / 2 ^ 56 * 2 ^ 56 + w.toNat % 2 ^ 52) / 2 ^ 52 % 2 ^ (55 - 52 + 1) = 0 := by omega
  have h3 : ∀ n : Nat, n / 2 ^ r % 2 ^ (51 - r + 1) = n % 2 ^ 52 / 2 ^ r := fun n => by
    rw [show 52 = r + (51 - r + 1) by omega, Nat.pow_add 2 r, Nat.mod_mul_right_div_self]
  rw [h1, h2, h3, h3]
  have h4 : (w.toNat / 2 ^ 56 * 2 ^ 56 + w.toNat % 2 ^ 52) % 2 ^ 52 = w.toNat % 2 ^ 52 := by omega
  rw [h4]
  tauto

end Sys2Proof
end

