-- ==== Sys2Proof/Laws/Step.lean ====
section
/-! SUPPORT. The step said once: it idles, refuses an illegal word, or runs a legal one; and how a property of states is shown to be kept by
every step (60_exceptions R243). -/

namespace Sys2Proof.Machine

/-- Everything a step that answers a next state can have done. -/
theorem step_cases {s t : State} (h : step s = .next t) :
    s.halted = false ∧
    ((s.port = [] ∧ t = s) ∨
     (∃ w rest e, s.port = w :: rest ∧ decode w = .illegal e ∧ t = respond .illegalCommand 0#32 { s with port := rest }) ∨
     (∃ w rest i, s.port = w :: rest ∧ decode w = .legal i ∧ exec i { s with port := rest } = .next t)) := by
  unfold step at h
  split at h
  · exact absurd h (by simp)
  · next hh =>
    refine ⟨by simpa using hh, ?_⟩
    unfold acceptWord at h
    cases hp : s.port with
    | nil => simp only [hp, Host.Outcome.next.injEq] at h; exact .inl ⟨rfl, h.symm⟩
    | cons w rest =>
      simp only [hp] at h
      cases hd : decode w with
      | illegal e =>
        simp only [hd, refuseWord, raise_eq, Host.Outcome.next.injEq] at h
        exact .inr (.inl ⟨w, rest, e, rfl, hd, h.symm⟩)
      | legal i =>
        simp only [hd] at h
        exact .inr (.inr ⟨w, rest, i, rfl, hd, h⟩)

/-- A running block with a word at its port. -/
theorem step_of_port {s : State} {w : Word} {rest : List Word} (hh : s.halted = false) (hp : s.port = w :: rest) :
    step s = match decode w with
      | .illegal _ => refuseWord { s with port := rest }
      | .legal i => exec i { s with port := rest } := by
  cases hd : decode w <;> simp [step, acceptWord, hh, hp, hd]

/-- A property that taking a word, an illegal word's response and every command keep is kept by every step. -/
theorem step_keeps {P : State → Prop} {s t : State} (h : step s = .next t) (hs : P s)
    (hport : ∀ rest, P s → P { s with port := rest }) (hill : ∀ u, P u → P (respond .illegalCommand 0#32 u))
    (hexec : ∀ i u v, P u → exec i u = .next v → P v) : P t := by
  obtain ⟨-, ⟨-, rfl⟩ | ⟨w, rest, e, -, -, rfl⟩ | ⟨w, rest, i, -, -, he⟩⟩ := step_cases h
  · exact hs
  · exact hill _ (hport _ hs)
  · exact hexec i _ _ (hport _ hs) he

end Sys2Proof.Machine
end

