-- ==== Sys2Proof/Machine/Assembly.lean ====
section
/-! DEFINITION. The spec's assembly syntax (30_encoding R100): one line per command, no pseudo-instructions (R101). -/

namespace Sys2Proof.Machine

/-- Operands separated by commas. -/
def commaSep : List String → String
  | [] => ""
  | [x] => x
  | x :: y :: rest => x ++ ", " ++ commaSep (y :: rest)

/-- A target `d` followed by its number, first among the operands of an MD command. -/
def targetText (d : Nat) : String := "d" ++ toString d

/-- A `u1` operand. -/
def flagText (b : Bool) : String := if b then "1" else "0"

/-- The selector names of MD_RDSTAT; 3 is written as a number. -/
def selectorText (selector : Nat) : String :=
  if selector = 0 then "pos" else if selector = 1 then "sg" else if selector = 2 then "cur" else toString selector

/-- The line of assembly of a command (R100). -/
def assembly : Instr → String
  | .busInit nb => "bus.init " ++ toString nb
  | .busSetbit u => "bus.set " ++ toString u
  | .busClearbit u => "bus.clr " ++ toString u
  | .busCommit => "bus.commit"
  | .busTeardown => "bus.teardown"
  | .busIndex board slot offset => "bus.index " ++ commaSep [toString board, toString slot, toString offset]
  | .mdSetcur d mA => "md.setcur " ++ commaSep [targetText d, toString mA]
  | .mdGetcur d => "md.getcur " ++ targetText d
  | .mdSetmres d n => "md.mres " ++ commaSep [targetText d, toString n]
  | .mdChopConst d off blank fastDecay sineOffset useComparator =>
      "md.chopconst " ++ commaSep
        [targetText d, toString off, toString blank, toString fastDecay, toString sineOffset, flagText useComparator]
  | .mdChopSpread d off blank hystStart hystEnd hystDecrement =>
      "md.chopspread " ++ commaSep
        [targetText d, toString off, toString blank, toString hystStart, toString hystEnd, toString hystDecrement]
  | .mdSgt d t filterEnabled => "md.sgt " ++ commaSep [targetText d, toString t, flagText filterEnabled]
  | .mdCoolcfg d lowerThr hysteresis decStep incStep lowerLimit =>
      "md.coolcfg " ++ commaSep
        [targetText d, toString lowerThr, toString hysteresis, toString decStep, toString incStep, toString lowerLimit]
  | .mdCoolen d flag => "md.coolen " ++ commaSep [targetText d, flagText flag]
  | .mdEnable d flag => "md.enable " ++ commaSep [targetText d, flagText flag]
  | .mdRdstat d selector => "md.rdstat " ++ commaSep [targetText d, selectorText selector]
  | .mdOtpw d => "md.otpw " ++ targetText d
  | .mdOt d => "md.ot " ++ targetText d
  | .mdS2ga d => "md.s2ga " ++ targetText d
  | .mdS2gb d => "md.s2gb " ++ targetText d
  | .mdOla d => "md.ola " ++ targetText d
  | .mdOlb d => "md.olb " ++ targetText d
  | .mdStst d => "md.stst " ++ targetText d
  | .mdSgreached d => "md.sgreached " ++ targetText d
  | .mdSgval d => "md.sgval " ++ targetText d
  | .mdMstep d => "md.mstep " ++ targetText d
  | .mdActcur d => "md.actcur " ++ targetText d

end Sys2Proof.Machine
end

