-- ==== Sys2Proof/Tests/Slice0.lean ====
section
/-! SUPPORT. Tests, their expected values taken from 95_test_vectors; the ill-formed terms WellFormed refuses; and for every statement with
hypotheses a concrete state and operands that meet them. -/

namespace Sys2Proof.Tests

open Sys2Proof Sys2Proof.Machine Sys2Proof.Safety

/-! ## Small states -/

/-- The lines and the chain of a Ready bus of one board before its first commit (R121). -/
def idleWires : Wires :=
  { en := some true, dat := some false, clk := some false, stb := some false
    stages := List.replicate 32 none, latches := List.replicate 32 none }

/-- A Ready bus of one board, with drivers, buffer and transfer answers as given; otherwise as after reset. -/
def bench (ws : List Wiring) (buf : List Host.Cell) (inbound : List XferAnswer) : State :=
  { State.resetWith Config.exampleParams ws with
    busState := .ready, nb := 1, buf := buf, wires := idleWires, inbound := inbound }

/-- One driver at chip-select bit 0, deselected; every transfer of a test answers 12 34 56. -/
def alone : State := bench [⟨91, 0⟩] [(0, 1#8)] [.bytes 0x12#8 0x34#8 0x56#8, .bytes 0x12#8 0x34#8 0x56#8]

/-- The same, but the first transfer fails. -/
def failing : State := { alone with inbound := [.fail] }

/-- Two drivers at chip-select bits 0 and 8, both deselected. -/
def pair : State := bench [⟨91, 0⟩, ⟨91, 8⟩] [(0, 1#8), (1, 1#8)] [.bytes 0x12#8 0x34#8 0x56#8, .bytes 0x12#8 0x34#8 0x56#8]

/-- Two drivers, the second selected too. -/
def contending : State := { pair with buf := [(0, 1#8)] }

/-- The state an instruction leaves; the reset state if it stops. -/
def after (i : Instr) (s : State) : State :=
  match exec i s with
  | .next t => t
  | .fault _ => State.reset
  | .refused _ => State.reset

/-- Driver 0 of the state an instruction leaves. -/
def driverAfter (i : Instr) (s : State) : Driver := (after i s).driver 0

/-- The response an instruction gives. -/
def answerOf (i : Instr) (s : State) : BitVec 3 × BitVec 32 := ((after i s).respStatus, (after i s).respResult)

/-- A state with the status word of driver 0 as given. -/
def withStatus (word : Reg20) : State := storeStatus 0 word none State.reset

/-! ## WellFormed: an ill-formed term for each operand (R93, R94) -/

theorem test_illFormed_bus :
    Instr.wellFormed (.busInit 256) = false ∧ Instr.wellFormed (.busSetbit 65536) = false ∧
    Instr.wellFormed (.busClearbit 65536) = false ∧ Instr.wellFormed (.busIndex 256 1 0) = false ∧
    Instr.wellFormed (.busIndex 1 256 0) = false ∧ Instr.wellFormed (.busIndex 1 1 256) = false := by decide

theorem test_illFormed_operands :
    Instr.wellFormed (.mdSetcur 0 65536) = false ∧ Instr.wellFormed (.mdSetmres 0 32768) = false ∧
    Instr.wellFormed (.mdSetmres 0 (-32769)) = false ∧ Instr.wellFormed (.mdSgt 0 128 true) = false ∧
    Instr.wellFormed (.mdSgt 0 (-129) true) = false ∧ Instr.wellFormed (.mdRdstat 0 4) = false ∧
    Instr.wellFormed (.mdCoolcfg 0 65536 0 0 0 0) = false ∧ Instr.wellFormed (.mdCoolcfg 0 0 65536 0 0 0) = false ∧
    Instr.wellFormed (.mdCoolcfg 0 0 0 16 0 0) = false ∧ Instr.wellFormed (.mdCoolcfg 0 0 0 0 16 0) = false ∧
    Instr.wellFormed (.mdCoolcfg 0 0 0 0 0 16) = false := by decide

theorem test_illFormed_chopper :
    Instr.wellFormed (.mdChopConst 0 128 0 0 0 true) = false ∧ Instr.wellFormed (.mdChopConst 0 0 128 0 0 true) = false ∧
    Instr.wellFormed (.mdChopConst 0 0 0 (-129) 0 true) = false ∧ Instr.wellFormed (.mdChopConst 0 0 0 0 128 true) = false ∧
    Instr.wellFormed (.mdChopSpread 0 128 0 0 0 0) = false ∧ Instr.wellFormed (.mdChopSpread 0 0 (-129) 0 0 0) = false ∧
    Instr.wellFormed (.mdChopSpread 0 0 0 128 0 0) = false ∧ Instr.wellFormed (.mdChopSpread 0 0 0 0 (-129) 0) = false ∧
    Instr.wellFormed (.mdChopSpread 0 0 0 0 0 128) = false := by decide

theorem test_illFormed_target :
    Instr.wellFormed (.mdSetcur 16 0) = false ∧ Instr.wellFormed (.mdGetcur 16) = false ∧
    Instr.wellFormed (.mdSetmres 16 0) = false ∧ Instr.wellFormed (.mdChopConst 16 0 0 0 0 true) = false ∧
    Instr.wellFormed (.mdChopSpread 16 0 0 0 0 0) = false ∧ Instr.wellFormed (.mdSgt 16 0 true) = false ∧
    Instr.wellFormed (.mdCoolcfg 16 0 0 0 0 0) = false ∧ Instr.wellFormed (.mdCoolen 16 true) = false ∧
    Instr.wellFormed (.mdEnable 16 true) = false ∧ Instr.wellFormed (.mdRdstat 16 0) = false ∧
    Instr.wellFormed (.mdOtpw 16) = false ∧ Instr.wellFormed (.mdOt 16) = false ∧ Instr.wellFormed (.mdS2ga 16) = false ∧
    Instr.wellFormed (.mdS2gb 16) = false ∧ Instr.wellFormed (.mdOla 16) = false ∧ Instr.wellFormed (.mdOlb 16) = false ∧
    Instr.wellFormed (.mdStst 16) = false ∧ Instr.wellFormed (.mdSgreached 16) = false ∧
    Instr.wellFormed (.mdSgval 16) = false ∧ Instr.wellFormed (.mdMstep 16) = false ∧
    Instr.wellFormed (.mdActcur 16) = false := by decide

/-! ## Decoding: a word of each constructor, written out from R90, R93 and R96 -/

/-- V10, V11, P1. -/
theorem test_decode_bus :
    decode 0x0100000000000002#64 = .legal (.busInit 2) ∧ decode 0x020000000000003F#64 = .legal (.busSetbit 63) ∧
    decode 0x0300000000000011#64 = .legal (.busClearbit 17) ∧ decode 0x0400000000000000#64 = .legal .busCommit ∧
    decode 0x0500000000000000#64 = .legal .busTeardown ∧ decode 0x0600000000060302#64 = .legal (.busIndex 2 3 6) := by decide

/-- V18, V21, V22, V23, V15: each field in its place, the signed ones sign-extended. -/
theorem test_decode_encoders :
    decode 0x10000000000003E8#64 = .legal (.mdSetcur 0 1000) ∧ decode 0x1110000000000000#64 = .legal (.mdGetcur 1) ∧
    decode 0x1200000000008000#64 = .legal (.mdSetmres 0 (-32768)) ∧
    decode 0x13000000FCFF1701#64 = .legal (.mdChopConst 0 1 23 (-1) (-4) false) ∧
    decode 0x1300000105103509#64 = .legal (.mdChopConst 0 9 53 16 5 true) ∧
    decode 0x14000000FD011802#64 = .legal (.mdChopSpread 0 2 24 1 (-3) 0) := by decide

/-- V24, V25, V26, V27, V28. -/
theorem test_decode_tuning :
    decode 0x15000000000001BF#64 = .legal (.mdSgt 0 (-65) true) ∧
    decode 0x16000FFFFFFF01E1#64 = .legal (.mdCoolcfg 0 481 65535 15 15 15) ∧
    decode 0x1600011200FA0064#64 = .legal (.mdCoolcfg 0 100 250 2 1 1) ∧
    decode 0x1700000000000001#64 = .legal (.mdCoolen 0 true) ∧ decode 0x1800000000000000#64 = .legal (.mdEnable 0 false) ∧
    decode 0x2000000000000002#64 = .legal (.mdRdstat 0 2) := by decide

/-- The opcodes 0x21 to 0x2B of R96, with target 0, 5 and 15. -/
theorem test_decode_accessors :
    decode 0x2100000000000000#64 = .legal (.mdOtpw 0) ∧ decode 0x2250000000000000#64 = .legal (.mdOt 5) ∧
    decode 0x2300000000000000#64 = .legal (.mdS2ga 0) ∧ decode 0x2450000000000000#64 = .legal (.mdS2gb 5) ∧
    decode 0x2500000000000000#64 = .legal (.mdOla 0) ∧ decode 0x2650000000000000#64 = .legal (.mdOlb 5) ∧
    decode 0x2700000000000000#64 = .legal (.mdStst 0) ∧ decode 0x2850000000000000#64 = .legal (.mdSgreached 5) ∧
    decode 0x2900000000000000#64 = .legal (.mdSgval 0) ∧ decode 0x2A50000000000000#64 = .legal (.mdMstep 5) ∧
    decode 0x2BF0000000000000#64 = .legal (.mdActcur 15) := by decide

/-- V14: unassigned opcodes. -/
theorem test_decode_unassigned :
    [0x0000000000000000#64, 0x0700000000000000#64, 0x1900000000000000#64, 0x1F10000000000000#64, 0x2C00000000000000#64,
      0xFF00000000000000#64].map decode =
      List.replicate 6 (.illegal .unassignedOpcode) := by decide +kernel

/-- V14: a reserved bit of each format. -/
theorem test_decode_reserved :
    [0x0100000000000100#64, 0x0400000000000001#64, 0x0200000000010000#64, 0x0600000001000000#64, 0x1100000000000001#64,
      0x1300000200000000#64, 0x1400010000000000#64, 0x1500000000000200#64, 0x1600100000000000#64, 0x1700000000000002#64,
      0x2000000000000004#64, 0x2100000000000001#64].map decode =
      List.replicate 12 (.illegal .reservedBit) := by decide +kernel

/-- V14: a BUS command with a target. -/
theorem test_decode_busTarget :
    decode 0x0110000000000001#64 = .illegal .busTarget ∧ decode 0x0410000000000000#64 = .illegal .busTarget := by decide

/-- V11, V18, V21 to V25: the words of the vectors, encoded. -/
theorem test_encode :
    encode (.busIndex 1 4 7) = 0x0600000000070401#64 ∧ encode (.mdSetcur 0 65535) = 0x100000000000FFFF#64 ∧
    encode (.mdSetmres 0 (-1)) = 0x120000000000FFFF#64 ∧
    encode (.mdChopConst 0 0 0 0 (-3) true) = 0x13000001FD000000#64 ∧
    encode (.mdChopSpread 0 0 0 0 (-4) (-1)) = 0x140000FFFC000000#64 ∧ encode (.mdSgt 0 (-5) true) = 0x15000000000001FB#64 ∧
    encode (.mdCoolcfg 0 479 63 1 2 0) = 0x16000021003F01DF#64 ∧ encode (.mdActcur 15) = 0x2BF0000000000000#64 := by decide

/-- R100, with the lines of V25 and V28. -/
theorem test_assembly :
    assembly (.mdCoolcfg 0 100 250 2 1 1) = "md.coolcfg d0, 100, 250, 2, 1, 1" ∧
    assembly (.mdRdstat 0 1) = "md.rdstat d0, sg" ∧ assembly .busCommit = "bus.commit" := by decide

/-- The opcode table's first row, its operand bits 0, is read and run by the step (R91). -/
theorem test_tableWord :
    decodeTableWord 64 0x0200000000000005 = some (.busSetbit 5) ∧ decodeTableWord 64 0x0700000000000000 = none ∧
    step (State.reset.withFetchWord 64 0x0500000000000000) = exec .busTeardown State.reset := by
  refine ⟨by decide, by decide, rfl⟩

/-! ## One step per instruction -/

/-- V10: a first BUS_INIT, and the one that halts. -/
theorem test_busInit :
    (after (.busInit 1) State.reset).nb = 1 ∧ (after (.busInit 8) State.reset).busState = .ready ∧
    (after (.busInit 1) State.reset).events = [.dat false, .clk false, .stb false, .en true] ∧
    (after (.busInit 9) State.reset).halted = true ∧ (after (.busInit 9) State.reset).responses = [] := by decide

/-- V10: the checks of BUS_INIT in their order. -/
theorem test_busInit_refused :
    answerOf (.busInit 0) State.reset = (1#3, 0#32) ∧ answerOf (.busInit 1) alone = (3#3, 0#32) ∧
    answerOf (.busInit 0) alone = (1#3, 0#32) ∧ answerOf (.busInit 9) alone = (3#3, 0#32) := by decide

/-- V10: the last bit and the first index past it. -/
theorem test_busSetbit :
    Memory.readBit (after (.busSetbit 31) alone).buf 31 = true ∧ answerOf (.busSetbit 32) alone = (1#3, 0#32) ∧
    answerOf (.busSetbit 65535) alone = (1#3, 0#32) ∧ answerOf (.busSetbit 0) State.reset = (2#3, 0#32) := by decide

/-- V2: set then clear. -/
theorem test_busClearbit :
    (after (.busClearbit 17) (after (.busSetbit 17) alone)).buf = alone.buf ∧
    answerOf (.busClearbit 0) State.reset = (2#3, 0#32) := by decide

/-- V12: with only bit 0 set, 194 events, and only latch 0 is 1. -/
theorem test_busCommit :
    (after .busCommit alone).events.length = 194 ∧ (after .busCommit alone).wires.latches.getD 0 none = some true ∧
    (after .busCommit alone).wires.latches.getD 1 none = some false ∧
    (after .busCommit alone).wires.latches.getD 31 none = some false := by decide +kernel

/-- V13: bit 63 of two boards is sent first. -/
theorem test_busCommit_first :
    (commitEvents [(7, 0x80#8)] 2).take 7 = [.dat true, .wait, .clk true, .clk false, .dat false, .wait, .dat false] ∧
    (commitEvents [(7, 0x80#8)] 2).length = 386 := by decide +kernel

/-- V10: teardown of a Ready bus and of none. -/
theorem test_busTeardown :
    (after .busTeardown alone).busState = .uninitialized ∧ (after .busTeardown alone).nb = 0 ∧
    answerOf .busTeardown State.reset = (0#3, 0#32) := by decide

/-- V11, with two boards. -/
theorem test_busIndex :
    answerOf (.busIndex 1 4 7) { alone with nb := 2 } = (0#3, 31#32) ∧
    answerOf (.busIndex 2 3 6) { alone with nb := 2 } = (0#3, 54#32) := by decide

/-- V11: each operand out of its range. -/
theorem test_busIndex_refused :
    answerOf (.busIndex 0 1 0) { alone with nb := 2 } = (1#3, 0#32) ∧
    answerOf (.busIndex 3 1 0) { alone with nb := 2 } = (1#3, 0#32) ∧
    answerOf (.busIndex 1 0 0) { alone with nb := 2 } = (1#3, 0#32) ∧
    answerOf (.busIndex 1 5 0) { alone with nb := 2 } = (1#3, 0#32) ∧
    answerOf (.busIndex 1 1 8) { alone with nb := 2 } = (1#3, 0#32) ∧
    answerOf (.busIndex 1 1 0) State.reset = (2#3, 0#32) := by decide

/-- V4, V18: 1000 mA. -/
theorem test_mdSetcur :
    (driverAfter (.mdSetcur 0 1000) alone).shadow.drvconf = 0xE0040#20 ∧
    (driverAfter (.mdSetcur 0 1000) alone).shadow.sgcsconf = 0xC0011#20 ∧
    (driverAfter (.mdSetcur 0 1000) alone).status = 0x12345#20 := by decide

/-- V18: the two sides of 1756 and 1757 mA, and 0 mA, whose raw scale is negative. -/
theorem test_mdSetcur_edges :
    currentScale 91 0 = (1, 0) ∧ rawScale 310000 91 0 = -1 ∧ currentScale 91 1756 = (1, 30) ∧ currentScale 91 1757 = (0, 16) ∧
    currentScale 91 65535 = (0, 31) ∧ currentScale 65535 0 = (1, 0) ∧ currentScale 1 65535 = (1, 12) := by decide

/-- V15, V20: at reset, and a driver that does not exist. -/
theorem test_mdGetcur :
    answerOf (.mdGetcur 0) State.reset = (0#3, 106#32) ∧ answerOf (.mdGetcur 1) State.reset = (0#3, 0#32) ∧
    (after (.mdGetcur 1) State.reset).subaddrLog = true ∧ deq 17 1 91 = 1019 ∧ deq 31 0 91 = 3406 := by decide

/-- V21. -/
theorem test_mdSetmres :
    (driverAfter (.mdSetmres 0 32) alone).shadow.drvctrl = 0x00003#20 ∧
    (driverAfter (.mdSetmres 0 (-32768)) alone).shadow.drvctrl = 0x00008#20 := by decide

/-- V21: each side of some thresholds. -/
theorem test_mdSetmres_index :
    [1, 2, 3, 4, 7, 8, 255, 256, 32767].map (fun n : Int => mresIndex n) = [8, 7, 7, 6, 6, 5, 1, 0, 0] := by decide

/-- V22: rows 1, 5 and 9. -/
theorem test_mdChopConst :
    packChopConst 0x80000#20 0 0 0 (-3) true = 0x84002#20 ∧ packChopConst 0x80000#20 127 127 127 127 true = 0x9CFFF#20 ∧
    packChopConst 0x80000#20 5 36 15 13 false = 0x95FF5#20 ∧
    (driverAfter (.mdChopConst 0 7 54 13 12 true) alone).shadow.chopconf = 0x9CFD7#20 ∧
    (driverAfter (.mdChopConst 0 7 54 13 12 true) alone).offCache = 7#4 := by decide

/-- V23: rows 1, 4 and 6. -/
theorem test_mdChopSpread :
    packChopSpread 0x80000#20 0 0 0 (-4) (-1) = 0x80002#20 ∧ packChopSpread 0x80000#20 127 127 127 127 127 = 0x99FFF#20 ∧
    (driverAfter (.mdChopSpread 0 7 54 4 0 1) alone).shadow.chopconf = 0x989B7#20 ∧
    (driverAfter (.mdChopSpread 0 7 54 4 0 1) alone).offCache = 7#4 := by decide

/-- V24: both clamps, and CS left alone. -/
theorem test_mdSgt :
    (driverAfter (.mdSgt 0 64 true) alone).shadow.sgcsconf = 0xD3F00#20 ∧
    (driverAfter (.mdSgt 0 (-65) true) alone).shadow.sgcsconf = 0xD4000#20 ∧
    (driverAfter (.mdSgt 0 (-5) true) (writeShadow 0 .sgcsconf 0xC0011#20 alone)).shadow.sgcsconf = 0xD7B11#20 := by decide

/-- V25: rows 3, 4 and 6. -/
theorem test_mdCoolcfg :
    packCoolcfg 0xA0000#20 481 65535 15 15 15 = 0xAEF6F#20 ∧ packCoolcfg 0xA0000#20 31 32 4 0 2 = 0xAE100#20 ∧
    (driverAfter (.mdCoolcfg 0 100 250 2 1 1) alone).shadow.smarten = 0xAC723#20 ∧
    (driverAfter (.mdCoolcfg 0 100 250 2 1 1) alone).lthrCache = 3#4 := by decide

/-- V26. -/
theorem test_mdCoolen :
    (driverAfter (.mdCoolen 0 false) (writeLthrCache 0 3 (writeShadow 0 .smarten 0xAC723#20 alone))).shadow.smarten = 0xAC720#20 ∧
    (driverAfter (.mdCoolen 0 true) (writeLthrCache 0 3 (writeShadow 0 .smarten 0xAC720#20 alone))).shadow.smarten = 0xAC723#20 := by
  decide

/-- V27. -/
theorem test_mdEnable :
    (driverAfter (.mdEnable 0 false) (writeOffCache 0 7 (writeShadow 0 .chopconf 0x9CFD7#20 alone))).shadow.chopconf = 0x9CFD0#20 ∧
    (driverAfter (.mdEnable 0 true) (writeOffCache 0 7 (writeShadow 0 .chopconf 0x9CFD0#20 alone))).shadow.chopconf = 0x9CFD7#20 := by
  decide

/-- V28: two transmits after a change of selector, one without; selector 3 refused. -/
theorem test_mdRdstat :
    (after (.mdRdstat 0 1) alone).events.length = 778 ∧ (driverAfter (.mdRdstat 0 1) alone).shadow.drvconf = 0xE0010#20 ∧
    (after (.mdRdstat 0 0) alone).events.length = 389 ∧ answerOf (.mdRdstat 0 3) alone = (1#3, 0#32) := by decide +kernel

/-- R74: the second word of a change is for the selector the first transmit wrote. -/
theorem test_mdRdstat_selector :
    (driverAfter (.mdRdstat 0 1) alone).chip.statusSel = some 1 ∧ (driverAfter (.mdRdstat 0 0) alone).chip.statusSel = none := by
  decide

/-- V29: the rows 0x12345 and 0xFFC08, bits 2, 1, 3 and 4. -/
theorem test_mdOtpw : answerOf (.mdOtpw 0) (withStatus 0x12345#20) = (0#3, 1#32) ∧ answerOf (.mdOtpw 0) (withStatus 0xFFC08#20) = (0#3, 0#32) := by decide
theorem test_mdOt : answerOf (.mdOt 0) (withStatus 0x12345#20) = (0#3, 0#32) ∧ answerOf (.mdOt 0) (withStatus 0x00002#20) = (0#3, 1#32) := by decide
theorem test_mdS2ga : answerOf (.mdS2ga 0) (withStatus 0x12345#20) = (0#3, 0#32) ∧ answerOf (.mdS2ga 0) (withStatus 0xFFC08#20) = (0#3, 1#32) := by decide
theorem test_mdS2gb : answerOf (.mdS2gb 0) (withStatus 0xFFC08#20) = (0#3, 0#32) ∧ answerOf (.mdS2gb 0) (withStatus 0x00010#20) = (0#3, 1#32) := by decide

/-- V29: bits 5, 6, 7 and 0. -/
theorem test_mdOla : answerOf (.mdOla 0) (withStatus 0x12345#20) = (0#3, 0#32) ∧ answerOf (.mdOla 0) (withStatus 0x00020#20) = (0#3, 1#32) := by decide
theorem test_mdOlb : answerOf (.mdOlb 0) (withStatus 0x12345#20) = (0#3, 1#32) ∧ answerOf (.mdOlb 0) (withStatus 0xFFC08#20) = (0#3, 0#32) := by decide
theorem test_mdStst : answerOf (.mdStst 0) (withStatus 0x12345#20) = (0#3, 0#32) ∧ answerOf (.mdStst 0) (withStatus 0x00080#20) = (0#3, 1#32) := by decide
theorem test_mdSgreached : answerOf (.mdSgreached 0) (withStatus 0x12345#20) = (0#3, 1#32) ∧ answerOf (.mdSgreached 0) (withStatus 0xFFC08#20) = (0#3, 0#32) := by decide

/-- V29: the readout and the currents, with the half reference too. -/
theorem test_mdSgval : answerOf (.mdSgval 0) (withStatus 0x12345#20) = (0#3, 72#32) ∧ answerOf (.mdSgval 0) (withStatus 0xFFC08#20) = (0#3, 1023#32) := by decide
theorem test_mdMstep : answerOf (.mdMstep 0) (withStatus 0x3A400#20) = (0#3, 233#32) ∧ answerOf (.mdMstep 0) (withStatus 0x12345#20) = (0#3, 72#32) := by decide
theorem test_mdActcur :
    answerOf (.mdActcur 0) (withStatus 0x12345#20) = (0#3, 958#32) ∧ answerOf (.mdActcur 0) (withStatus 0x3A400#20) = (0#3, 1064#32) ∧
    answerOf (.mdActcur 0) (writeShadow 0 .drvconf 0xE0040#20 (withStatus 0x12345#20)) = (0#3, 509#32) := by decide

/-- R252, R274: an output is unknown while the enable line is, and shows its latch once BUS_INIT has made enable active. -/
theorem test_chainOutput :
    chainOutput State.reset.wires 0 = .unknown ∧ chainOutput (after (.busInit 1) State.reset).wires 0 = .driven none ∧
    chainOutput { State.reset.wires with en := some false } 0 = .notDriven := by decide

/-- V16: the bytes out and the word stored. -/
theorem test_framing :
    datagram 0x9CFD7#20 = .xfer 0x09#8 0xCF#8 0xD7#8 ∧ datagram 0xE0040#20 = .xfer 0x0E#8 0x00#8 0x40#8 ∧
    capture 0x12#8 0x34#8 0x56#8 = 0x12345#20 ∧ capture 0x00#8 0x00#8 0x0F#8 = 0#20 ∧ capture 0xFF#8 0xFF#8 0xFF#8 = 0xFFFFF#20 := by
  decide

/-- V16, V17: a failure leaves STATUS and still sends both commits; the two refusals send nothing and still write the shadow. -/
theorem test_transmit_errors :
    answerOf (.mdSetmres 0 32) failing = (4#3, 0#32) ∧ (after (.mdSetmres 0 32) failing).events.length = 389 ∧
    answerOf (.mdSetmres 0 32) State.reset = (2#3, 0#32) ∧ (after (.mdSetmres 0 32) State.reset).events = [] ∧
    (driverAfter (.mdSetmres 0 32) State.reset).shadow.drvctrl = 0x00003#20 ∧
    answerOf (.mdSetmres 0 32) (bench [⟨91, 40⟩] [] []) = (1#3, 0#32) := by decide +kernel

/-! ## The hypotheses of the statements can be met -/

/-- A state with one word at its port. -/
def withWord (w : Word) (s : State) : State := { s with port := [w] }

/-- The state a step leaves; the reset state if it stops. -/
def stepped (s : State) : State :=
  match step s with
  | .next t => t
  | .fault _ => State.reset
  | .refused _ => State.reset

theorem signatureInv_bench (ws : List Wiring) (buf : List Host.Cell) (inbound : List XferAnswer) (w : Word) :
    SignatureInv (withWord w (bench ws buf inbound)) := by
  refine ⟨?_, by simp [withWord, bench, State.resetWith]⟩
  intro d r hd
  have hd' : d < ws.length := by simpa [withWord, bench, State.resetWith] using hd
  have : (withWord w (bench ws buf inbound)).driver d = Driver.reset Config.exampleParams ws[d] := by
    simp [State.driver, withWord, bench, State.resetWith, List.getD_eq_getElem?_getD, hd']
  rw [this]
  have key : ∀ r, ((getReg Config.signatureOnly r).extractLsb 19 17).toNat = signature r := by
    intro r
    cases r <;> decide
  exact key r

theorem busInv_bench (ws : List Wiring) (buf : List Host.Cell) (inbound : List XferAnswer) (w : Word) :
    BusInv (withWord w (bench ws buf inbound)) := by
  refine ⟨nofun, fun _ => ?_⟩
  refine ⟨?_, ?_, rfl, rfl, rfl, rfl, ?_, ?_⟩ <;>
    simp [withWord, bench, State.resetWith, idleWires, Config.exampleParams]

theorem witness_ResetLeavesTableValues : 0 < Config.exampleWirings.length := by decide

theorem witness_ResetMeetsInvariants :
    Config.exampleParams.legal = true ∧ (Config.exampleParams.resets.drvctrl.extractLsb 3 0).toNat ≤ 8 ∧
    (Config.exampleParams.resets.drvconf.extractLsb 5 4).toNat ≤ 2 := by decide

theorem witness_ResetReadings :
    0 < Config.exampleWirings.length ∧ (Config.exampleParams.resets.sgcsconf.extractLsb 4 0).toNat = 0 ∧
    (Config.exampleParams.resets.drvconf.extractLsb 6 6).toNat = 0 := by decide

theorem witness_StepKeepsMemoryCanonical :
    MemoryInv (withWord 0x020000000000001F#64 alone) ∧ ∃ t, step (withWord 0x020000000000001F#64 alone) = .next t :=
  ⟨⟨by decide, by decide⟩, stepped (withWord 0x020000000000001F#64 alone), rfl⟩

theorem witness_StepKeepsBusCoherent :
    BusInv (withWord 0x0400000000000000#64 alone) ∧ ∃ t, step (withWord 0x0400000000000000#64 alone) = .next t :=
  ⟨busInv_bench _ _ _ _, stepped (withWord 0x0400000000000000#64 alone), rfl⟩

theorem witness_StepKeepsSignatures :
    SignatureInv (withWord 0x1200000000000020#64 alone) ∧ ∃ t, step (withWord 0x1200000000000020#64 alone) = .next t :=
  ⟨signatureInv_bench _ _ _ _, stepped (withWord 0x1200000000000020#64 alone), rfl⟩

theorem witness_StepKeepsLegalFieldValues :
    FieldInv (withWord 0x1200000000000020#64 alone) ∧ ∃ t, step (withWord 0x1200000000000020#64 alone) = .next t := by
  refine ⟨?_, stepped (withWord 0x1200000000000020#64 alone), rfl⟩
  intro d hd
  have : d = 0 := by simpa [withWord, alone, bench, State.resetWith] using hd
  subst this
  decide

theorem witness_StepKeepsResponseRecord :
    ResponseInv (withWord 0x0500000000000000#64 alone) ∧ ∃ t, step (withWord 0x0500000000000000#64 alone) = .next t :=
  ⟨⟨by decide, by simp [withWord, alone, bench, State.resetWith]⟩, stepped (withWord 0x0500000000000000#64 alone), rfl⟩

theorem witness_UnwrittenBitsNeverChange :
    0 < alone.drivers.length ∧ ∃ t, step (withWord 0x10000000000003E8#64 alone) = .next t :=
  ⟨by decide, stepped (withWord 0x10000000000003E8#64 alone), rfl⟩

theorem witness_ParametersNeverChange : ∃ t, step (withWord 0x10000000000003E8#64 alone) = .next t :=
  ⟨stepped (withWord 0x10000000000003E8#64 alone), rfl⟩

/-- The clauses: the smallest board count that halts; the step that halts; a halted state. -/
theorem witness_OnlyOversizeInitHalts :
    (State.reset.halted = false ∧ (withWord 0x0100000000000009#64 State.reset).port = [0x0100000000000009#64] ∧
      decode 0x0100000000000009#64 = .legal (.busInit 9) ∧ State.reset.params.maxBoards < 9 ∧
      State.reset.busState = .uninitialized) ∧
    (∃ t, step (withWord 0x0100000000000009#64 State.reset) = .next t ∧ t.halted = true) ∧
    (stepped (withWord 0x0100000000000009#64 State.reset)).halted = true :=
  ⟨by decide, ⟨stepped (withWord 0x0100000000000009#64 State.reset), rfl, by decide⟩, by decide⟩

/-- One word that is answered and one that halts. -/
theorem witness_OneResponsePerWord :
    State.reset.halted = false ∧ (withWord 0x0500000000000000#64 State.reset).port = [0x0500000000000000#64] ∧
    (∃ t, step (withWord 0x0500000000000000#64 State.reset) = .next t ∧ t.halted = false) ∧
    (∃ t, step (withWord 0x0100000000000009#64 State.reset) = .next t ∧ t.halted = true) :=
  ⟨rfl, rfl, ⟨stepped (withWord 0x0500000000000000#64 State.reset), rfl, by decide⟩,
    ⟨stepped (withWord 0x0100000000000009#64 State.reset), rfl, by decide⟩⟩

/-- Each clause: a halted block, a legal word, an illegal one, an idle port. -/
theorem witness_StepRunsTheDecodedWord :
    { State.reset with halted := true }.halted = true ∧
    alone.halted = false ∧ (withWord 0x0400000000000000#64 alone).port = [0x0400000000000000#64] ∧
    decode 0x0400000000000000#64 = .legal .busCommit ∧ decode 0x0400000000000001#64 = .illegal .reservedBit ∧
    State.reset.halted = false ∧ State.reset.port = [] := by decide

theorem witness_DecodeOfEncode :
    Instr.wellFormed (.mdChopConst 15 (-128) 127 (-1) 12 true) = true ∧ Instr.wellFormed (.busIndex 255 255 255) = true := by
  decide

theorem witness_EncodeOfDecode : decode 0x13F000010CFF7F80#64 = .legal (.mdChopConst 15 (-128) 127 (-1) 12 true) := by decide

/-- A row whose mask a word meets, and a word that meets none. -/
theorem witness_LegalWordsAreTheTableRows :
    ("BUS_SETBIT", 0x0200000000000000#64, 0xFFFFFFFFFFFF0000#64) ∈ opcodeTable ∧
    0x0200000000000005#64 &&& 0xFFFFFFFFFFFF0000#64 = 0x0200000000000000#64 ∧
    decode 0x0200000000000005#64 = .legal (.busSetbit 5) ∧ Instr.mnemonic (.busSetbit 5) = "BUS_SETBIT" ∧
    (opcodeTable.all fun row => 0x0700000000000000#64 &&& row.2.2 != row.2.1) = true ∧
    decode 0x0700000000000000#64 = .illegal .unassignedOpcode := by decide +kernel

/-- The four clauses at their edges, with `MAX_BOARDS = 8`. -/
theorem witness_BusInitAllocatesZeroedBuffer :
    0 < 1 ∧ alone.busState = .ready ∧ State.reset.busState = .uninitialized ∧ State.reset.params.maxBoards < 9 ∧
    1 ≤ 8 ∧ 8 ≤ State.reset.params.maxBoards := by decide

theorem witness_SetAndClearWriteOneBit :
    State.reset.busState = .uninitialized ∧ alone.busState = .ready ∧ 32 * alone.nb ≤ 32 ∧ 31 < 32 * alone.nb := by decide

theorem witness_CommitSendsHighestBitFirst :
    State.reset.busState = .uninitialized ∧ alone.busState = .ready ∧ 1 ≤ alone.nb := by decide

/-- The first and the last clock of one board. -/
theorem witness_CommitEventCounts : 1 ≤ 1 ∧ 1 ≤ 32 * 1 ∧ 1 ≤ 32 ∧ 32 ≤ 32 * 1 := by decide

theorem witness_CommitPublishesTheBuffer :
    alone.busState = .ready ∧ BusInv (withWord 0#64 alone) ∧ (∃ t, exec .busCommit (withWord 0#64 alone) = .next t) ∧
    0 < 32 * alone.nb ∧ 31 < 32 * alone.nb :=
  ⟨rfl, busInv_bench _ _ _ _, ⟨after .busCommit (withWord 0#64 alone), rfl⟩, by decide, by decide⟩

/-- A prefix without the strobe, and the whole. -/
theorem witness_LatchesChangeOnlyAtTheStrobe :
    ([] ++ commitEvents [] 0 = commitEvents [] 0 ∧ Event.stb true ∉ ([] : List Event)) ∧
    (commitEvents [] 0 ++ [] = commitEvents [] 0 ∧ Event.stb true ∈ commitEvents [] 0) := by decide

theorem witness_TeardownReleasesTheBuffer : State.reset.busState = .uninitialized ∧ alone.busState = .ready := by decide

/-- Each range at its first bad value, and the last good index. -/
theorem witness_IndexMapIsABijection :
    State.reset.busState = .uninitialized ∧ alone.busState = .ready ∧ 0 < 1 ∧ alone.nb < 2 ∧ 4 < 5 ∧ 7 < 8 ∧
    1 ≤ alone.nb ∧ 1 ≤ 4 ∧ 4 ≤ 4 ∧ 7 ≤ 7 ∧ 31 < 32 * alone.nb := by decide

theorem witness_BusCommandsLeaveDriversAlone : Instr.target .busCommit = none ∧ ∃ t, exec .busCommit alone = .next t :=
  ⟨rfl, after .busCommit alone, rfl⟩

/-- Both sides of the half-reference test (V18). -/
theorem witness_SetCurrentPacksScale :
    0 < alone.drivers.length ∧ (64 * (((alone.driver 0).wiring.rsense : Nat) : Int) * (1756 : Nat) - 310000) / 620000 < 16 ∧
    16 ≤ (64 * (((alone.driver 0).wiring.rsense : Nat) : Int) * (1757 : Nat) - 310000) / 620000 := by decide

theorem witness_GetCurrentDequantizes : 0 < alone.drivers.length := by decide

theorem witness_CurrentRoundTripWithinOneStep :
    0 < alone.drivers.length ∧ (alone.driver 0).wiring.rsense = 91 ∧ 100 ≤ 100 ∧ 100 ≤ 2000 ∧ 100 ≤ 2000 ∧ 2000 ≤ 2000 := by
  decide

theorem witness_MicrostepIndexFollowsTheTable : 0 < alone.drivers.length := by decide

theorem witness_ConstantOffTimeChopperPacks : 0 < alone.drivers.length := by decide

theorem witness_SpreadCycleChopperPacks : 0 < alone.drivers.length := by decide

theorem witness_StallGuardThresholdIsSignedSevenBits : 0 < alone.drivers.length := by decide

theorem witness_CoolStepConfigPacks : 0 < alone.drivers.length := by decide

theorem witness_CoolStepEnableRestoresTheCache : 0 < alone.drivers.length := by decide

theorem witness_DriverEnableRestoresTheCache : 0 < alone.drivers.length := by decide

theorem witness_EncodersAreIdempotent :
    Instr.transmits (.mdEnable 0 true) = true ∧ (∃ t, exec (.mdEnable 0 true) alone = .next t ∧
      ∃ u, exec (.mdEnable 0 true) t = .next u) :=
  ⟨rfl, after (.mdEnable 0 true) alone, rfl, after (.mdEnable 0 true) (after (.mdEnable 0 true) alone), rfl⟩

/-- Both grounds of a refusal: no bus; a chip-select bit at the first index past the buffer. -/
theorem witness_RefusedTransmitOnlyWritesShadows :
    Instr.transmits (.mdSetcur 0 1000) = true ∧ Instr.target (.mdSetcur 0 1000) = some 0 ∧
    (∀ sel, Instr.mdSetcur 0 1000 = .mdRdstat 0 sel → sel ≠ 3) ∧
    (0 < (withWord 0#64 (bench [⟨91, 32⟩] [] [])).drivers.length ∧ SignatureInv (withWord 0#64 (bench [⟨91, 32⟩] [] [])) ∧
      32 * 1 ≤ ((withWord 0#64 (bench [⟨91, 32⟩] [] [])).driver 0).wiring.csBit) ∧
    (0 < State.reset.drivers.length ∧ SignatureInv State.reset ∧ State.reset.busState = .uninitialized) ∧
    (Instr.transmits (.mdRdstat 0 2) = true ∧ ∀ sel, Instr.mdRdstat 0 2 = .mdRdstat 0 sel → sel ≠ 3) := by
  refine ⟨rfl, rfl, nofun, ⟨by decide, signatureInv_bench _ _ _ _, by decide⟩,
    ⟨by decide, ⟨?_, by simp [State.reset, State.resetWith]⟩, rfl⟩, rfl, by simp⟩
  intro d r hd
  have : d = 0 := by simpa [State.reset, State.resetWith, Config.exampleWirings] using hd
  subst this
  cases r <;> decide

theorem canSend_alone : CanSend alone 0 := ⟨by decide, rfl, by decide⟩

theorem witness_TransmitSendsAndCaptures :
    oneShot (.mdSetmres 0 32) = some (0, .drvctrl) ∧ CanSend alone 0 ∧ nextAnswer alone = .bytes 0x12#8 0x34#8 0x56#8 :=
  ⟨rfl, canSend_alone, rfl⟩

theorem witness_FailedTransferDeselectsAndKeepsStatus :
    oneShot (.mdSetmres 0 32) = some (0, .drvctrl) ∧ CanSend failing 0 ∧ nextAnswer failing = .fail :=
  ⟨rfl, ⟨by decide, rfl, by decide⟩, rfl⟩

/-- The three ways two transfers go: the first fails, the second fails, both answer. -/
theorem witness_SetCurrentSendsTwoRegisters :
    CanSend alone 0 ∧ CanSend failing 0 ∧ nextAnswer failing = .fail ∧
    (nextAnswer { alone with inbound := [.bytes 1#8 2#8 3#8, .fail] } = .bytes 1#8 2#8 3#8 ∧
      nextAnswer (afterOneAnswer { alone with inbound := [.bytes 1#8 2#8 3#8, .fail] }) = .fail) ∧
    nextAnswer alone = .bytes 0x12#8 0x34#8 0x56#8 ∧ nextAnswer (afterOneAnswer alone) = .bytes 0x12#8 0x34#8 0x56#8 :=
  ⟨canSend_alone, ⟨by decide, rfl, by decide⟩, rfl, ⟨rfl, rfl⟩, rfl, rfl⟩

theorem witness_TransmitPublishesPendingChanges :
    (Instr.transmits (.mdSetmres 0 32) = true ∧ Instr.target (.mdSetmres 0 32) = some 0 ∧
      ∃ t, exec (.mdSetmres 0 32) (withWord 0#64 alone) = .next t) ∧
    (Instr.transmits (.mdSetcur 0 1000) = true ∧ ∃ t, exec (.mdSetcur 0 1000) (withWord 0#64 alone) = .next t) ∧
    (Instr.transmits (.mdRdstat 0 2) = true ∧ (∀ sel, Instr.mdRdstat 0 2 = .mdRdstat 0 sel → sel ≠ 3) ∧
      ∃ t, exec (.mdRdstat 0 2) (withWord 0#64 alone) = .next t) ∧
    CanSend (withWord 0#64 alone) 0 ∧ BusInv (withWord 0#64 alone) ∧ 0 < 32 * alone.nb ∧ 31 < 32 * alone.nb :=
  ⟨⟨rfl, rfl, after (.mdSetmres 0 32) (withWord 0#64 alone), rfl⟩, ⟨rfl, after (.mdSetcur 0 1000) (withWord 0#64 alone), rfl⟩,
    ⟨rfl, by simp, after (.mdRdstat 0 2) (withWord 0#64 alone), rfl⟩, ⟨by decide, rfl, by decide⟩, busInv_bench _ _ _ _, by decide,
    by decide⟩

theorem soleSelect_pair (w : Word) (answers : List XferAnswer) : SoleSelect (withWord w { pair with inbound := answers }) 0 := by
  intro e he hne
  have he' : e < 2 := by simpa [withWord, pair, bench, State.resetWith] using he
  have : e = 1 := by omega
  subst this
  refine ⟨by show 8 < 32; decide, by show 8 ≠ 0; decide, by show Memory.readBit [(0, 1#8), (1, 1#8)] 8 = true; decide⟩

/-- A command of one register, MD_SETCUR and MD_RDSTAT, each answered. -/
theorem witness_AnsweredTransmitMakesTheChipAgree :
    CanSend (withWord 0#64 pair) 0 ∧ SoleSelect (withWord 0#64 pair) 0 ∧ SignatureInv (withWord 0#64 pair) ∧
    (oneShot (.mdSetmres 0 32) = some (0, .drvctrl) ∧
      ∃ t, exec (.mdSetmres 0 32) (withWord 0#64 pair) = .next t ∧ t.respStatus = 0#3) ∧
    (Instr.transmits (.mdSetcur 0 1000) = true ∧ Instr.target (.mdSetcur 0 1000) = some 0 ∧
      ∃ t, exec (.mdSetcur 0 1000) (withWord 0#64 pair) = .next t ∧ t.respStatus = 0#3) ∧
    ∃ t, exec (.mdRdstat 0 1) (withWord 0#64 pair) = .next t ∧ t.respStatus = 0#3 :=
  ⟨⟨by decide, rfl, by decide⟩, soleSelect_pair 0#64 pair.inbound, signatureInv_bench _ _ _ _,
    ⟨rfl, after (.mdSetmres 0 32) (withWord 0#64 pair), rfl, rfl⟩,
    ⟨rfl, rfl, after (.mdSetcur 0 1000) (withWord 0#64 pair), rfl, rfl⟩, after (.mdRdstat 0 1) (withWord 0#64 pair), rfl, rfl⟩

/-- Two drivers as in `pair`, with other answers. -/
def pairWith (answers : List XferAnswer) : State := withWord 0#64 { pair with inbound := answers }

/-- A command of one register, MD_RDSTAT, and MD_SETCUR on its first transfer, fail on the first answer; MD_SETCUR on its second. -/
theorem witness_FailedTransferLeavesTheChipUnknown :
    (CanSend (pairWith [.fail]) 0 ∧ SoleSelect (pairWith [.fail]) 0 ∧ SignatureInv (pairWith [.fail]) ∧
      nextAnswer (pairWith [.fail]) = .fail ∧
      (oneShot (.mdSetmres 0 32) = some (0, .drvctrl) ∧
        ∃ t, exec (.mdSetmres 0 32) (pairWith [.fail]) = .next t ∧ t.respStatus = 4#3) ∧
      (∃ t, exec (.mdSetcur 0 1000) (pairWith [.fail]) = .next t ∧ t.respStatus = 4#3) ∧
      ∃ t, exec (.mdRdstat 0 1) (pairWith [.fail]) = .next t ∧ t.respStatus = 4#3) ∧
    (CanSend (pairWith [.bytes 1#8 2#8 3#8, .fail]) 0 ∧ SoleSelect (pairWith [.bytes 1#8 2#8 3#8, .fail]) 0 ∧
      SignatureInv (pairWith [.bytes 1#8 2#8 3#8, .fail]) ∧ nextAnswer (pairWith [.bytes 1#8 2#8 3#8, .fail]) ≠ .fail ∧
      ∃ t, exec (.mdSetcur 0 1000) (pairWith [.bytes 1#8 2#8 3#8, .fail]) = .next t ∧ t.respStatus = 4#3) :=
  ⟨⟨⟨by decide, rfl, by decide⟩, soleSelect_pair _ _, signatureInv_bench [⟨91, 0⟩, ⟨91, 8⟩] [(0, 1#8), (1, 1#8)] [.fail] _, rfl,
      ⟨rfl, after (.mdSetmres 0 32) (pairWith [.fail]), rfl, rfl⟩, ⟨after (.mdSetcur 0 1000) (pairWith [.fail]), rfl, rfl⟩,
      after (.mdRdstat 0 1) (pairWith [.fail]), rfl, rfl⟩,
    ⟨by decide, rfl, by decide⟩, soleSelect_pair _ _,
    signatureInv_bench [⟨91, 0⟩, ⟨91, 8⟩] [(0, 1#8), (1, 1#8)] [.bytes 1#8 2#8 3#8, .fail] _, nofun,
    after (.mdSetcur 0 1000) (pairWith [.bytes 1#8 2#8 3#8, .fail]), rfl, rfl⟩

theorem witness_SharedSelectLeavesChipsUnknown :
    CanSend contending 0 ∧ 1 ≠ 0 ∧ 1 < contending.drivers.length ∧
    (contending.driver 1).wiring.csBit < 32 * contending.nb ∧
    Memory.readBit contending.buf (contending.driver 1).wiring.csBit = false ∧
    (oneShot (.mdSetmres 0 32) = some (0, .drvctrl) ∧ nextAnswer contending ≠ .fail ∧
      ∃ t, exec (.mdSetmres 0 32) contending = .next t) ∧
    (∃ t, exec (.mdSetcur 0 1000) contending = .next t ∧ t.respStatus = 0#3) ∧
    (∀ sel, Instr.mdRdstat 0 1 = .mdRdstat 0 sel → sel ≠ 3) ∧ ∃ t, exec (.mdRdstat 0 1) contending = .next t :=
  ⟨⟨by decide, rfl, by decide⟩, by decide, by decide, by decide, by decide,
    ⟨rfl, nofun, after (.mdSetmres 0 32) contending, rfl⟩, ⟨after (.mdSetcur 0 1000) contending, rfl, rfl⟩, by simp,
    after (.mdRdstat 0 1) contending, rfl⟩

/-- The clauses: selector 3 with no bus; a legal selector on a Ready bus: the shadow's selector 0, a change to 2 with both answers, with a failure
first, and with one second. -/
theorem witness_ReadStatusTransmitsTwiceOnChange :
    0 < State.reset.drivers.length ∧ State.reset.busState = .uninitialized ∧ 0 < alone.drivers.length ∧ 2 < 3 ∧ CanSend alone 0 ∧
    ((alone.driver 0).shadow.drvconf.extractLsb 5 4).toNat = 0 ∧
    ((alone.driver 0).shadow.drvconf.extractLsb 5 4).toNat ≠ 2 ∧ nextAnswer failing = .fail ∧ CanSend failing 0 ∧
    nextAnswer alone = .bytes 0x12#8 0x34#8 0x56#8 ∧ nextAnswer (afterOneAnswer alone) = .bytes 0x12#8 0x34#8 0x56#8 ∧
    nextAnswer (afterOneAnswer { alone with inbound := [.bytes 1#8 2#8 3#8, .fail] }) = .fail :=
  ⟨by decide, rfl, by decide, by decide, canSend_alone, by decide, by decide, rfl, ⟨by decide, rfl, by decide⟩, rfl, rfl, rfl⟩

/-- A change of selector; and a chip known to hold the shadow's. -/
theorem witness_ReadStatusLatchesTheRequestedReadout :
    CanSend (withWord 0#64 pair) 0 ∧ SoleSelect (withWord 0#64 pair) 0 ∧ SignatureInv (withWord 0#64 pair) ∧ 1 < 3 ∧
    (∃ t, exec (.mdRdstat 0 1) (withWord 0#64 pair) = .next t ∧ t.respStatus = 0#3) ∧
    (((withWord 0#64 pair).driver 0).shadow.drvconf.extractLsb 5 4).toNat ≠ 1 ∧
    (driverAfter (.mdRdstat 0 1) (withWord 0#64 pair)).chip.selector = some 1 := by
  refine ⟨⟨by decide, rfl, by decide⟩, soleSelect_pair 0#64 pair.inbound, signatureInv_bench _ _ _ _, by decide,
    ⟨after (.mdRdstat 0 1) (withWord 0#64 pair), rfl, by decide +kernel⟩, by decide, by decide +kernel⟩

theorem witness_BooleanAccessorsReadStatusBits :
    0 < alone.drivers.length ∧ (Instr.mdSgreached 0, 0) ∈ [(Instr.mdOtpw 0, 2), (.mdSgreached 0, 0)] := by decide

theorem witness_NumericAccessorsReadTheReadout : 0 < alone.drivers.length := by decide

/-- The first driver number past the last. -/
theorem witness_InvalidSubaddressIsALoggedNoOp :
    Instr.target (.mdActcur 1) = some 1 ∧ alone.drivers.length ≤ 1 ∧ Instr.target (.mdActcur 15) = some 15 ∧
    alone.drivers.length ≤ 15 := by decide

theorem witness_RegistersAreWrittenOnlyByTheirCommands :
    (∃ t, exec (.mdSetmres 0 32) pair = .next t) ∧ writesReg (.mdSetmres 0 32) 0 .chopconf = false ∧
    writesReg (.mdSetmres 0 32) 1 .drvctrl = false ∧ writesOffCache (.mdSetmres 0 32) 0 = false ∧
    writesLthrCache (.mdSetmres 0 32) 0 = false :=
  ⟨⟨after (.mdSetmres 0 32) pair, rfl⟩, by decide, by decide, by decide, by decide⟩

theorem witness_StatusIsWrittenOnlyByTransmit :
    (∃ t, exec (.mdSetmres 0 32) pair = .next t) ∧ Instr.target (.mdSetmres 0 32) ≠ some 1 ∧
    (∃ t, exec (.mdSgval 0) pair = .next t) ∧ Instr.transmits (.mdSgval 0) = false :=
  ⟨⟨after (.mdSetmres 0 32) pair, rfl⟩, by decide, ⟨after (.mdSgval 0) pair, rfl⟩, rfl⟩

theorem witness_OnlyTheStoredBitOfTheBufferChanges :
    (∀ nb, Instr.busSetbit 31 ≠ .busInit nb) ∧ Instr.busSetbit 31 ≠ .busTeardown ∧ (∃ t, exec (.busSetbit 31) alone = .next t) ∧
    (∀ a, storedBit (.busSetbit 31) alone = some a → 30 ≠ a) ∧ (∀ a, storedBit (.busSetbit 31) alone = some a → 0 ≠ a / 8) := by
  refine ⟨nofun, nofun, ⟨after (.busSetbit 31) alone, rfl⟩, ?_, ?_⟩ <;>
    · intro a h
      cases h
      decide

theorem witness_BlockStateFrame :
    (∃ t, exec (.mdSgval 0) alone = .next t) ∧ (∀ nb, Instr.mdSgval 0 ≠ .busInit nb) ∧ Instr.mdSgval 0 ≠ .busTeardown ∧
    (∀ d, Instr.target (.mdSgval 0) = some d → d < alone.drivers.length) ∧ Instr.mdSgval 0 ≠ .busCommit ∧
    Instr.transmits (.mdSgval 0) = false := by
  refine ⟨⟨after (.mdSgval 0) alone, rfl⟩, nofun, nofun, ?_, nofun, rfl⟩
  intro d h
  cases h
  decide

/-- The same driver with no bus, refused, and on a Ready bus, answered. -/
theorem witness_ShadowsDoNotDependOnTheTransmit :
    Instr.transmits (.mdRdstat 0 2) = true ∧ Instr.target (.mdRdstat 0 2) = some 0 ∧ 0 < State.reset.drivers.length ∧
    0 < alone.drivers.length ∧ (alone.driver 0).shadow = (State.reset.driver 0).shadow ∧
    (alone.driver 0).offCache = (State.reset.driver 0).offCache ∧ (alone.driver 0).lthrCache = (State.reset.driver 0).lthrCache ∧
    (alone.driver 0).wiring.rsense = (State.reset.driver 0).wiring.rsense ∧
    (∃ t, exec (.mdRdstat 0 2) State.reset = .next t ∧ t.respStatus = 2#3) ∧
    ∃ t, exec (.mdRdstat 0 2) alone = .next t ∧ t.respStatus = 0#3 :=
  ⟨rfl, rfl, by decide, by decide, rfl, rfl, rfl, rfl, ⟨after (.mdRdstat 0 2) State.reset, rfl, rfl⟩,
    after (.mdRdstat 0 2) alone, rfl, rfl⟩

end Sys2Proof.Tests
end

section
/-! PROOFS. The scope of the block: no step changes what the block was built with (00_scope R7, 70 R273), and the invariants hold at reset
(10_state R44, 70 R271). -/

namespace Sys2Proof.Machine

open Sys2Proof.Safety

/-! ## What the block was built with -/

/-- `t` is built like `s`: the parameters, the number of instances and the wiring of each are those of `s` (R7). -/
def SameBuild (s t : State) : Prop :=
  t.params = s.params ∧ t.drivers.length = s.drivers.length ∧ ∀ d, (t.driver d).wiring = (s.driver d).wiring

theorem SameBuild.refl (s : State) : SameBuild s s := ⟨rfl, rfl, fun _ => rfl⟩

theorem SameBuild.trans {s t u : State} (h : SameBuild s t) (h' : SameBuild t u) : SameBuild s u :=
  ⟨h'.1.trans h.1, h'.2.1.trans h.2.1, fun d => (h'.2.2 d).trans (h.2.2 d)⟩

theorem sameBuild_of_drivers {s t : State} (hp : t.params = s.params) (hd : t.drivers = s.drivers) : SameBuild s t :=
  ⟨hp, by rw [hd], fun d => by rw [driver_eq_of_drivers hd]⟩

theorem respond_sameBuild (st : Status) (r : BitVec 32) (s : State) : SameBuild s (respond st r s) :=
  sameBuild_of_drivers rfl rfl

theorem setDriver_packed_sameBuild {i : Instr} {d : Nat} (hi : i.target = some d) (s : State) :
    SameBuild s (setDriver d (packed i (s.driver d)) s) :=
  ⟨rfl, setDriver_length .., setDriver_packed_wiring hi s⟩

theorem transmit_sameBuild (d : Nat) (v : Reg20) (s : State) : SameBuild s (transmit d v s).1 := by
  obtain ⟨hparams, -, -, -, -, -, -, -, -, hlength⟩ := transmit_frame d v s
  refine ⟨hparams, hlength, fun e => ?_⟩
  obtain ⟨-, -, -, hwiring⟩ := transmit_driver_frame d v s e
  exact hwiring

theorem exec_sameBuild {i : Instr} {s t : State} (h : exec i s = .next t) : SameBuild s t := by
  cases hi : i.target with
  | none =>
    obtain ⟨hdrivers, hparams, -⟩ := exec_bus_frame hi h
    exact sameBuild_of_drivers hparams hdrivers
  | some d =>
    refine exec_md_keeps hi h (SameBuild.refl s) ?respondOk ?respondError ?log ?pack ?send
    case respondOk => exact fun _ _ hu => hu.trans (respond_sameBuild ..)
    case respondError => exact fun _ _ hu => hu.trans (respond_sameBuild ..)
    case log => exact fun _ hu => hu.trans (sameBuild_of_drivers rfl rfl)
    case pack => exact fun _ => setDriver_packed_sameBuild hi s
    case send => exact fun _ _ _ hu => hu.trans (transmit_sameBuild ..)

theorem step_sameBuild {s t : State} (h : step s = .next t) : SameBuild s t := by
  refine step_keeps h (SameBuild.refl s) ?takeWord ?illegal ?command
  case takeWord => exact fun _ hu => hu.trans (sameBuild_of_drivers rfl rfl)
  case illegal => exact fun _ hu => hu.trans (respond_sameBuild ..)
  case command => exact fun _ _ _ hu he => hu.trans (exec_sameBuild he)

/-- Settles O10: every command is built from responses, the sub-address log, packing and transmits, and none of them changes what the block
was built with. -/
theorem parametersNeverChange : Obligations.ParametersNeverChange := fun _ _ h => step_sameBuild h

/-! ## Reset -/

theorem resetWith_length (p : Params) (ws : List Wiring) : (State.resetWith p ws).drivers.length = ws.length :=
  List.length_map ..

theorem resetWith_driver (p : Params) {ws : List Wiring} {d : Nat} (h : d < ws.length) :
    (State.resetWith p ws).driver d = Driver.reset p ws[d] := by
  simp [State.driver, State.resetWith, List.getD_eq_getElem?_getD, h]

/-- The signature bits of a register are its highest ones. -/
theorem extractLsb_signature (v : Reg20) : (v.extractLsb 19 17).toNat = v.toNat / 2 ^ 17 := by
  have hv := v.isLt
  rw [← getf_eq_extractLsb]
  exact Nat.mod_eq_of_lt (Nat.div_lt_of_lt_mul (by simpa [Field.width] using hv))

/-- Legal `RESET_*` patterns hold their signatures (R7, R25). -/
theorem resets_signature {p : Params} (h : p.legal = true) (r : Reg) :
    ((getReg p.resets r).extractLsb 19 17).toNat = signature r := by
  simp only [Params.legal, Bool.and_eq_true, decide_eq_true_eq] at h
  obtain ⟨⟨⟨⟨-, hdrvctrl⟩, hchopconf⟩, hsmarten⟩, hsgcsconf⟩ := h.1
  rw [extractLsb_signature]
  cases r with
  | drvctrl => exact hdrvctrl
  | chopconf => exact hchopconf
  | smarten => exact hsmarten
  | sgcsconf => exact hsgcsconf
  | drvconf => exact h.2

theorem memoryInv_reset (p : Params) (ws : List Wiring) : MemoryInv (State.resetWith p ws) :=
  ⟨Memory.wf_reset p ws, nofun⟩

theorem busInv_reset (p : Params) (ws : List Wiring) : BusInv (State.resetWith p ws) :=
  ⟨fun _ => ⟨rfl, rfl⟩, nofun⟩

theorem signatureInv_reset {p : Params} (h : p.legal = true) (ws : List Wiring) : SignatureInv (State.resetWith p ws) := by
  refine ⟨fun d r hd => ?_, nofun⟩
  rw [resetWith_length] at hd
  rw [resetWith_driver p hd]
  exact resets_signature h r

theorem fieldInv_reset {p : Params} (hmres : (p.resets.drvctrl.extractLsb 3 0).toNat ≤ 8)
    (hrdsel : (p.resets.drvconf.extractLsb 5 4).toNat ≤ 2) (ws : List Wiring) : FieldInv (State.resetWith p ws) := by
  intro d hd
  rw [resetWith_length] at hd
  rw [resetWith_driver p hd]
  have hoff : (0#4) ≠ 1#4 := by decide
  exact ⟨hmres, hrdsel, hoff⟩

theorem responseInv_reset (p : Params) (ws : List Wiring) : ResponseInv (State.resetWith p ws) := ⟨rfl, nofun⟩

/-- Settles O2: nothing is stored, sent or answered at reset, and the registers hold the legal `RESET_*`. -/
theorem resetMeetsInvariants : Obligations.ResetMeetsInvariants := fun p ws hlegal hmres hrdsel =>
  ⟨memoryInv_reset p ws, busInv_reset p ws, signatureInv_reset hlegal ws, fieldInv_reset hmres hrdsel ws,
    responseInv_reset p ws⟩

end Sys2Proof.Machine
end

section
/-! PROOFS. What a BUS command can do, said once (40_iochain R120 to R129), and how a property of states is shown to be kept by every
command. -/

namespace Sys2Proof.Machine

/-! ## What a BUS command can do -/

/-- The state a successful BUS_INIT leaves before its response (R121). -/
def opened (nb : Nat) (s : State) : State :=
  emit [.dat false, .clk false, .stb false, .en true]
    { s with
      nb := nb, buf := [], busState := .ready
      wires := { s.wires with
        stages := resizeChain (32 * nb) s.wires.stages, latches := resizeChain (32 * nb) s.wires.latches } }

/-- The state a BUS_TEARDOWN of a Ready bus leaves before its response (R126). -/
def released (s : State) : State := { s with busState := .uninitialized, nb := 0, buf := [] }

/-- A BUS command does nothing but respond, or does its work: halt, open, store a bit, commit, release (R120). -/
theorem exec_bus_cases {i : Instr} {s t : State} (hi : i.target = none) (h : exec i s = .next t) :
    (∃ st v, (st = .ok ∨ v = 0#32) ∧ t = respond st v s) ∨
    (∃ nb, i = .busInit nb ∧ s.busState ≠ .ready ∧ s.params.maxBoards < nb ∧ t = { s with halted := true }) ∨
    (∃ nb, i = .busInit nb ∧ s.busState ≠ .ready ∧ 1 ≤ nb ∧ nb ≤ s.params.maxBoards ∧
      t = respond .ok 0#32 (opened nb s)) ∨
    (∃ u b, (i = .busSetbit u ∨ i = .busClearbit u) ∧ s.busState = .ready ∧ u < 32 * s.nb ∧
      t = respond .ok 0#32 (writeBuf u b s)) ∨
    (i = .busCommit ∧ s.busState = .ready ∧ t = respond .ok 0#32 (commitSeq s)) ∨
    (i = .busTeardown ∧ s.busState = .ready ∧ t = respond .ok 0#32 (released s)) := by
  have error (st : Status) (e : raise st s = .next t) : ∃ st v, (st = .ok ∨ v = 0#32) ∧ t = respond st v s :=
    ⟨st, 0#32, .inr rfl, (Host.Outcome.next.inj e).symm⟩
  have ok {v : Nat} {u : State} (e : answer v u = .next t) : t = respond .ok (BitVec.ofNat 32 v) u :=
    (Host.Outcome.next.inj e).symm
  cases i <;> simp only [Instr.target, reduceCtorEq] at hi <;> simp only [exec] at h
  case busInit nb =>
    unfold execBusInit at h
    split_ifs at h with hnb hready hmax
    · exact .inl (error _ h)
    · exact .inl (error _ h)
    · exact .inr (.inl ⟨nb, rfl, hready, hmax, (Host.Outcome.next.inj h).symm⟩)
    · exact .inr (.inr (.inl ⟨nb, rfl, hready, by omega, by omega, ok h⟩))
  case busSetbit u =>
    unfold execBusSetbit at h
    split_ifs at h with hready hu
    · exact .inl (error _ h)
    · exact .inl (error _ h)
    · exact .inr (.inr (.inr (.inl ⟨u, true, .inl rfl, not_not.1 hready, by omega, ok h⟩)))
  case busClearbit u =>
    unfold execBusClearbit at h
    split_ifs at h with hready hu
    · exact .inl (error _ h)
    · exact .inl (error _ h)
    · exact .inr (.inr (.inr (.inl ⟨u, false, .inr rfl, not_not.1 hready, by omega, ok h⟩)))
  case busCommit =>
    unfold execBusCommit at h
    split_ifs at h with hready
    · exact .inl (error _ h)
    · exact .inr (.inr (.inr (.inr (.inl ⟨rfl, not_not.1 hready, ok h⟩))))
  case busTeardown =>
    unfold execBusTeardown at h
    split_ifs at h with hready
    · exact .inr (.inr (.inr (.inr (.inr ⟨rfl, hready, ok h⟩))))
    · exact .inl ⟨_, _, .inl rfl, ok h⟩
  case busIndex board slot offset =>
    unfold execBusIndex at h
    split_ifs at h
    · exact .inl (error _ h)
    · exact .inl (error _ h)
    · exact .inl (error _ h)
    · exact .inl (error _ h)
    · exact .inl ⟨_, _, .inl rfl, ok h⟩

/-! ## Invariants of every command -/

/-- A property of states that every operation a command is built from keeps is kept by every command: responses, the halt, the sub-address
log, what the BUS commands do, packing and transmits of shadow registers. -/
theorem exec_keeps {P : State → Prop} {i : Instr} {s t : State} (h : exec i s = .next t) (hs : P s)
    (hrespond : ∀ st v u, (st = .ok ∨ v = 0#32) → P u → P (respond st v u))
    (hhalt : P { s with halted := true }) (hlog : ∀ u, P u → P { u with subaddrLog := true })
    (hopen : ∀ nb, 1 ≤ nb → nb ≤ s.params.maxBoards → P (opened nb s))
    (hwrite : ∀ u b, u < 32 * s.nb → P (writeBuf u b s))
    (hcommit : s.busState = .ready → P (commitSeq s)) (hrelease : P (released s))
    (hpack : ∀ d, i.target = some d → P (setDriver d (packed i (s.driver d)) s))
    (hsend : ∀ d r u, d < u.drivers.length → P u → P (transmit d (getReg (u.driver d).shadow r) u).1) : P t := by
  cases hi : i.target with
  | none =>
    rcases exec_bus_cases hi h with ⟨st, v, hv, rfl⟩ | ⟨nb, -, -, -, rfl⟩ | ⟨nb, -, -, h1, hmax, rfl⟩ |
      ⟨u, b, -, -, hu, rfl⟩ | ⟨-, hready, rfl⟩ | ⟨-, -, rfl⟩
    · exact hrespond _ _ _ hv hs
    · exact hhalt
    · exact hrespond _ _ _ (.inl rfl) (hopen nb h1 hmax)
    · exact hrespond _ _ _ (.inl rfl) (hwrite u b hu)
    · exact hrespond _ _ _ (.inl rfl) (hcommit hready)
    · exact hrespond _ _ _ (.inl rfl) hrelease
  | some d =>
    exact exec_md_keeps hi h hs (fun _ _ => hrespond _ _ _ (.inl rfl)) (fun _ _ => hrespond _ _ _ (.inr rfl)) hlog
      (fun _ => hpack d hi) (fun r u => hsend d r u)

end Sys2Proof.Machine
end

section
/-! PROOFS. Every step keeps the buffer canonical and the bus coherent (10_state R22, R23, 20_memory R69, 40_iochain R129). -/

namespace Sys2Proof.Machine

open Sys2Proof.Safety

/-! ## The buffer -/

theorem memoryInv_of_buf_eq {s t : State} (hbuf : t.buf = s.buf) (hnb : t.nb = s.nb) (h : MemoryInv s) : MemoryInv t := by
  unfold MemoryInv
  rwa [hbuf, hnb]

theorem memoryInv_of_empty {s : State} (h : s.buf = []) : MemoryInv s := by
  simp [MemoryInv, h, Memory.wf]

theorem memoryInv_transmit (d : Nat) (v : Reg20) {s : State} (h : MemoryInv s) : MemoryInv (transmit d v s).1 := by
  obtain ⟨hwf, hwithin⟩ := transmit_buf_wf d v h.1 h.2
  obtain ⟨-, -, hnb, -⟩ := transmit_frame d v s
  exact ⟨hwf, hnb ▸ hwithin⟩

theorem exec_memoryInv {i : Instr} {s t : State} (h : exec i s = .next t) (hs : MemoryInv s) : MemoryInv t := by
  refine exec_keeps h hs ?respond ?halt ?log ?busInit ?store ?commit ?busTeardown ?pack ?send
  case respond => exact fun _ _ _ _ hu => memoryInv_of_buf_eq rfl rfl hu
  case halt => exact memoryInv_of_buf_eq rfl rfl hs
  case log => exact fun _ hu => memoryInv_of_buf_eq rfl rfl hu
  case busInit => exact fun _ _ _ => memoryInv_of_empty rfl
  case store => exact fun u b hu => ⟨Memory.wf_writeBit hs.1 u b, Memory.within_writeBit hs.2 hu b⟩
  case commit => exact fun _ => memoryInv_of_buf_eq rfl rfl hs
  case busTeardown => exact memoryInv_of_empty rfl
  case pack => exact fun _ _ => memoryInv_of_buf_eq rfl rfl hs
  case send => exact fun d _ _ _ hu => memoryInv_transmit d _ hu

/-- Settles O4: the only operations that replace the buffer are bit writes inside it and emptying it. -/
theorem stepKeepsMemoryCanonical : Obligations.StepKeepsMemoryCanonical := fun _ _ hs h =>
  step_keeps h hs (fun _ => memoryInv_of_buf_eq rfl rfl) (fun _ => memoryInv_of_buf_eq rfl rfl)
    fun _ _ _ hu he => exec_memoryInv he hu

/-! ## The bus -/

/-- What `BusInv` speaks of: the parameters, the bus state, `NB`, the buffer and the wires. -/
theorem busInv_of_bus_eq {s t : State} (hparams : t.params = s.params) (hbus : t.busState = s.busState) (hnb : t.nb = s.nb)
    (hbuf : t.buf = s.buf) (hwires : t.wires = s.wires) (h : BusInv s) : BusInv t := by
  unfold BusInv
  rwa [hparams, hbus, hnb, hbuf, hwires]

theorem busInv_opened {nb : Nat} {s : State} (h1 : 1 ≤ nb) (hmax : nb ≤ s.params.maxBoards) : BusInv (opened nb s) := by
  refine ⟨nofun, fun _ => ⟨h1, hmax, rfl, rfl, rfl, rfl, ?_, ?_⟩⟩
  · simp [opened, Wires.drive]
  · simp [opened, Wires.drive]

theorem busInv_released (s : State) : BusInv (released s) := ⟨fun _ => ⟨rfl, rfl⟩, nofun⟩

/-- A store into the buffer of a Ready bus. -/
theorem busInv_writeBuf {s : State} (u : Nat) (b : Bool) (hu : u < 32 * s.nb) (h : BusInv s) : BusInv (writeBuf u b s) := by
  refine ⟨fun hbus => ?_, h.2⟩
  obtain ⟨hnb, -⟩ := h.1 hbus
  omega

/-- A commit on idle lines leaves them idle and the chain at its length (R124, R252). -/
theorem busInv_commitSeq {s : State} (hready : s.busState = .ready) (h : BusInv s) : BusInv (commitSeq s) := by
  obtain ⟨h1, hmax, hen, hdat, hclk, hstb, hstages, -⟩ := h.2 hready
  refine ⟨h.1, fun _ => ?_⟩
  rw [commitSeq_wires, drive_commitEvents _ _ hclk hstb, shift_stages]
  refine ⟨h1, hmax, hen, ?_, rfl, rfl, ?_, ?_⟩
  · simp [hdat]
  · simp [hstages]
  · simp [hstages]

theorem busInv_transmit {d : Nat} (v : Reg20) {s : State} (hd : d < s.drivers.length) (h : BusInv s) :
    BusInv (transmit d v s).1 := by
  rcases transmit_cases d v s with ⟨-, e⟩ | ⟨-, -, e⟩ | ⟨hready, hcs, -⟩ | ⟨hready, hcs, -⟩
  · rw [e]; exact busInv_of_bus_eq rfl rfl rfl rfl rfl h
  · rw [e]; exact busInv_of_bus_eq rfl rfl rfl rfl rfl h
  · exact (transmit_latches v ⟨hd, hready, hcs⟩ h).1
  · exact (transmit_latches v ⟨hd, hready, hcs⟩ h).1

theorem exec_busInv {i : Instr} {s t : State} (h : exec i s = .next t) (hs : BusInv s) : BusInv t := by
  refine exec_keeps h hs ?respond ?halt ?log ?busInit ?store ?commit ?busTeardown ?pack ?send
  case respond => exact fun _ _ _ _ hu => busInv_of_bus_eq rfl rfl rfl rfl rfl hu
  case halt => exact busInv_of_bus_eq rfl rfl rfl rfl rfl hs
  case log => exact fun _ hu => busInv_of_bus_eq rfl rfl rfl rfl rfl hu
  case busInit => exact fun _ => busInv_opened
  case store => exact fun u b hu => busInv_writeBuf u b hu hs
  case commit => exact fun hready => busInv_commitSeq hready hs
  case busTeardown => exact busInv_released s
  case pack => exact fun _ _ => busInv_of_bus_eq rfl rfl rfl rfl rfl hs
  case send => exact fun _ _ _ hd hu => busInv_transmit _ hd hu

/-- Settles O5: BUS_INIT sets the coherent state up, BUS_TEARDOWN takes it down, and a commit on idle lines ends on idle lines. -/
theorem stepKeepsBusCoherent : Obligations.StepKeepsBusCoherent := fun _ _ hs h =>
  step_keeps h hs (fun _ => busInv_of_bus_eq rfl rfl rfl rfl rfl) (fun _ => busInv_of_bus_eq rfl rfl rfl rfl rfl)
    fun _ _ _ hu he => exec_busInv he hu

end Sys2Proof.Machine
end

section
/-! PROOFS. Every step keeps the signatures of the registers, so that only the five are sent (10_state R25, 20_memory R63, R66), and the
response registers equal to the last response (10_state R40, 30_encoding R92, 60_exceptions R240). -/

namespace Sys2Proof.Machine

open Sys2Proof.Safety

/-! ## What is sent -/

theorem xfer_not_mem_commitEvents (t0 t1 t2 : Byte) (m : List Host.Cell) (nb : Nat) :
    Event.xfer t0 t1 t2 ∉ commitEvents m nb := by
  simp [commitEvents, bitEvents]

/-- The only transfer a transmit adds is that of its own datagram. -/
theorem xfer_mem_transmit_events {d : Nat} {v : Reg20} {s : State} {t0 t1 t2 : Byte}
    (h : Event.xfer t0 t1 t2 ∈ (transmit d v s).1.events) : Event.xfer t0 t1 t2 ∈ s.events ∨ .xfer t0 t1 t2 = datagram v := by
  have exchanged (h : Event.xfer t0 t1 t2 ∈ (exchange d v s).events) :
      Event.xfer t0 t1 t2 ∈ s.events ∨ .xfer t0 t1 t2 = datagram v := by
    simpa only [exchange_events, List.mem_append, List.mem_cons, xfer_not_mem_commitEvents, or_false] using h
  rcases transmit_cases d v s with ⟨-, e⟩ | ⟨-, -, e⟩ | ⟨-, -, -, e⟩ | ⟨-, -, _, _, _, -, e⟩ <;> rw [e] at h
  · exact .inl h
  · exact .inl h
  · exact exchanged h
  · exact exchanged h

/-- The first byte of a datagram is four zero bits, the signature and bit 16 of the value (R66). -/
theorem datagram_first_byte {v : Reg20} {t0 t1 t2 : Byte} (h : .xfer t0 t1 t2 = datagram v) :
    t0.toNat / 2 = (v.extractLsb 19 17).toNat := by
  have hv := v.isLt
  injection h with h0
  rw [h0, extractLsb_signature, BitVec.toNat_ofNat]
  omega

/-! ## The signatures -/

theorem signatureInv_of_drivers_events_eq {s t : State} (hdrivers : t.drivers = s.drivers) (hevents : t.events = s.events)
    (h : SignatureInv s) : SignatureInv t := by
  unfold SignatureInv State.driver
  rw [hdrivers, hevents]
  exact h

/-- Events that are no transfer leave the signatures alone. -/
theorem signatureInv_emit {es : List Event} {s : State} (hes : ∀ t0 t1 t2, Event.xfer t0 t1 t2 ∉ es) (h : SignatureInv s) :
    SignatureInv (emit es s) := by
  refine ⟨h.1, fun t0 t1 t2 hmem => h.2 t0 t1 t2 ?_⟩
  exact (List.mem_append.1 hmem).resolve_right (hes t0 t1 t2)

theorem signatureInv_setDriver_packed (i : Instr) (d : Nat) {s : State} (h : SignatureInv s) :
    SignatureInv (setDriver d (packed i (s.driver d)) s) := by
  refine ⟨fun e r he => ?_, h.2⟩
  have hkeep := driver_modifyDriver_keeps s d e (fun m => (getReg m.shadow r).extractLsb 19 17)
    fun m => packed_signature i m r
  rw [setDriver_length] at he
  rw [← modifyDriver_eq_setDriver s d (packed i), hkeep]
  exact h.1 e r he

theorem signatureInv_transmit {d : Nat} (r : Reg) {s : State} (hd : d < s.drivers.length) (h : SignatureInv s) :
    SignatureInv (transmit d (getReg (s.driver d).shadow r) s).1 := by
  obtain ⟨-, hlength, -⟩ := transmit_sameBuild d (getReg (s.driver d).shadow r) s
  refine ⟨fun e r' he => ?_, fun t0 t1 t2 hmem => ?_⟩
  · rw [(transmit_driver_frame d _ s e).1]
    exact h.1 e r' (hlength ▸ he)
  · rcases xfer_mem_transmit_events hmem with hold | hnew
    · exact h.2 t0 t1 t2 hold
    · exact ⟨r, (datagram_first_byte hnew).trans (h.1 d r hd)⟩

theorem exec_signatureInv {i : Instr} {s t : State} (h : exec i s = .next t) (hs : SignatureInv s) : SignatureInv t := by
  refine exec_keeps h hs ?respond ?halt ?log ?busInit ?store ?commit ?busTeardown ?pack ?send
  case respond => exact fun _ _ _ _ hu => signatureInv_of_drivers_events_eq rfl rfl hu
  case halt => exact signatureInv_of_drivers_events_eq rfl rfl hs
  case log => exact fun _ hu => signatureInv_of_drivers_events_eq rfl rfl hu
  case busInit =>
    exact fun _ _ _ => signatureInv_emit (by simp) (signatureInv_of_drivers_events_eq rfl rfl hs)
  case store => exact fun _ _ _ => signatureInv_of_drivers_events_eq rfl rfl hs
  case commit => exact fun _ => signatureInv_emit (fun _ _ _ => xfer_not_mem_commitEvents _ _ _ _ _) hs
  case busTeardown => exact signatureInv_of_drivers_events_eq rfl rfl hs
  case pack => exact fun d _ => signatureInv_setDriver_packed i d hs
  case send => exact fun _ r _ hd hu => signatureInv_transmit r hd hu

/-- Settles O6: packing keeps the signature bits, and a datagram is a shadow register. -/
theorem stepKeepsSignatures : Obligations.StepKeepsSignatures := fun _ _ hs h =>
  step_keeps h hs (fun _ => signatureInv_of_drivers_events_eq rfl rfl) (fun _ => signatureInv_of_drivers_events_eq rfl rfl)
    fun _ _ _ hu he => exec_signatureInv he hu

/-! ## The response registers -/

theorem code_le_five (st : Status) : st.code ≤ 5#3 := by
  cases st <;> decide

theorem responseInv_of_record_eq {s t : State} (hstatus : t.respStatus = s.respStatus) (hresult : t.respResult = s.respResult)
    (hresponses : t.responses = s.responses) (h : ResponseInv s) : ResponseInv t := by
  unfold ResponseInv
  rwa [hstatus, hresult, hresponses]

/-- A response that is OK or has result 0 becomes the last one of the record (R92). -/
theorem responseInv_respond {st : Status} {v : BitVec 32} {s : State} (hv : st = .ok ∨ v = 0#32) (h : ResponseInv s) :
    ResponseInv (respond st v s) := by
  refine ⟨by simp, fun r hr => ?_⟩
  rw [respond_responses, List.mem_append, List.mem_singleton] at hr
  rcases hr with hold | rfl
  · exact h.2 r hold
  · exact ⟨code_le_five st, fun hne => hv.resolve_left fun hok => hne (hok ▸ rfl)⟩

theorem responseInv_transmit (d : Nat) (v : Reg20) {s : State} (h : ResponseInv s) : ResponseInv (transmit d v s).1 := by
  obtain ⟨-, -, -, -, -, hstatus, hresult, -, hresponses, -⟩ := transmit_frame d v s
  exact responseInv_of_record_eq hstatus hresult hresponses h

theorem exec_responseInv {i : Instr} {s t : State} (h : exec i s = .next t) (hs : ResponseInv s) : ResponseInv t := by
  refine exec_keeps h hs ?respond ?halt ?log ?busInit ?store ?commit ?busTeardown ?pack ?send
  case respond => exact fun _ _ _ hv hu => responseInv_respond hv hu
  case halt => exact responseInv_of_record_eq rfl rfl rfl hs
  case log => exact fun _ hu => responseInv_of_record_eq rfl rfl rfl hu
  case busInit => exact fun _ _ _ => responseInv_of_record_eq rfl rfl rfl hs
  case store => exact fun _ _ _ => responseInv_of_record_eq rfl rfl rfl hs
  case commit => exact fun _ => responseInv_of_record_eq rfl rfl rfl hs
  case busTeardown => exact responseInv_of_record_eq rfl rfl rfl hs
  case pack => exact fun _ _ => responseInv_of_record_eq rfl rfl rfl hs
  case send => exact fun d _ _ _ hu => responseInv_transmit d _ hu

/-- Settles O8: only a response writes the response registers, and it joins the record. -/
theorem stepKeepsResponseRecord : Obligations.StepKeepsResponseRecord := fun _ _ hs h =>
  step_keeps h hs (fun _ => responseInv_of_record_eq rfl rfl rfl) (fun _ => responseInv_respond (.inr rfl))
    fun _ _ _ hu he => exec_responseInv he hu

end Sys2Proof.Machine
end

section
/-! PROOFS. The registers of a driver: a command changes none of them, or leaves its own driver as packed (10_state R37, 41_encoders R150). So
the unwritten bits and the illegal field values never change, and each register and STATUS is written only by its own commands. -/

namespace Sys2Proof.Machine

open Sys2Proof.Safety

/-! ## What a command leaves in the registers -/

/-- Two drivers hold the same shadow registers and caches. -/
structure SameRegisters (m m' : Driver) : Prop where
  shadow : m'.shadow = m.shadow
  offCache : m'.offCache = m.offCache
  lthrCache : m'.lthrCache = m.lthrCache

theorem SameRegisters.refl (m : Driver) : SameRegisters m m := ⟨rfl, rfl, rfl⟩

theorem sameRegisters_of_drivers_eq {s t : State} (h : t.drivers = s.drivers) (e : Nat) :
    SameRegisters (s.driver e) (t.driver e) := by
  rw [driver_eq_of_drivers h]
  exact .refl _

theorem transmit_sameRegisters {d : Nat} {v : Reg20} {s : State} {e : Nat} {m : Driver} (h : SameRegisters m (s.driver e)) :
    SameRegisters m ((transmit d v s).1.driver e) := by
  obtain ⟨hshadow, hoff, hlthr, -⟩ := transmit_driver_frame d v s e
  exact ⟨hshadow.trans h.shadow, hoff.trans h.offCache, hlthr.trans h.lthrCache⟩

/-- What a first and a second transmit both keep, a second transmit that may not run keeps too (R150). -/
theorem thenTransmit_keeps {P : State → Prop} {d : Nat} {v : Reg20} {r : State × Status} (h : P r.1)
    (hsend : P r.1 → P (transmit d v r.1).1) : P (thenTransmit d v r).1 := by
  rw [thenTransmit_eq]
  split
  · exact hsend h
  · exact h

/-- A command that does not transmit changes no driver. -/
theorem exec_drivers_of_not_transmits {i : Instr} {s t : State} (h : exec i s = .next t) (ht : i.transmits = false) :
    t.drivers = s.drivers := by
  cases hi : i.target with
  | none => exact (exec_bus_frame hi h).1
  | some d =>
    rcases exec_md_cases hi h with ⟨-, rfl⟩ | ⟨-, -, v, rfl⟩ | ⟨-, -, rfl⟩ | ⟨-, ht', -⟩
    · rfl
    · rfl
    · rfl
    · exact absurd (ht.symm.trans ht') (by decide)

/-- A command changes no shadow register and no cache, or it leaves those of the driver it names as packed and every other driver's as they
were (R37, R150). -/
theorem exec_registers {i : Instr} {s t : State} (h : exec i s = .next t) :
    (∀ e, SameRegisters (s.driver e) (t.driver e)) ∨
    ∃ d, i.target = some d ∧ i ≠ .mdRdstat d 3 ∧ SameRegisters (packed i (s.driver d)) (t.driver d) ∧
      ∀ e, e ≠ d → SameRegisters (s.driver e) (t.driver e) := by
  cases hi : i.target with
  | none => exact .inl (sameRegisters_of_drivers_eq (exec_bus_frame hi h).1)
  | some d =>
    rcases exec_md_cases hi h with ⟨-, rfl⟩ | ⟨-, -, v, rfl⟩ | ⟨-, -, rfl⟩ | ⟨hd, -, h3, r, r', sent, -, -, rfl, hsent⟩
    · exact .inl fun _ => .refl _
    · exact .inl fun _ => .refl _
    · exact .inl fun _ => .refl _
    · have keep (e : Nat) (m : Driver) (hm : SameRegisters m ((setDriver d (packed i (s.driver d)) s).driver e)) :
          SameRegisters m (sent.1.driver e) := by
        rcases hsent with rfl | rfl
        · exact transmit_sameRegisters hm
        · exact thenTransmit_keeps (P := fun u => SameRegisters m (u.driver e)) (transmit_sameRegisters hm)
            transmit_sameRegisters
      refine .inr ⟨d, rfl, h3, keep d _ ?_, fun e he => keep e _ ?_⟩
      · rw [setDriver_self _ hd]
        exact .refl _
      · rw [setDriver_other _ _ he]
        exact .refl _

/-- Settles O51: packing writes only what the command's rule names. -/
theorem registersAreWrittenOnlyByTheirCommands : Obligations.RegistersAreWrittenOnlyByTheirCommands := by
  intro i s t h d
  have untouched (same : SameRegisters (s.driver d) (t.driver d)) :
      (∀ r, writesReg i d r = false → getReg (t.driver d).shadow r = getReg (s.driver d).shadow r) ∧
      (writesOffCache i d = false → (t.driver d).offCache = (s.driver d).offCache) ∧
      (writesLthrCache i d = false → (t.driver d).lthrCache = (s.driver d).lthrCache) :=
    ⟨fun r _ => by rw [same.shadow], fun _ => same.offCache, fun _ => same.lthrCache⟩
  rcases exec_registers h with same | ⟨e, hi, -, hpacked, hothers⟩
  · exact untouched (same d)
  · by_cases he : d = e
    · subst he
      have spec := packed_spec hi (s.driver d)
      rw [hpacked.shadow, hpacked.offCache, hpacked.lthrCache]
      exact ⟨spec.reg, spec.off, spec.lthr⟩
    · exact untouched (hothers d he)

/-! ## The bits no command writes -/

theorem exec_unwritten_bits {i : Instr} {s t : State} (h : exec i s = .next t) (d : Nat) (r : Reg) :
    getReg (t.driver d).shadow r &&& ~~~(writableMask r) = getReg (s.driver d).shadow r &&& ~~~(writableMask r) := by
  rcases exec_registers h with same | ⟨e, hi, -, hpacked, hothers⟩
  · rw [(same d).shadow]
  · by_cases he : d = e
    · subst he
      rw [hpacked.shadow]
      exact (packed_spec hi _).masked r
    · rw [(hothers d he).shadow]

/-- Settles O9: packing writes only under the masks of R31 to R35. -/
theorem unwrittenBitsNeverChange : Obligations.UnwrittenBitsNeverChange := fun s _ h d r _ =>
  step_keeps (P := fun u =>
      getReg (u.driver d).shadow r &&& ~~~(writableMask r) = getReg (s.driver d).shadow r &&& ~~~(writableMask r))
    h rfl (fun _ hu => hu) (fun _ hu => hu) fun _ _ _ hu he => (exec_unwritten_bits he d r).trans hu

/-! ## The field values no command writes -/

/-- `FieldInv` of one driver. -/
def LegalFields (m : Driver) : Prop :=
  (m.shadow.drvctrl.extractLsb 3 0).toNat ≤ 8 ∧ (m.shadow.drvconf.extractLsb 5 4).toNat ≤ 2 ∧ m.offCache ≠ 1#4

theorem fieldInv_iff {s : State} : FieldInv s ↔ ∀ d, d < s.drivers.length → LegalFields (s.driver d) := Iff.rfl

theorem LegalFields.congr {m m' : Driver} (h : LegalFields m) (same : SameRegisters m m') : LegalFields m' := by
  unfold LegalFields
  rwa [same.shadow, same.offCache]

/-- The off time a chopper command caches is at least 2 (R27, R157). -/
theorem ofNat_offCode_ne_one (off : Int) : BitVec.ofNat 4 (offCode off) ≠ 1#4 := by
  obtain ⟨h2, h15⟩ := offCode_bounds off
  intro h
  have hval := congrArg BitVec.toNat h
  simp only [BitVec.toNat_ofNat] at hval
  omega

/-- Packing writes MRES at most 8, RDSEL as asked, OFF_CACHE at least 2, and MD_SETCUR leaves RDSEL alone (R152, R155, R157, R200). -/
theorem packed_legalFields {i : Instr} {m : Driver} (h : LegalFields m)
    (hsel : ∀ d sel, i = .mdRdstat d sel → sel ≤ 2) : LegalFields (packed i m) := by
  obtain ⟨hmres, hrdsel, hoff⟩ := h
  cases i
  case mdSetcur d mA =>
    refine ⟨hmres, ?_, hoff⟩
    show ((setf m.shadow.drvconf layout.vsense _).extractLsb 5 4).toNat ≤ 2
    rwa [extractLsb_setf_other _ layout.vsense _ 5 4 (by decide) (by decide)]
  case mdSetmres d n =>
    refine ⟨?_, hrdsel, hoff⟩
    show ((setf m.shadow.drvctrl ⟨3, 0⟩ _).extractLsb 3 0).toNat ≤ 8
    rw [extractLsb_setf_same _ _ (by decide) (by decide)]
    exact (Nat.mod_le _ _).trans (mresIndex_le n)
  case mdChopConst d off blank fastDecay sineOffset useComparator => exact ⟨hmres, hrdsel, ofNat_offCode_ne_one off⟩
  case mdChopSpread d off blank hystStart hystEnd hystDecrement => exact ⟨hmres, hrdsel, ofNat_offCode_ne_one off⟩
  case mdRdstat d sel =>
    refine ⟨hmres, ?_, hoff⟩
    show ((setf m.shadow.drvconf ⟨5, 4⟩ sel).extractLsb 5 4).toNat ≤ 2
    rw [extractLsb_setf_same _ _ (by decide) (by decide)]
    exact (Nat.mod_le _ _).trans (hsel d sel rfl)
  all_goals exact ⟨hmres, hrdsel, hoff⟩

theorem exec_fieldInv {i : Instr} {s t : State} (h : exec i s = .next t) (hs : FieldInv s)
    (hsel : ∀ d sel, i = .mdRdstat d sel → sel ≤ 3) : FieldInv t := by
  obtain ⟨-, hlength, -⟩ := exec_sameBuild h
  rw [fieldInv_iff] at hs ⊢
  intro d hd
  rw [hlength] at hd
  rcases exec_registers h with same | ⟨e, hi, h3, hpacked, hothers⟩
  · exact (hs d hd).congr (same d)
  · by_cases he : d = e
    · subst he
      refine (packed_legalFields (hs d hd) ?_).congr hpacked
      rintro d' sel rfl
      obtain rfl : d' = d := Option.some.inj hi
      have hle := hsel d' sel rfl
      have hne : sel ≠ 3 := fun heq => h3 (heq ▸ rfl)
      omega
    · exact (hs d hd).congr (hothers d he)

/-- The selector of a decoded MD_RDSTAT has two bits (R93, R200). -/
theorem decode_rdstat_selector {w : Word} {d sel : Nat} (h : decode w = .legal (.mdRdstat d sel)) : sel ≤ 3 := by
  obtain ⟨row, hrow, -, -, hread⟩ := decode_legal_iff.1 h
  have hlt : bits w 1 0 < 2 ^ 2 := bits_lt w rfl
  unfold opcodeRow at hrow
  split at hrow <;> simp only [Option.some.injEq, reduceCtorEq] at hrow <;> subst hrow <;>
    simp only [Instr.mdRdstat.injEq, reduceCtorEq] at hread
  omega

/-- Settles O7: decoding gives MD_RDSTAT a selector of two bits, the command refuses 3, and the other fields are packed from bounded codes. -/
theorem stepKeepsLegalFieldValues : Obligations.StepKeepsLegalFieldValues := by
  intro s t hs h
  obtain ⟨-, ⟨-, rfl⟩ | ⟨w, rest, e, -, -, rfl⟩ | ⟨w, rest, i, -, hdecode, he⟩⟩ := step_cases h
  · exact hs
  · exact hs
  · refine exec_fieldInv he hs ?_
    rintro d sel rfl
    exact decode_rdstat_selector hdecode

/-! ## STATUS -/

theorem transmit_status_other {d e : Nat} (v : Reg20) (s : State) (he : e ≠ d) :
    ((transmit d v s).1.driver e).status = (s.driver e).status := by
  rcases transmit_cases d v s with ⟨-, h⟩ | ⟨-, -, h⟩ | ⟨-, -, -, h⟩ | ⟨-, -, _, _, _, -, h⟩ <;> rw [h]
  · exact refuseTransmit_driver_status ..
  · exact refuseTransmit_driver_status ..
  · exact exchange_status ..
  · rw [storeStatus_driver_other _ _ _ _ he]
    exact exchange_status ..

/-- Settles O52: a command that does not transmit changes no driver, and a transmit stores the status word in its own driver only. -/
theorem statusIsWrittenOnlyByTransmit : Obligations.StatusIsWrittenOnlyByTransmit := by
  rintro i s t h d (ht | htarget)
  · rw [driver_eq_of_drivers (exec_drivers_of_not_transmits h ht)]
  · cases hi : i.target with
    | none => rw [driver_eq_of_drivers (exec_bus_frame hi h).1]
    | some e =>
      have hne : d ≠ e := fun heq => htarget (heq ▸ hi)
      refine exec_md_keeps (P := fun u => (u.driver d).status = (s.driver d).status) hi h rfl (fun _ _ hu => hu)
        (fun _ _ hu => hu) (fun _ hu => hu) ?pack ?send
      case pack => exact fun _ => by rw [setDriver_other _ _ hne]
      case send => exact fun _ _ _ hu => (transmit_status_other _ _ hne).trans hu

end Sys2Proof.Machine
end

section
/-! PROOFS. The block's own state changes only where the rules say (10_state R20, R21, R24, R38, R39, 20_memory R72, 40_iochain R120). -/

namespace Sys2Proof.Machine

/-- The port, the bus state, `NB` and the two sticky bits of `t` are those of `s`. -/
structure SameBlock (s t : State) : Prop where
  port : t.port = s.port
  busState : t.busState = s.busState
  nb : t.nb = s.nb
  halted : t.halted = s.halted
  subaddrLog : t.subaddrLog = s.subaddrLog

theorem transmit_sameBlock {d : Nat} {v : Reg20} {s u : State} (h : SameBlock s u) : SameBlock s (transmit d v u).1 := by
  obtain ⟨-, hbus, hnb, hhalted, hlog, -, -, hport, -, -⟩ := transmit_frame d v u
  exact ⟨hport.trans h.port, hbus.trans h.busState, hnb.trans h.nb, hhalted.trans h.halted, hlog.trans h.subaddrLog⟩

/-- An MD command on a driver that exists leaves the block's own state alone; if it does not transmit, it only responds. -/
theorem exec_md_block {i : Instr} {d : Nat} {s t : State} (hi : i.target = some d) (hd : d < s.drivers.length)
    (h : exec i s = .next t) : SameBlock s t ∧ (i.transmits = false → ∃ st v, t = respond st v s) := by
  rcases exec_md_cases hi h with ⟨hge, -⟩ | ⟨-, -, v, rfl⟩ | ⟨-, -, rfl⟩ | ⟨-, ht, -, r, r', sent, -, -, rfl, hsent⟩
  · omega
  · exact ⟨⟨rfl, rfl, rfl, rfl, rfl⟩, fun _ => ⟨_, _, rfl⟩⟩
  · exact ⟨⟨rfl, rfl, rfl, rfl, rfl⟩, fun _ => ⟨_, _, rfl⟩⟩
  · refine ⟨?_, fun hn => absurd (hn.symm.trans ht) (by decide)⟩
    have hpacked : SameBlock s (setDriver d (packed i (s.driver d)) s) := ⟨rfl, rfl, rfl, rfl, rfl⟩
    have hsent : SameBlock s sent.1 := by
      rcases hsent with rfl | rfl
      · exact transmit_sameBlock hpacked
      · exact thenTransmit_keeps (P := SameBlock s) (transmit_sameBlock hpacked) transmit_sameBlock
    exact ⟨hsent.port, hsent.busState, hsent.nb, hsent.halted, hsent.subaddrLog⟩

/-- Settles O54: what each BUS command does is listed, and an MD command logs an absent driver, responds or transmits. -/
theorem blockStateFrame : Obligations.BlockStateFrame := by
  intro i s t h
  cases hi : i.target with
  | none =>
    rcases exec_bus_cases hi h with ⟨st, v, -, rfl⟩ | ⟨nb, rfl, -, -, rfl⟩ | ⟨nb, rfl, -, -, -, rfl⟩ | ⟨u, b, -, -, -, rfl⟩ |
      ⟨rfl, -, rfl⟩ | ⟨rfl, -, rfl⟩
    · exact ⟨rfl, fun _ _ => ⟨rfl, rfl⟩, fun _ => rfl, fun _ => rfl, fun _ _ _ => ⟨rfl, rfl, rfl, rfl⟩⟩
    · exact ⟨rfl, fun hn _ => absurd rfl (hn nb), fun hn => absurd rfl (hn nb), fun _ => rfl, fun hn => absurd rfl (hn nb)⟩
    · exact ⟨rfl, fun hn _ => absurd rfl (hn nb), fun _ => rfl, fun _ => rfl, fun hn => absurd rfl (hn nb)⟩
    · exact ⟨rfl, fun _ _ => ⟨rfl, rfl⟩, fun _ => rfl, fun _ => rfl, fun _ _ _ => ⟨rfl, rfl, rfl, rfl⟩⟩
    · exact ⟨rfl, fun _ _ => ⟨rfl, rfl⟩, fun _ => rfl, fun _ => rfl, fun _ hn => absurd rfl hn⟩
    · exact ⟨rfl, fun _ hn => absurd rfl hn, fun _ => rfl, fun _ => rfl, fun _ _ _ => ⟨rfl, rfl, rfl, rfl⟩⟩
  | some d =>
    by_cases hd : d < s.drivers.length
    · obtain ⟨hblock, hresponse⟩ := exec_md_block hi hd h
      refine ⟨hblock.port, fun _ _ => ⟨hblock.busState, hblock.nb⟩, fun _ => hblock.halted, fun _ => hblock.subaddrLog,
        fun _ _ ht => ?_⟩
      obtain ⟨st, v, rfl⟩ := hresponse ht
      exact ⟨rfl, rfl, rfl, rfl⟩
    · rw [exec_absent hi (by omega), answer_eq, Host.Outcome.next.injEq] at h
      subst h
      exact ⟨rfl, fun _ _ => ⟨rfl, rfl⟩, fun _ => rfl, fun hlt => absurd (hlt d rfl) hd, fun _ _ _ => ⟨rfl, rfl, rfl, rfl⟩⟩

end Sys2Proof.Machine
end

section
/-! PROOFS. With the chip-select duty kept, a command that answers OK leaves the chip's registers equal to the shadows it wrote (10_state R42,
20_memory R74, 41_encoders R152, 70 R279). -/

namespace Sys2Proof.Machine

open Sys2Proof.Safety

/-! ## The commands that transmit, and answers of OK -/

/-- A transmitting command sends one register, or is MD_SETCUR or MD_RDSTAT (R241). -/
theorem transmits_cases {i : Instr} {d : Nat} (ht : i.transmits = true) (hi : i.target = some d) :
    (∃ r, oneShot i = some (d, r)) ∨ (∃ mA, i = .mdSetcur d mA) ∨ ∃ sel, i = .mdRdstat d sel := by
  cases i <;> simp only [Instr.transmits, Bool.false_eq_true] at ht <;>
    simp only [Instr.target, Option.some.injEq] at hi <;> subst hi
  case mdSetcur mA => exact .inr (.inl ⟨mA, rfl⟩)
  case mdRdstat sel => exact .inr (.inr ⟨sel, rfl⟩)
  all_goals exact .inl ⟨_, rfl⟩

/-- A command that sends one register writes that one only. -/
theorem writesReg_iff_of_oneShot {i : Instr} {d : Nat} {r : Reg} (h : oneShot i = some (d, r)) (k : Reg) :
    writesReg i d k = true ↔ k = r := by
  have hw : writesReg i d k = (oneShot i == some (d, k)) := by
    cases i
    case mdSetcur => cases h
    case mdRdstat => cases h
    all_goals rfl
  simpa [hw, h] using eq_comm

theorem writesReg_setcur_iff (d mA : Nat) (k : Reg) :
    writesReg (.mdSetcur d mA) d k = true ↔ k = .drvconf ∨ k = .sgcsconf := by
  simp [writesReg]

theorem writesReg_rdstat_iff (d sel : Nat) (k : Reg) : writesReg (.mdRdstat d sel) d k = true ↔ k = .drvconf := by
  simp [writesReg]

theorem code_eq_zero_iff {st : Status} : st.code = 0#3 ↔ st = .ok := by
  cases st <;> decide

/-- A command that ends with the status of its transmits and answers OK. -/
theorem conclude_ok {x : State × Status} {t : State} (h : conclude x = .next t) (hok : t.respStatus = 0#3) :
    x.2 = .ok ∧ t = respond .ok 0#32 x.1 := by
  rw [conclude_eq, Host.Outcome.next.injEq] at h
  subst h
  have hx : x.2 = .ok := code_eq_zero_iff.1 hok
  exact ⟨hx, by rw [hx]⟩

/-- A second transmit that ends OK ran after a first that did (R150). -/
theorem thenTransmit_ok {d : Nat} {v : Reg20} {x : State × Status} (h : (thenTransmit d v x).2 = .ok) :
    x.2 = .ok ∧ thenTransmit d v x = transmit d v x.1 := by
  rw [thenTransmit_eq] at h ⊢
  by_cases hx : x.2 = .ok
  · exact ⟨hx, if_pos hx⟩
  · rw [if_neg hx] at h
    exact absurd h hx

/-! ## An answered transmit -/

/-- What an answered transmit of the datagram `v` for register `r` does from `u` to `t` while the duty is kept (R42, R74, R279). -/
structure Answered (d : Nat) (r : Reg) (v : Reg20) (u t : State) : Prop where
  canSend : CanSend t d
  sole : SoleSelect t d
  shadow : (t.driver d).shadow = (u.driver d).shadow
  regs : (t.driver d).chip.regs = setReg (u.driver d).chip.regs r (some v)
  statusSel : (t.driver d).chip.statusSel = (u.driver d).chip.selector
  others : ∀ e, e ≠ d → (t.driver e).chip = (u.driver e).chip

theorem transmit_answered {d : Nat} {r : Reg} {v : Reg20} {u : State} (hs : CanSend u d) (hss : SoleSelect u d)
    (hv : regOfDatagram v = some r) (hok : (transmit d v u).2 = .ok) : Answered d r v u (transmit d v u).1 := by
  obtain ⟨hcan, -, hfail, -⟩ := transmit_sends v hs
  obtain ⟨hsole, hothers, -, hchip⟩ := transmit_sole hs hss hv
  have hanswer : nextAnswer u ≠ .fail := by
    intro h
    rw [hfail h] at hok
    cases hok
  exact ⟨hcan, hsole, (transmit_driver_frame d v u d).1, by rw [hchip hanswer], by rw [hchip hanswer], hothers⟩

/-- The selector of a chip that took DriverConfig is the one sent (R42). -/
theorem Answered.selector {d : Nat} {v : Reg20} {u t : State} (h : Answered d .drvconf v u t) :
    (t.driver d).chip.selector = some (v.extractLsb 5 4).toNat := by
  rw [Chip.selector, h.regs]
  exact congrArg some (getf_eq_extractLsb v 5 4)

/-! ## The chip after the command -/

/-- The chip of driver `d` agrees with the registers the command packed, and no other chip or register changed. -/
structure ChipTakesPacked (i : Instr) (d : Nat) (s t : State) : Prop where
  shadow : (t.driver d).shadow = (packed i (s.driver d)).shadow
  written : ∀ r, writesReg i d r = true →
    getReg (t.driver d).chip.regs r = some (getReg (packed i (s.driver d)).shadow r)
  kept : ∀ r, writesReg i d r = false → getReg (t.driver d).chip.regs r = getReg (s.driver d).chip.regs r
  others : ∀ e, e ≠ d → (t.driver e).chip = (s.driver e).chip

theorem ChipTakesPacked.agrees {i : Instr} {d : Nat} {s t : State} (h : ChipTakesPacked i d s t) (r : Reg)
    (hr : writesReg i d r = true) : Agrees t d r := by
  unfold Agrees
  rw [h.written r hr, h.shadow]

theorem ChipTakesPacked.respond {i : Instr} {d : Nat} {s t : State} (h : ChipTakesPacked i d s t) (st : Status) (v : BitVec 32) :
    ChipTakesPacked i d s (respond st v t) :=
  ⟨h.shadow, h.written, h.kept, h.others⟩

section Shapes

variable {i : Instr} {d : Nat} {s : State} (hi : i.target = some d) (hd : d < s.drivers.length)
include hi hd

/-- A command that sends one register. -/
theorem chipTakesPacked_once {r : Reg} {t : State} (hw : ∀ k, writesReg i d k = true ↔ k = r)
    (h : Answered d r (getReg (packed i (s.driver d)).shadow r) (setDriver d (packed i (s.driver d)) s) t) :
    ChipTakesPacked i d s t := by
  have hregs := h.regs
  rw [chip_packed hi] at hregs
  refine ⟨?_, fun k hk => ?_, fun k hk => ?_, fun e he => ?_⟩
  · rw [h.shadow, setDriver_self _ hd]
  · obtain rfl := (hw k).1 hk
    rw [hregs, getReg_setReg_self]
  · have hne : k ≠ r := fun heq => by simp [(hw k).2 heq] at hk
    rw [hregs, getReg_setReg_other _ _ hne]
  · rw [h.others e he, chip_packed hi]

/-- A command that sends two registers, or one of them twice. -/
theorem chipTakesPacked_twice {r r' : Reg} {t t' : State} (hw : ∀ k, writesReg i d k = true ↔ k = r ∨ k = r')
    (h : Answered d r (getReg (packed i (s.driver d)).shadow r) (setDriver d (packed i (s.driver d)) s) t)
    (h' : Answered d r' (getReg (packed i (s.driver d)).shadow r') t t') : ChipTakesPacked i d s t' := by
  have hregs := h'.regs
  rw [h.regs, chip_packed hi] at hregs
  refine ⟨?_, fun k hk => ?_, fun k hk => ?_, fun e he => ?_⟩
  · rw [h'.shadow, h.shadow, setDriver_self _ hd]
  · by_cases hk' : k = r'
    · subst hk'
      rw [hregs, getReg_setReg_self]
    · obtain rfl := ((hw k).1 hk).resolve_right hk'
      rw [hregs, getReg_setReg_other _ _ hk', getReg_setReg_self]
  · have hne : k ≠ r := fun heq => by simp [(hw k).2 (.inl heq)] at hk
    have hne' : k ≠ r' := fun heq => by simp [(hw k).2 (.inr heq)] at hk
    rw [hregs, getReg_setReg_other _ _ hne', getReg_setReg_other _ _ hne]
  · rw [h'.others e he, h.others e he, chip_packed hi]

end Shapes

section Duty

variable {d : Nat} {s t : State} (hs : CanSend s d) (hss : SoleSelect s d) (hsig : SignatureInv s)
include hs hss hsig

/-- The first transmit of a command, from the packed state, if it ends OK. -/
theorem transmit_packed_answered {i : Instr} (hi : i.target = some d) (r : Reg)
    (hok : (transmit d (getReg (packed i (s.driver d)).shadow r) (setDriver d (packed i (s.driver d)) s)).2 = .ok) :
    Answered d r (getReg (packed i (s.driver d)).shadow r) (setDriver d (packed i (s.driver d)) s)
      (transmit d (getReg (packed i (s.driver d)).shadow r) (setDriver d (packed i (s.driver d)) s)).1 :=
  transmit_answered (canSend_packed hi hs) (soleSelect_packed hi hss) (regOfDatagram_packed i hs.1 hsig r) hok

/-- Both transmits of a command that sends two, if the second ends OK. -/
theorem thenTransmit_packed_answered {i : Instr} (hi : i.target = some d) (r r' : Reg)
    (hok : (thenTransmit d (getReg (packed i (s.driver d)).shadow r')
      (transmit d (getReg (packed i (s.driver d)).shadow r) (setDriver d (packed i (s.driver d)) s))).2 = .ok) :
    ∃ u, Answered d r (getReg (packed i (s.driver d)).shadow r) (setDriver d (packed i (s.driver d)) s) u ∧
      Answered d r' (getReg (packed i (s.driver d)).shadow r') u
        (thenTransmit d (getReg (packed i (s.driver d)).shadow r')
          (transmit d (getReg (packed i (s.driver d)).shadow r) (setDriver d (packed i (s.driver d)) s))).1 := by
  obtain ⟨hok1, e⟩ := thenTransmit_ok hok
  rw [e] at hok ⊢
  have h1 := transmit_packed_answered hs hss hsig hi r hok1
  exact ⟨_, h1, transmit_answered h1.canSend h1.sole (regOfDatagram_packed i hs.1 hsig r') hok⟩

/-- A command that sends one register marks the word with the selector the chip held before (R74). -/
theorem exec_oneShot_answered {i : Instr} {r : Reg} (h1 : oneShot i = some (d, r)) (h : exec i s = .next t)
    (hok : t.respStatus = 0#3) :
    ChipTakesPacked i d s t ∧ (t.driver d).chip.statusSel = (s.driver d).chip.selector := by
  obtain ⟨hi, -, -⟩ := oneShot_spec h1
  rw [exec_oneShot h1 hs.1] at h
  obtain ⟨hsent, rfl⟩ := conclude_ok h hok
  have ha := transmit_packed_answered hs hss hsig hi r hsent
  have htakes := chipTakesPacked_once hi hs.1 (writesReg_iff_of_oneShot h1) ha
  exact ⟨htakes.respond .., by rw [respond_driver, ha.statusSel, chip_packed hi]⟩

/-- MD_SETCUR marks the word with the selector it sent in DriverConfig (R74, R152). -/
theorem exec_setcur_answered {mA : Nat} (h : exec (.mdSetcur d mA) s = .next t) (hok : t.respStatus = 0#3) :
    ChipTakesPacked (.mdSetcur d mA) d s t ∧
      (t.driver d).chip.statusSel = some ((t.driver d).shadow.drvconf.extractLsb 5 4).toNat := by
  rw [exec_setcur hs.1] at h
  obtain ⟨hsent, rfl⟩ := conclude_ok h hok
  obtain ⟨u, h1, h2⟩ := thenTransmit_packed_answered hs hss hsig rfl .drvconf .sgcsconf hsent
  have htakes := chipTakesPacked_twice rfl hs.1 (writesReg_setcur_iff d mA) h1 h2
  have hshadow := congrArg (fun regs : Regs Reg20 => some (regs.drvconf.extractLsb 5 4).toNat) htakes.shadow
  exact ⟨htakes.respond .., (h2.statusSel.trans h1.selector).trans hshadow.symm⟩

/-- MD_RDSTAT sends DriverConfig once or twice (R200). -/
theorem exec_rdstat_answered {sel : Nat} (h : exec (.mdRdstat d sel) s = .next t) (hok : t.respStatus = 0#3) :
    ChipTakesPacked (.mdRdstat d sel) d s t := by
  by_cases h3 : sel = 3
  · subst h3
    rw [exec_rdstat_three hs.1, raise_eq, Host.Outcome.next.injEq] at h
    subst h
    cases hok
  · rw [exec_rdstat hs.1 h3] at h
    by_cases hchange : sel ≠ getf (s.driver d).shadow.drvconf layout.rdsel
    · rw [if_pos hchange] at h
      obtain ⟨hsent, rfl⟩ := conclude_ok h hok
      obtain ⟨u, h1, h2⟩ := thenTransmit_packed_answered hs hss hsig rfl .drvconf .drvconf hsent
      exact (chipTakesPacked_twice rfl hs.1 (fun k => by simp [writesReg_rdstat_iff]) h1 h2).respond ..
    · rw [if_neg hchange] at h
      obtain ⟨hsent, rfl⟩ := conclude_ok h hok
      have ha := transmit_packed_answered hs hss hsig rfl .drvconf hsent
      exact (chipTakesPacked_once rfl hs.1 (writesReg_rdstat_iff d sel) ha).respond ..

end Duty

/-- Settles O43: every transmit of the command was answered, the chip took each datagram, and a datagram names the register it was packed
in. -/
theorem answeredTransmitMakesTheChipAgree : Obligations.AnsweredTransmitMakesTheChipAgree := by
  intro i d s t ht hi hs hss hsig h hok
  rcases transmits_cases ht hi with ⟨r, h1⟩ | ⟨mA, rfl⟩ | ⟨sel, rfl⟩
  · obtain ⟨htakes, hsel⟩ := exec_oneShot_answered hs hss hsig h1 h hok
    refine ⟨htakes.agrees, htakes.kept, fun _ _ => hsel, ?_, htakes.others⟩
    rintro mA rfl
    cases h1
  · obtain ⟨htakes, hsel⟩ := exec_setcur_answered hs hss hsig h hok
    exact ⟨htakes.agrees, htakes.kept, nofun, fun _ _ => hsel, htakes.others⟩
  · have htakes := exec_rdstat_answered hs hss hsig h hok
    exact ⟨htakes.agrees, htakes.kept, nofun, nofun, htakes.others⟩

end Sys2Proof.Machine
end

section
/-! PROOFS. The BUS commands that store, send and index: what they do to the buffer, the lines and the chain (20_memory R61, R65, R72, R73,
40_iochain R122 to R125, R128, 60_exceptions R252, R253). -/

namespace Sys2Proof.Machine

open Sys2Proof.Safety

/-! ## A store -/

/-- BUS_SETBIT and BUS_CLEARBIT are one command with the bit to store (R122, R123). -/
theorem exec_store (b : Bool) (u : Nat) (s : State) :
    exec (if b then .busSetbit u else .busClearbit u) s =
      if s.busState ≠ .ready then raise .notInitialized s
      else if 32 * s.nb ≤ u then raise .invalidParameter s
      else answer 0 (writeBuf u b s) := by
  cases b <;> rfl

/-- Settles O19: outside its two errors the command is a bit write, which keeps every other bit. -/
theorem setAndClearWriteOneBit : Obligations.SetAndClearWriteOneBit := by
  intro b u s
  refine ⟨_, rfl, fun hbus => ?_, fun hready hu => ?_, fun hready hu => ?_⟩
  · rw [exec_store, if_pos (by simp [hbus])]
    rfl
  · rw [exec_store, if_neg (not_not.2 hready), if_pos hu]
    rfl
  · rw [exec_store, if_neg (not_not.2 hready), if_neg (by omega)]
    exact ⟨_, rfl, withBit_writeBit _ _ _, rfl⟩

/-! ## The index map -/

/-- On a Ready bus BUS_INDEX has one range check, over all three operands (R128). -/
theorem exec_busIndex_of_ready {s : State} (hready : s.busState = .ready) (board slot offset : Nat) :
    exec (.busIndex board slot offset) s =
      if board < 1 ∨ s.nb < board ∨ slot < 1 ∨ 4 < slot ∨ 7 < offset then raise .invalidParameter s
      else answer (busBit board slot offset) s := by
  simp only [exec, execBusIndex, if_neg (not_not.2 hready)]
  by_cases hrange : board < 1 ∨ s.nb < board ∨ slot < 1 ∨ 4 < slot ∨ 7 < offset
  · rw [if_pos hrange]
    split_ifs
    · rfl
    · rfl
    · rfl
    · omega
  · rw [if_neg (by omega), if_neg (by omega), if_neg (by omega), if_neg hrange]

/-- Settles O25: the index is a number with a board digit, a slot digit to base 4 and an offset digit to base 8. -/
theorem indexMapIsABijection : Obligations.IndexMapIsABijection := by
  intro board slot offset s
  refine ⟨fun hbus => ?_, fun hready hrange => ?_, fun hready _ _ _ _ _ => ?_, fun hready i hi => ?_⟩
  · simp only [exec, execBusIndex, hbus]
    rfl
  · rw [exec_busIndex_of_ready hready, if_pos hrange]
    rfl
  · rw [exec_busIndex_of_ready hready, if_neg (by omega)]
    exact ⟨busBit board slot offset, rfl, rfl, by unfold busBit; omega⟩
  · have hindex : busBit (i / 32 + 1) (i % 32 / 8 + 1) (i % 8) = i := by
      unfold busBit
      omega
    rw [exec_busIndex_of_ready hready, if_neg (by omega), hindex]
    rfl

/-! ## What a commit sends -/

theorem exec_busCommit_of_ready {s : State} (hready : s.busState = .ready) : exec .busCommit s = answer 0 (commitSeq s) :=
  if_neg (not_not.2 hready)

/-- The bits of a commit, by their indices (R65). -/
theorem bitsDown_eq_map (m : List Host.Cell) (n : Nat) : bitsDown m n = (List.range n).reverse.map (Memory.readBit m) := by
  induction n with
  | zero => rfl
  | succ n ih => rw [bitsDown, ih, List.range_succ, List.reverse_append, List.reverse_singleton, List.singleton_append,
      List.map_cons]

/-- The events of a commit, by the indices of its bits (R65, R124). -/
theorem commitEvents_eq_flatMap (m : List Host.Cell) (nb : Nat) :
    commitEvents m nb =
      (List.range (32 * nb)).reverse.flatMap (fun i => bitEvents (Memory.readBit m i)) ++ [.stb true, .stb false] := by
  rw [commitEvents, bitsDown_eq_map, List.flatMap_map]

/-- A serial phase of at least one bit leaves data and clock low and enable as it was, whatever the lines were before. -/
theorem drive_bits_lines {bs : List Bool} (hbs : bs ≠ []) (w : Wires) :
    ((bs.flatMap bitEvents).foldl Wires.drive w).dat = some false ∧
    ((bs.flatMap bitEvents).foldl Wires.drive w).clk = some false ∧
    ((bs.flatMap bitEvents).foldl Wires.drive w).en = w.en := by
  cases bs with
  | nil => exact absurd rfl hbs
  | cons b rest =>
    have hfirst : ((bitEvents b).foldl Wires.drive w).clk = some false := rfl
    rw [List.flatMap_cons, List.foldl_append, drive_bits rest hfirst]
    exact ⟨by split <;> rfl, rfl, rfl⟩

/-- A commit of at least one board leaves data, clock and strobe low and enable as it was (R124). -/
theorem drive_commitEvents_lines (m : List Host.Cell) {nb : Nat} (hnb : 1 ≤ nb) (w : Wires) :
    ((commitEvents m nb).foldl Wires.drive w).dat = some false ∧
    ((commitEvents m nb).foldl Wires.drive w).clk = some false ∧
    ((commitEvents m nb).foldl Wires.drive w).stb = some false ∧
    ((commitEvents m nb).foldl Wires.drive w).en = w.en := by
  have hbs : bitsDown m (32 * nb) ≠ [] := by
    rw [← List.length_pos_iff, bitsDown_length]
    omega
  obtain ⟨hdat, hclk, hen⟩ := drive_bits_lines hbs w
  rw [commitEvents, List.foldl_append]
  exact ⟨hdat, hclk, rfl, hen⟩

/-- Settles O20: the events are those of the bits by index, and each bit's events end on low lines. -/
theorem commitSendsHighestBitFirst : Obligations.CommitSendsHighestBitFirst := by
  intro s
  refine ⟨fun hbus => ?_, fun hready hnb => ?_⟩
  · simp only [exec, execBusCommit, hbus]
    rfl
  · obtain ⟨hdat, hclk, hstb, hen⟩ := drive_commitEvents_lines s.buf hnb s.wires
    refine ⟨_, exec_busCommit_of_ready hready, ?_, hdat, hclk, hstb, hen, rfl⟩
    rw [respond_events, commitSeq_events, commitEvents_eq_flatMap, ← List.append_assoc]
    rfl

/-! ## What a commit publishes -/

theorem foldl_shiftIn_length (bs : List Bool) (stages : List Level) :
    (bs.foldl (fun l b => shiftIn (some b) l) stages).length = stages.length := by
  rw [shift_stages]
  simp

/-- A whole buffer shifted in: stage `k` holds bit `k`, whatever the chain held (R65, R252). -/
theorem shift_bitsDown_getElem? (m : List Host.Cell) {stages : List Level} {k : Nat} (hk : k < stages.length) :
    ((bitsDown m stages.length).foldl (fun l b => shiftIn (some b) l) stages)[k]? = some (some (Memory.readBit m k)) := by
  have hindex : stages.length - 1 - (stages.length - 1 - k) = k := by omega
  rw [shift_stages, List.getElem?_take, if_pos hk, List.getElem?_append_left (by simpa using hk), List.getElem?_map,
    List.getElem?_reverse (by simpa using hk), bitsDown_length, bitsDown_getElem? _ _ _ (by omega), hindex]
  rfl

/-- Settles O22: on idle lines the serial phase fills the chain with the buffer and the strobe latches it, and enable is active on a Ready
bus. -/
theorem commitPublishesTheBuffer : Obligations.CommitPublishesTheBuffer := by
  intro s t hready hs h
  obtain ⟨-, -, hen, -, hclk, hstb, hstages, -⟩ := hs.2 hready
  rw [exec_busCommit_of_ready hready, answer_eq, Host.Outcome.next.injEq] at h
  subst h
  simp only [respond_buf, respond_wires, commitSeq_buf, commitSeq_wires, drive_commitEvents s.buf s.nb hclk hstb]
  have hshift (k : Nat) (hk : k < 32 * s.nb) := shift_bitsDown_getElem? s.buf (hstages.symm ▸ hk)
  have hlength := foldl_shiftIn_length (bitsDown s.buf (32 * s.nb)) s.wires.stages
  rw [hstages] at hshift hlength
  refine ⟨trivial, hlength, hlength, fun k hk => ⟨hshift k hk, hshift k hk, ?_⟩⟩
  refine (chainOutput_of_active ?_ k).trans ?_
  · exact hen
  · rw [List.getD_eq_getElem?_getD, hshift k hk]
    rfl

/-! ## When the latches change -/

/-- Events without a rising strobe leave the latches alone (R252). -/
theorem foldl_drive_latches {es : List Event} (h : Event.stb true ∉ es) (w : Wires) :
    (es.foldl Wires.drive w).latches = w.latches := by
  induction es generalizing w with
  | nil => rfl
  | cons e rest ih =>
    rw [List.mem_cons, not_or] at h
    rw [List.foldl_cons, ih h.2, drive_latches (Ne.symm h.1)]

/-- A commit raises the strobe once (R124). -/
theorem count_stb_commitEvents (m : List Host.Cell) (nb : Nat) : (commitEvents m nb).count (.stb true) = 1 := by
  have hserial : Event.stb true ∉ (bitsDown m (32 * nb)).flatMap bitEvents := by simp [bitEvents]
  rw [commitEvents, List.count_append, List.count_eq_zero.2 hserial]
  rfl

/-- Settles O23: the strobe rises once in a commit, so it is missing before it or after it. -/
theorem latchesChangeOnlyAtTheStrobe : Obligations.LatchesChangeOnlyAtTheStrobe := by
  intro w m nb p q hpq
  refine ⟨fun hp => foldl_drive_latches hp w, fun hp => ?_⟩
  have hcount := count_stb_commitEvents m nb
  have hcountp := List.count_pos_iff.2 hp
  rw [← hpq, List.count_append] at hcount
  have hq : Event.stb true ∉ q := List.count_eq_zero.1 (by omega)
  rw [← hpq, List.foldl_append, foldl_drive_latches hq]

end Sys2Proof.Machine
end

section
/-! PROOFS. A transmitting command repeated packs what it packed (20_memory R75, 41_encoders R150). -/

namespace Sys2Proof.Machine

/-- `g` writes fixed bits over a register: it keeps the bits of a mask and sets the others. -/
def Overlays (g : Reg20 → Reg20) : Prop := ∃ mask bits, ∀ r, g r = (r &&& mask) ||| bits

theorem Overlays.idem {g : Reg20 → Reg20} (h : Overlays g) (r : Reg20) : g (g r) = g r := by
  obtain ⟨mask, bits, hg⟩ := h
  simp only [hg]
  ext k
  simp only [BitVec.getElem_or, BitVec.getElem_and]
  cases bits[k] <;> cases mask[k] <;> simp

theorem overlays_setf (f : Field) (v : Nat) : Overlays (setf · f v) := ⟨_, _, fun _ => rfl⟩

/-- One more field written (R151). -/
theorem Overlays.setf {g : Reg20 → Reg20} (h : Overlays g) (f : Field) (v : Nat) : Overlays fun r => setf (g r) f v := by
  obtain ⟨mask, bits, hg⟩ := h
  refine ⟨mask &&& ~~~fieldMask f, (bits &&& ~~~fieldMask f) ||| (BitVec.ofNat 20 (v * 2 ^ f.lo) &&& fieldMask f), fun r => ?_⟩
  simp only [Machine.setf, hg]
  ext k
  simp only [BitVec.getElem_or, BitVec.getElem_and, Bool.and_or_distrib_right, Bool.and_assoc, Bool.or_assoc]

theorem overlays_packChopConst (off blank fastDecay sineOffset : Int) (useComparator : Bool) :
    Overlays (packChopConst · off blank fastDecay sineOffset useComparator) :=
  ((((((overlays_setf _ _).setf _ _).setf _ _).setf _ _).setf _ _).setf _ _).setf _ _

theorem overlays_packChopSpread (off blank hystStart hystEnd hystDecrement : Int) :
    Overlays (packChopSpread · off blank hystStart hystEnd hystDecrement) :=
  (((((overlays_setf _ _).setf _ _).setf _ _).setf _ _).setf _ _).setf _ _

theorem overlays_packCoolcfg (lowerThr hysteresis decStep incStep lowerLimit : Nat) :
    Overlays (packCoolcfg · lowerThr hysteresis decStep incStep lowerLimit) :=
  ((((overlays_setf _ _).setf _ _).setf _ _).setf _ _).setf _ _

/-- Packing a packed driver gives the same driver: each register is overlaid with fixed bits, and the caches are not read by a command that
writes them (R75). -/
theorem packed_packed (i : Instr) (m : Driver) : packed i (packed i m) = packed i m := by
  have put {m' : Driver} {regs : Regs Reg20} (h : regs = m'.shadow) : { m' with shadow := regs } = m' := by rw [h]
  have one {g : Reg20 → Reg20} (h : Overlays g) (r : Reg) :
      setReg m.shadow r (g (g (getReg m.shadow r))) = setReg m.shadow r (g (getReg m.shadow r)) := by rw [h.idem]
  cases i
  case mdSetcur d mA =>
    exact put (congrArg₂ (fun drvconf sgcsconf => setReg (setReg m.shadow .drvconf drvconf) .sgcsconf sgcsconf)
      ((overlays_setf layout.vsense _).idem _) ((overlays_setf layout.cs _).idem _))
  case mdSetmres d n => exact put (one (overlays_setf _ _) .drvctrl)
  case mdChopConst d off blank fastDecay sineOffset useComparator => exact put (one (overlays_packChopConst ..) .chopconf)
  case mdChopSpread d off blank hystStart hystEnd hystDecrement => exact put (one (overlays_packChopSpread ..) .chopconf)
  case mdSgt d t filterEnabled => exact put (one ((overlays_setf _ _).setf _ _) .sgcsconf)
  case mdCoolcfg d lowerThr hysteresis decStep incStep lowerLimit => exact put (one (overlays_packCoolcfg ..) .smarten)
  case mdCoolen d flag => exact put (one (overlays_setf _ _) .smarten)
  case mdEnable d flag => exact put (one (overlays_setf _ _) .chopconf)
  case mdRdstat d sel => exact put (one (overlays_setf _ _) .drvconf)
  all_goals rfl

theorem SameRegisters.symm {m m' : Driver} (h : SameRegisters m m') : SameRegisters m' m :=
  ⟨h.shadow.symm, h.offCache.symm, h.lthrCache.symm⟩

theorem SameRegisters.trans {m m' m'' : Driver} (h : SameRegisters m m') (h' : SameRegisters m' m'') : SameRegisters m m'' :=
  ⟨h'.shadow.trans h.shadow, h'.offCache.trans h.offCache, h'.lthrCache.trans h.lthrCache⟩

/-- What a command packs depends on the shadow registers, the caches and RSENSE only (R150). -/
theorem packed_congr (i : Instr) {m m' : Driver} (h : SameRegisters m m') (hr : m'.wiring.rsense = m.wiring.rsense) :
    SameRegisters (packed i m) (packed i m') := by
  obtain ⟨⟨rsense, cs⟩, shadow, status, off, lthr, chip⟩ := m
  obtain ⟨⟨rsense', cs'⟩, shadow', status', off', lthr', chip'⟩ := m'
  obtain ⟨hshadow, hoff, hlthr⟩ := h
  subst hr hshadow hoff hlthr
  cases i <;> exact ⟨rfl, rfl, rfl⟩

/-- A driver left as packed is as packed for the same command. -/
theorem sameRegisters_packed_again {i : Instr} {d : Nat} {m m' : Driver} (hi : i.target = some d)
    (h : SameRegisters (packed i m) m') (hw : m'.wiring = m.wiring) : SameRegisters m' (packed i m') := by
  have hpacked := packed_congr i h (by rw [hw, (packed_spec hi m).wiring])
  rw [packed_packed] at hpacked
  exact h.symm.trans hpacked

/-- Settles O37: the second run packs the driver the first left packed; with no such driver neither run writes any. -/
theorem encodersAreIdempotent : Obligations.EncodersAreIdempotent := by
  intro i s t u ht h h' e
  suffices same : SameRegisters (t.driver e) (u.driver e) from ⟨same.shadow, same.offCache, same.lthrCache⟩
  rcases exec_registers h' with same | ⟨d, hi, h3, hpacked, hothers⟩
  · exact same e
  · by_cases he : e = d
    · subst he
      by_cases hd : e < s.drivers.length
      · obtain ⟨t', h1, -, hshadow, hoff, hlthr, hwiring⟩ := exec_packs hd ht hi h3
        obtain rfl : t = t' := Host.Outcome.next.inj (h.symm.trans h1)
        exact (sameRegisters_packed_again hi ⟨hshadow, hoff, hlthr⟩ hwiring).trans hpacked
      · have hlength := (exec_sameBuild h).2.1
        rw [exec_absent hi (by omega), answer_eq, Host.Outcome.next.injEq] at h'
        subst h'
        exact .refl _
    · exact hothers e he

end Sys2Proof.Machine
end

section
/-! PROOFS. What a transmitting command does on the bus: refused, answered or failed (20_memory R66, R67, R70, R80, 41_encoders R150, R164,
70 R283, R288), and the readout MD_RDSTAT latches (20_memory R74, 70 R282). -/

namespace Sys2Proof.Machine

open Sys2Proof.Safety

/-! ## Refused -/

/-- The status of a refused transmit: the bus is tested before the chip-select bit (R70). -/
def refusal (s : State) : Status := if s.busState = .uninitialized then .notInitialized else .invalidParameter

theorem transmit_refused {d : Nat} (v : Reg20) {s : State}
    (h : s.busState = .uninitialized ∨ 32 * s.nb ≤ (s.driver d).wiring.csBit) :
    transmit d v s = (refuseTransmit d v s, refusal s) := by
  cases hbus : s.busState with
  | uninitialized => simp [transmit, refusal, hbus]
  | ready =>
    have hcs : 32 * s.nb ≤ (s.driver d).wiring.csBit := h.resolve_left (by simp [hbus])
    simp [transmit, refusal, hbus, hcs]

/-- After a refused transmit a second one does not run (R150). -/
theorem thenTransmit_refused {d : Nat} (v v' : Reg20) {s : State}
    (h : s.busState = .uninitialized ∨ 32 * s.nb ≤ (s.driver d).wiring.csBit) :
    thenTransmit d v' (transmit d v s) = transmit d v s := by
  have hne : refusal s ≠ .ok := by
    unfold refusal
    split <;> decide
  rw [transmit_refused v h, thenTransmit_eq, if_neg hne]

/-- The register a transmitting command sends first (R150, R152, R200). -/
def firstSent (i : Instr) : Reg :=
  match oneShot i with
  | some (_, r) => r
  | none => .drvconf

theorem writesReg_firstSent {i : Instr} {d : Nat} (ht : i.transmits = true) (hi : i.target = some d) :
    writesReg i d (firstSent i) = true := by
  rcases transmits_cases ht hi with ⟨r, h1⟩ | ⟨mA, rfl⟩ | ⟨sel, rfl⟩
  · rw [writesReg_iff_of_oneShot h1, firstSent, h1]
  · exact (writesReg_setcur_iff d mA _).2 (.inl rfl)
  · exact (writesReg_rdstat_iff d sel _).2 rfl

/-- A refused command packs its driver and stops at its first transmit (R150, R288). -/
theorem exec_refused {i : Instr} {d : Nat} {s : State} (ht : i.transmits = true) (hi : i.target = some d)
    (hd : d < s.drivers.length) (h3 : ∀ sel, i = .mdRdstat d sel → sel ≠ 3)
    (h : s.busState = .uninitialized ∨ 32 * s.nb ≤ (s.driver d).wiring.csBit) :
    exec i s = .next (respond (refusal s) 0#32
      (refuseTransmit d (getReg (packed i (s.driver d)).shadow (firstSent i)) (setDriver d (packed i (s.driver d)) s))) := by
  have hsend : (setDriver d (packed i (s.driver d)) s).busState = .uninitialized ∨
      32 * (setDriver d (packed i (s.driver d)) s).nb ≤ ((setDriver d (packed i (s.driver d)) s).driver d).wiring.csBit := by
    rwa [setDriver_packed_wiring hi]
  rcases transmits_cases ht hi with ⟨r, h1⟩ | ⟨mA, rfl⟩ | ⟨sel, rfl⟩
  · rw [exec_oneShot h1 hd, transmit_refused _ hsend, firstSent, h1]
    rfl
  · rw [exec_setcur hd, thenTransmit_refused _ _ hsend, transmit_refused _ hsend]
    rfl
  · rw [exec_rdstat hd (h3 sel rfl), thenTransmit_refused _ _ hsend, ite_self, transmit_refused _ hsend]
    rfl

theorem setDriver_packed_status {i : Instr} {d : Nat} (hi : i.target = some d) (s : State) (e : Nat) :
    ((setDriver d (packed i (s.driver d)) s).driver e).status = (s.driver e).status := by
  rw [← modifyDriver_eq_setDriver s d (packed i)]
  exact driver_modifyDriver_keeps s d e Driver.status fun m => (packed_spec hi m).status

/-- Settles O38: the command packs its driver, and its first transmit forgets that register of the chip and does nothing else. -/
theorem refusedTransmitOnlyWritesShadows : Obligations.RefusedTransmitOnlyWritesShadows := by
  intro i d s ht hi hd hsig h3 h
  have hchip : ((refuseTransmit d (getReg (packed i (s.driver d)).shadow (firstSent i))
      (setDriver d (packed i (s.driver d)) s)).driver d).chip =
      { (s.driver d).chip with regs := setReg (s.driver d).chip.regs (firstSent i) none } := by
    rw [refuseTransmit_driver_self _ _ _ (by rwa [setDriver_length]), chip_packed hi]
    simp only [Chip.receiveMaybe, regOfDatagram_packed i hd hsig]
  refine ⟨_, firstSent i, exec_refused ht hi hd h3 h, ?_, fun e => ?_, fun e he => ?_, writesReg_firstSent ht hi, ?_,
    fun r hr => ?_, ?_, ?_, ?_⟩
  · have hcode : (refusal s).code = if s.busState = .uninitialized then 2#3 else 1#3 := by
      unfold refusal
      split <;> rfl
    rw [← hcode]
    rfl
  · rw [respond_driver, refuseTransmit_driver_status, setDriver_packed_status hi]
  · rw [respond_driver, refuseTransmit_driver_other _ _ _ he, setDriver_other _ _ he]
  · rw [respond_driver, hchip, getReg_setReg_self]
  · rw [respond_driver, hchip, getReg_setReg_other _ _ hr]
  · rw [respond_driver, hchip]
  · rintro mA rfl
    rfl
  · rintro sel rfl
    rw [respond_driver, hchip]
    rfl

/-! ## Sent: one register -/

/-- Everything a command that sends one register does when it is not refused, whichever way the transfer goes (R70, R150). -/
theorem exec_oneShot_sends {i : Instr} {d : Nat} {r : Reg} {s : State} (h1 : oneShot i = some (d, r)) (hs : CanSend s d) :
    ∃ (t : State) (m : List Host.Cell) (st : Status), exec i s = .next t ∧ Replied s t st.code 0#32 ∧
      WithBit s.buf m (s.driver d).wiring.csBit false ∧ WithBit s.buf t.buf (s.driver d).wiring.csBit true ∧
      t.events = s.events ++ exchangeEvents m t.buf s.nb (getReg (t.driver d).shadow r) ∧
      t.inbound = s.inbound.tail ∧ t.xferCount = s.xferCount + 1 ∧
      (nextAnswer s = .fail → st = .transferFailure ∧ (t.driver d).status = (s.driver d).status) ∧
      (∀ r0 r1 r2, nextAnswer s = .bytes r0 r1 r2 → st = .ok ∧ (t.driver d).status = (r0 ++ r1 ++ r2).extractLsb 23 4) := by
  obtain ⟨hi, -, -⟩ := oneShot_spec h1
  have hs' := canSend_packed hi hs
  have hm := withBit_writeBit s.buf (s.driver d).wiring.csBit false
  have hm' := withBit_writeBit s.buf (s.driver d).wiring.csBit true
  obtain ⟨t, st, hsent, hshadow, hevents, hbuf, hinbound, hcount, hresponses, -, hfail, hok⟩ :=
    transmit_spec (u := setDriver d (packed i (s.driver d)) s) (getReg (packed i (s.driver d)).shadow r) hs'.1
      (by rw [setDriver_packed_wiring hi]) hs'.2.1 hs.2.2 hm hm' fun _ _ => rfl
  rw [setDriver_self _ hs.1] at hshadow
  rw [setDriver_packed_status hi] at hfail
  refine ⟨respond st 0#32 t, _, st, ?_, ⟨rfl, rfl, ?_⟩, hm, fun j => ?_, ?_, hinbound, hcount, hfail, hok⟩
  · rw [exec_oneShot h1 hs.1, hsent, conclude_eq]
  · rw [respond_responses, hresponses]
    rfl
  · exact (hbuf j).trans (hm' j)
  · rw [respond_events, respond_buf, respond_driver, hevents, hshadow, exchangeEvents_congr _ _ _ hbuf]
    rfl

/-- Settles O39: the case of the transfer that answers. -/
theorem transmitSendsAndCaptures : Obligations.TransmitSendsAndCaptures := by
  intro i d r r0 r1 r2 s h1 hs hanswer
  obtain ⟨t, m, st, hexec, hreplied, hm, hbuf, hevents, hinbound, hcount, -, hok⟩ := exec_oneShot_sends h1 hs
  obtain ⟨rfl, hstatus⟩ := hok _ _ _ hanswer
  exact ⟨t, m, hexec, hreplied, hstatus, hm, hbuf, hevents, hinbound, hcount⟩

/-- Settles O40: the case of the transfer that fails. -/
theorem failedTransferDeselectsAndKeepsStatus : Obligations.FailedTransferDeselectsAndKeepsStatus := by
  intro i d r s h1 hs hanswer
  obtain ⟨t, m, st, hexec, hreplied, hm, hbuf, hevents, hinbound, hcount, hfail, -⟩ := exec_oneShot_sends h1 hs
  obtain ⟨rfl, hstatus⟩ := hfail hanswer
  exact ⟨t, m, hexec, hreplied, hstatus, hm, hbuf, hevents, hinbound, hcount⟩

/-! ## Published -/

/-- A state from which driver `d` can send on a coherent bus of `nb` boards. -/
structure Sendable (d nb : Nat) (u : State) : Prop where
  canSend : CanSend u d
  bus : BusInv u
  boards : u.nb = nb

/-- Every latch of the first `nb` boards holds its bit of the buffer (R73). -/
def Published (nb : Nat) (u : State) : Prop := ∀ k, k < 32 * nb → u.wires.latches[k]? = some (some (Memory.readBit u.buf k))

theorem Sendable.transmit {d nb : Nat} {u : State} (h : Sendable d nb u) (v : Reg20) :
    Sendable d nb (transmit d v u).1 ∧ Published nb (transmit d v u).1 := by
  obtain ⟨hbus, hlatches⟩ := transmit_latches v h.canSend h.bus
  obtain ⟨-, -, hnb, -⟩ := transmit_frame d v u
  exact ⟨⟨(transmit_sends v h.canSend).1, hbus, hnb.trans h.boards⟩, h.boards ▸ hlatches⟩

/-- The last transmit of a command publishes the buffer (R80). -/
theorem exec_sending_published {i : Instr} {d : Nat} {s t : State} (ht : i.transmits = true) (hi : i.target = some d)
    (h3 : i ≠ .mdRdstat d 3) (hs : CanSend s d) (hb : BusInv s) (h : exec i s = .next t) : Published s.nb t := by
  have hpacked : Sendable d s.nb (setDriver d (packed i (s.driver d)) s) :=
    ⟨canSend_packed hi hs, busInv_of_bus_eq rfl rfl rfl rfl rfl hb, rfl⟩
  obtain ⟨r, r', -, -, e | e⟩ := exec_sending ht hi hs.1 h3 <;> rw [e, conclude_eq, Host.Outcome.next.injEq] at h <;> subst h
  · exact (hpacked.transmit _).2
  · exact (thenTransmit_keeps (P := fun u => Sendable d s.nb u ∧ Published s.nb u) (hpacked.transmit _)
      fun hfirst => hfirst.1.transmit _).2

/-- Settles O42: the last commit of the command publishes the buffer, in which only the chip-select bit has changed. -/
theorem transmitPublishesPendingChanges : Obligations.TransmitPublishesPendingChanges := by
  intro i d s t ht hi hsel hs hb h k hk
  have h3 : i ≠ .mdRdstat d 3 := fun heq => hsel 3 heq rfl
  rw [exec_sending_published ht hi h3 hs hb h k hk, exec_sending_buf ht hi h3 hs h k]

/-! ## The readout MD_RDSTAT latches -/

/-- MD_RDSTAT packs RDSEL (R200). -/
theorem packed_rdstat_selector (d : Nat) {sel : Nat} (hsel : sel < 4) (m : Driver) :
    ((packed (.mdRdstat d sel) m).shadow.drvconf.extractLsb 5 4).toNat = sel :=
  (extractLsb_setf_same m.shadow.drvconf sel (by decide) (by decide)).trans (Nat.mod_eq_of_lt hsel)

/-- An answered MD_RDSTAT that changes the selector, or finds it in the chip, leaves the chip on it and marks the word with it (R74, R282). -/
theorem exec_rdstat_latches {d sel : Nat} {s t : State} (hs : CanSend s d) (hss : SoleSelect s d) (hsig : SignatureInv s)
    (hsel : sel < 3) (h : exec (.mdRdstat d sel) s = .next t) (hok : t.respStatus = 0#3)
    (hchip : ((s.driver d).shadow.drvconf.extractLsb 5 4).toNat ≠ sel ∨ (s.driver d).chip.selector = some sel) :
    (t.driver d).chip.selector = some sel ∧ (t.driver d).chip.statusSel = some sel := by
  have hsent := packed_rdstat_selector d (show sel < 4 by omega) (s.driver d)
  rw [exec_rdstat hs.1 (by omega)] at h
  by_cases hchange : sel ≠ getf (s.driver d).shadow.drvconf layout.rdsel
  · rw [if_pos hchange] at h
    obtain ⟨hstatus, rfl⟩ := conclude_ok h hok
    obtain ⟨u, h1, h2⟩ := thenTransmit_packed_answered hs hss hsig rfl .drvconf .drvconf hstatus
    exact ⟨h2.selector.trans (congrArg some hsent), (h2.statusSel.trans h1.selector).trans (congrArg some hsent)⟩
  · rw [if_neg hchange] at h
    obtain ⟨hstatus, rfl⟩ := conclude_ok h hok
    have h1 := transmit_packed_answered hs hss hsig rfl .drvconf hstatus
    have hsame : ((s.driver d).shadow.drvconf.extractLsb 5 4).toNat = sel :=
      (getf_eq_extractLsb _ _ _).symm.trans (not_not.1 hchange).symm
    have hheld := hchip.resolve_left (not_not.2 hsame)
    rw [← chip_packed (i := .mdRdstat d sel) rfl] at hheld
    exact ⟨h1.selector.trans (congrArg some hsent), h1.statusSel.trans hheld⟩

/-- Settles O47: after a change the second word is for the selector the first transmit sent; without one the chip held it already. -/
theorem readStatusLatchesTheRequestedReadout : Obligations.ReadStatusLatchesTheRequestedReadout := by
  intro d sel s t hs hss hsig hsel h hok hchip
  obtain ⟨hselector, hstatusSel⟩ := exec_rdstat_latches hs hss hsig hsel h hok hchip
  exact ⟨hselector, hstatusSel, (exec_rdstat_answered hs hss hsig h hok).agrees _ ((writesReg_rdstat_iff d sel _).2 rfl)⟩

end Sys2Proof.Machine
end

section
/-! PROOFS. The bit of the buffer a command stores to, and that it leaves every other bit and byte alone (20_memory R60, R70, R72). -/

namespace Sys2Proof.Machine

open Sys2Proof.Safety


/-- The buffer `m'` is `m` outside bit `a` and the byte that holds it. -/
structure SameOutside (a : Nat) (m m' : List Host.Cell) : Prop where
  bit : ∀ j, j ≠ a → Memory.readBit m' j = Memory.readBit m j
  byte : ∀ b, b ≠ a / 8 → Memory.read m' b = Memory.read m b

theorem SameOutside.writeBit {a : Nat} {m m' : List Host.Cell} (h : SameOutside a m m') (b : Bool) :
    SameOutside a m (Memory.writeBit m' a b) :=
  ⟨fun j hj => (Memory.readBit_writeBit_other _ _ hj).trans (h.bit j hj),
    fun k hk => (Memory.read_writeBit_other _ _ hk).trans (h.byte k hk)⟩

theorem SameOutside.refl (a : Nat) (m : List Host.Cell) : SameOutside a m m := ⟨fun _ _ => rfl, fun _ _ => rfl⟩

/-- A transmit stores to the chip-select bit only, or to none (R70). -/
theorem transmit_sameOutside {d : Nat} {m : List Host.Cell} {u : State} (v : Reg20)
    (h : SameOutside (u.driver d).wiring.csBit m u.buf) : SameOutside (u.driver d).wiring.csBit m (transmit d v u).1.buf := by
  have hexchange : SameOutside (u.driver d).wiring.csBit m (exchange d v u).buf := by
    rw [exchange_buf]
    exact (h.writeBit false).writeBit true
  rcases transmit_cases d v u with ⟨-, e⟩ | ⟨-, -, e⟩ | ⟨-, -, -, e⟩ | ⟨-, -, _, _, _, -, e⟩ <;> rw [e]
  · exact h
  · exact h
  · exact hexchange
  · exact hexchange

theorem storedBit_of_transmits {i : Instr} {d : Nat} (s : State) (ht : i.transmits = true) (hi : i.target = some d) :
    storedBit i s = some (s.driver d).wiring.csBit := by
  have hstored : storedBit i s = if i.transmits then i.target.map fun d => (s.driver d).wiring.csBit else none := by
    cases i
    case busSetbit => cases hi
    case busClearbit => cases hi
    all_goals rfl
  rw [hstored, if_pos ht, hi]
  rfl

/-- An MD command stores to the chip-select bit of its driver only (R70). -/
theorem exec_md_sameOutside {i : Instr} {d : Nat} {s t : State} (hi : i.target = some d) (h : exec i s = .next t) :
    SameOutside (s.driver d).wiring.csBit s.buf t.buf := by
  have kept := exec_md_keeps (P := fun u => (u.driver d).wiring.csBit = (s.driver d).wiring.csBit ∧
    SameOutside (s.driver d).wiring.csBit s.buf u.buf) hi h ⟨rfl, .refl _ _⟩ (fun _ _ hu => hu) (fun _ _ hu => hu)
    (fun _ hu => hu) ?pack ?send
  case pack => exact fun _ => ⟨by rw [setDriver_packed_wiring hi], .refl _ _⟩
  case send =>
    rintro r u - ⟨hcs, hbuf⟩
    obtain ⟨-, -, -, hwiring⟩ := transmit_driver_frame d (getReg (u.driver d).shadow r) u d
    rw [← hcs] at hbuf ⊢
    exact ⟨by rw [hwiring], transmit_sameOutside _ hbuf⟩
  exact kept.2

/-- BUS_INIT and BUS_TEARDOWN apart, a command leaves the buffer as it is or stores to its bit (R60). -/
theorem exec_buf {i : Instr} {s t : State} (hinit : ∀ nb, i ≠ .busInit nb) (hteardown : i ≠ .busTeardown)
    (h : exec i s = .next t) : t.buf = s.buf ∨ ∃ a, storedBit i s = some a ∧ SameOutside a s.buf t.buf := by
  cases hi : i.target with
  | none =>
    rcases exec_bus_cases hi h with ⟨st, v, -, rfl⟩ | ⟨nb, rfl, -⟩ | ⟨nb, rfl, -⟩ | ⟨u, b, hstore, -, -, rfl⟩ |
      ⟨-, -, rfl⟩ | ⟨rfl, -⟩
    · exact .inl rfl
    · exact absurd rfl (hinit nb)
    · exact absurd rfl (hinit nb)
    · refine .inr ⟨u, ?_, (SameOutside.refl u s.buf).writeBit b⟩
      rcases hstore with rfl | rfl <;> rfl
    · exact .inl rfl
    · exact absurd rfl hteardown
  | some d =>
    rcases exec_md_cases hi h with ⟨-, rfl⟩ | ⟨-, -, v, rfl⟩ | ⟨-, -, rfl⟩ | ⟨-, ht, -⟩
    · exact .inl rfl
    · exact .inl rfl
    · exact .inl rfl
    · exact .inr ⟨_, storedBit_of_transmits s ht hi, exec_md_sameOutside hi h⟩

/-- Settles O53: a command that stores to a bit leaves every other bit, and every byte but the one that holds it. -/
theorem onlyTheStoredBitOfTheBufferChanges : Obligations.OnlyTheStoredBitOfTheBufferChanges := by
  intro i s t hinit hteardown h
  rcases exec_buf hinit hteardown h with e | ⟨a, ha, same⟩
  · rw [e]
    exact ⟨fun _ _ => rfl, fun _ _ => rfl⟩
  · exact ⟨fun j hj => same.bit j (hj a ha), fun b hb => same.byte b (hb a ha)⟩

end Sys2Proof.Machine
end

section
/-! PROOFS. The command word of a well-formed command decodes to that command (30_encoding R90, R93 to R97). -/

namespace Sys2Proof

open Sys2Proof.Laws.OpcodeField

/-! ## Reading one field back -/

/-- The word `w` holds the target and the operand area in their places (R90). -/
structure Holds (w : Word) (target area : Nat) : Prop where
  target : tgt w = target
  field : ∀ {hi lo : Nat}, lo ≤ hi → hi < 52 → bits w hi lo = area / 2 ^ lo % 2 ^ (hi - lo + 1)

theorem holds_assemble {opc target area : Nat} (ho : opc < 2 ^ 8) (ht : target < 2 ^ 4) (ha : area < 2 ^ 52) :
    Holds (assemble opc target area) target area :=
  ⟨(assemble_fields ho ht ha).2, bits_assemble ho ht ha⟩

section Fields

variable {w : Word} {target area hi lo k : Nat} (hw : Holds w target area)

include hw

/-- An unsigned field of the area is what `bits` reads (R94). -/
theorem Holds.unsigned {x : Nat} (h : area / 2 ^ lo % 2 ^ (hi - lo + 1) = x) (hlo : lo ≤ hi := by decide)
    (hhi : hi < 52 := by decide) : bits w hi lo = x := (hw.field hlo hhi).trans h

/-- A field of the area that spells a signed operand is that operand for `sbits` (R94). -/
theorem Holds.signed {x : Int} (hx : fitsS k x = true) (h : area / 2 ^ lo % 2 ^ (hi - lo + 1) = twos k x)
    (hk : hi - lo + 1 = k := by decide) (hlo : lo ≤ hi := by decide) (hhi : hi < 52 := by decide) : sbits w hi lo = x := by
  subst hk
  rw [sbits, hw.unsigned h hlo hhi, signed_twos (Nat.succ_pos _) hx]

/-- A bit of the area that spells a Boolean is that Boolean for `flagBit` (R94). -/
theorem Holds.flag {b : Bool} (h : area / 2 ^ lo % 2 ^ (lo - lo + 1) = flagNat b) (hlo : lo < 52 := by decide) :
    flagBit w lo = b := by
  rw [flagBit, hw.unsigned h le_rfl hlo]
  cases b <;> rfl

end Fields

/-! ## Reading a command back -/

/-- An assembled word decodes to what its row reads in a word with that target and operand area. -/
theorem decode_assemble_of_read {opc target area : Nat} {row : OpcodeRow} {i : Instr} (hr : opcodeRow opc = some row)
    (ho : opc < 2 ^ 8) (ht : fitsU 4 target = true) (ha : area < 2 ^ row.reservedFrom) (hb : row.bus = true → target = 0)
    (hread : ∀ {w : Word}, Holds w target area → row.read w = i) : decode (assemble opc target area) = .legal i := by
  have ht : target < 2 ^ 4 := of_decide_eq_true ht
  have hle : row.reservedFrom ≤ 52 := (reservedFrom_le hr).trans (by decide)
  rw [decode_assemble hr ho ht ha hb,
    hread (holds_assemble ho ht (ha.trans_le (Nat.pow_le_pow_right (by decide) hle)))]

/-- A command with a target and no operand. -/
theorem decode_assemble_target {opc d : Nat} {c : Nat → Instr} (hr : opcodeRow opc = some ⟨0, false, fun w => c (tgt w)⟩)
    (ho : opc < 2 ^ 8) (hd : fitsU 4 d = true) : decode (assemble opc d 0) = .legal (c d) :=
  decode_assemble_of_read hr ho hd Nat.one_pos nofun fun hw => congrArg c hw.target

/-- A command with a target and one unsigned operand. -/
theorem decode_assemble_unsigned {opc d r x : Nat} {c : Nat → Nat → Instr} {bus : Bool}
    (hr : opcodeRow opc = some ⟨r + 1, bus, fun w => c (tgt w) (bits w r 0)⟩) (ho : opc < 2 ^ 8) (hb : bus = true → d = 0)
    (hd : fitsU 4 d = true) (hx : fitsU (r + 1) x = true) : decode (assemble opc d x) = .legal (c d x) := by
  have hx : x < 2 ^ (r + 1) := of_decide_eq_true hx
  have hr44 : r + 1 ≤ 44 := reservedFrom_le hr
  refine decode_assemble_of_read hr ho hd hx hb fun hw => ?_
  have hfield : x / 2 ^ 0 % 2 ^ (r - 0 + 1) = x := by rw [Nat.pow_zero, Nat.div_one, Nat.sub_zero, Nat.mod_eq_of_lt hx]
  exact congrArg₂ c hw.target (hw.unsigned hfield r.zero_le (by omega))

/-- A command with a target and one flag. -/
theorem decode_assemble_flag {opc d : Nat} {b : Bool} {c : Nat → Bool → Instr}
    (hr : opcodeRow opc = some ⟨1, false, fun w => c (tgt w) (flagBit w 0)⟩) (ho : opc < 2 ^ 8)
    (hd : fitsU 4 d = true) : decode (assemble opc d (flagNat b)) = .legal (c d b) := by
  have hb := flagNat_le b
  refine decode_assemble_of_read hr ho hd (Nat.lt_succ_of_le hb) nofun fun hw => ?_
  exact congrArg₂ c hw.target (hw.flag (by omega))

theorem decode_encode {i : Instr} (h : i.wellFormed = true) : decode (encode i) = .legal i := by
  cases i <;> simp only [Instr.wellFormed, Bool.and_eq_true] at h
  case busInit nb => exact decode_assemble_unsigned (c := fun _ => .busInit) rfl (by decide) (fun _ => rfl) rfl h
  case busSetbit u => exact decode_assemble_unsigned (c := fun _ => .busSetbit) rfl (by decide) (fun _ => rfl) rfl h
  case busClearbit u => exact decode_assemble_unsigned (c := fun _ => .busClearbit) rfl (by decide) (fun _ => rfl) rfl h
  case busCommit => decide
  case busTeardown => decide
  case busIndex board slot offset =>
    simp only [fitsU, decide_eq_true_eq] at h
    refine decode_assemble_of_read rfl (by decide) rfl (show _ < 2 ^ 24 by omega) (fun _ => rfl) fun hw => ?_
    exact (Instr.busIndex.injEq ..).mpr ⟨hw.unsigned (by omega), hw.unsigned (by omega), hw.unsigned (by omega)⟩
  case mdSetcur d mA => exact decode_assemble_unsigned rfl (by decide) nofun h.1 h.2
  case mdSetmres d n =>
    obtain ⟨hd, hn⟩ := h
    have hn16 := twos_lt 16 n
    refine decode_assemble_of_read rfl (by decide) hd hn16 nofun fun hw => ?_
    exact (Instr.mdSetmres.injEq ..).mpr ⟨hw.target, hw.signed hn (by omega)⟩
  case mdChopConst d off blank fastDecay sineOffset useComparator =>
    obtain ⟨⟨⟨⟨hd, hoff⟩, hblank⟩, hfast⟩, hsine⟩ := h
    have := twos_lt 8 off
    have := twos_lt 8 blank
    have := twos_lt 8 fastDecay
    have := twos_lt 8 sineOffset
    have := flagNat_le useComparator
    refine decode_assemble_of_read rfl (by decide) hd (show _ < 2 ^ 33 by omega) nofun fun hw => ?_
    exact (Instr.mdChopConst.injEq ..).mpr ⟨hw.target, hw.signed hoff (by omega), hw.signed hblank (by omega),
      hw.signed hfast (by omega), hw.signed hsine (by omega), hw.flag (by omega)⟩
  case mdChopSpread d off blank hystStart hystEnd hystDecrement =>
    obtain ⟨⟨⟨⟨⟨hd, hoff⟩, hblank⟩, hstart⟩, hend⟩, hdecrement⟩ := h
    have := twos_lt 8 off
    have := twos_lt 8 blank
    have := twos_lt 8 hystStart
    have := twos_lt 8 hystEnd
    have := twos_lt 8 hystDecrement
    refine decode_assemble_of_read rfl (by decide) hd (show _ < 2 ^ 40 by omega) nofun fun hw => ?_
    exact (Instr.mdChopSpread.injEq ..).mpr ⟨hw.target, hw.signed hoff (by omega), hw.signed hblank (by omega),
      hw.signed hstart (by omega), hw.signed hend (by omega), hw.signed hdecrement (by omega)⟩
  case mdSgt d t filterEnabled =>
    obtain ⟨hd, ht⟩ := h
    have := twos_lt 8 t
    have := flagNat_le filterEnabled
    refine decode_assemble_of_read rfl (by decide) hd (show _ < 2 ^ 9 by omega) nofun fun hw => ?_
    exact (Instr.mdSgt.injEq ..).mpr ⟨hw.target, hw.signed ht (by omega), hw.flag (by omega)⟩
  case mdCoolcfg d lowerThr hysteresis decStep incStep lowerLimit =>
    obtain ⟨⟨⟨⟨⟨hd, hthr⟩, hhyst⟩, hdec⟩, hinc⟩, hlimit⟩ := h
    simp only [fitsU, decide_eq_true_eq] at hthr hhyst hdec hinc hlimit
    refine decode_assemble_of_read rfl (by decide) hd (show _ < 2 ^ 44 by omega) nofun fun hw => ?_
    exact (Instr.mdCoolcfg.injEq ..).mpr ⟨hw.target, hw.unsigned (by omega), hw.unsigned (by omega), hw.unsigned (by omega),
      hw.unsigned (by omega), hw.unsigned (by omega)⟩
  case mdCoolen d flag => exact decode_assemble_flag rfl (by decide) h
  case mdEnable d flag => exact decode_assemble_flag rfl (by decide) h
  case mdRdstat d selector => exact decode_assemble_unsigned rfl (by decide) nofun h.1 h.2
  all_goals exact decode_assemble_target rfl (by decide) h

/-- Settles O14: the operand area of an encoded command is read back field by field. -/
theorem decodeOfEncode : Obligations.DecodeOfEncode := fun _ h => decode_encode h

end Sys2Proof
end

section
/-! PROOFS. A legal word is the command word of the one command its row reads (30_encoding R90, R93 to R97). -/

namespace Sys2Proof

/-! ## The fields of a word -/

/-- The lowest field of the operand area. -/
theorem bits_zero (w : Word) (hi : Nat) : bits w hi 0 = w.toNat % 2 ^ (hi + 1) := by
  rw [bits, Nat.pow_zero, Nat.div_one, Nat.sub_zero]

/-- A field put above the bits below it. -/
theorem mod_add_bits (w : Word) {hi lo : Nat} (h : lo ≤ hi) :
    w.toNat % 2 ^ lo + bits w hi lo * 2 ^ lo = w.toNat % 2 ^ (hi + 1) := by
  rw [bits, show hi + 1 = lo + (hi - lo + 1) by omega, Nat.pow_add 2 lo, Nat.mod_mul, Nat.mul_comm]

/-- What a signed field reads is spelled by its bits (R94). -/
theorem twos_sbits (w : Word) {hi lo k : Nat} (hk : hi - lo + 1 = k) : twos k (sbits w hi lo) = bits w hi lo := by
  subst hk
  exact twos_signed (bits_lt w rfl)

theorem fitsU_bits (w : Word) {hi lo k : Nat} (hk : hi - lo + 1 = k) : fitsU k (bits w hi lo) = true :=
  decide_eq_true (bits_lt w hk)

theorem fitsU_tgt (w : Word) : fitsU 4 (tgt w) = true := fitsU_bits w rfl

theorem fitsS_sbits (w : Word) {hi lo k : Nat} (hk : hi - lo + 1 = k) : fitsS k (sbits w hi lo) = true := by
  subst hk
  exact fitsS_signed (Nat.succ_pos _) (bits_lt w rfl)

/-- The opcode, the target and the operand area spell the word (R90). -/
theorem assemble_fields_of_word (w : Word) : assemble (bits w 63 56) (tgt w) (w.toNat % 2 ^ 52) = w := by
  have hw := w.isLt
  apply BitVec.eq_of_toNat_eq
  simp only [assemble, tgt, bits, BitVec.toNat_ofNat]
  omega

/-! ## What a row reads -/

/-- A row reads each operand out of a field it fits (R93, R94). -/
theorem read_wellFormed {n : Nat} {row : OpcodeRow} (h : opcodeRow n = some row) (w : Word) :
    (row.read w).wellFormed = true := by
  unfold opcodeRow at h
  split at h <;> cases h <;>
    simp only [Instr.wellFormed, fitsU_bits, fitsU_tgt, fitsS_sbits, Bool.and_self, Nat.reduceSub, Nat.reduceAdd]

/-- The command word of what a row reads takes the target and the operands of the word, bit for bit (R93, R95). -/
theorem encode_read {n : Nat} {row : OpcodeRow} (h : opcodeRow n = some row) (w : Word) :
    encode (row.read w) = assemble n (if row.bus then 0 else tgt w) (w.toNat % 2 ^ row.reservedFrom) := by
  unfold opcodeRow at h
  split at h <;> cases h <;>
    simp only [encode, twos_sbits, flagNat_flagBit, bits_zero, mod_add_bits, Nat.reduceSub, Nat.reduceAdd, Nat.reduceLeDiff,
      if_true, Bool.false_eq_true, if_false, Nat.pow_zero, Nat.mod_one]

/-- With the reserved bits 0 the operand area is what stands below them (R93). -/
theorem mod_reserved {w : Word} {r : Nat} (hr : r ≤ 51) (h : bits w 51 r = 0) : w.toNat % 2 ^ r = w.toNat % 2 ^ 52 := by
  rw [← mod_add_bits w hr, h, Nat.zero_mul, Nat.add_zero]

theorem encode_of_decode {w : Word} {i : Instr} (h : decode w = .legal i) : i.wellFormed = true ∧ encode i = w := by
  obtain ⟨row, hrow, hreserved, hbus, rfl⟩ := decode_legal_iff.1 h
  refine ⟨read_wellFormed hrow w, ?_⟩
  have hr : row.reservedFrom ≤ 51 := (reservedFrom_le hrow).trans (by decide)
  have htgt : (if row.bus then 0 else tgt w) = tgt w := by
    split
    · next hb => exact (hbus hb).symm
    · rfl
  rw [encode_read hrow, htgt, mod_reserved hr hreserved, assemble_fields_of_word]

/-- Settles O15: a row reads well-formed operands, and their command word has the opcode, the target and the operand bits of the word. -/
theorem encodeOfDecode : Obligations.EncodeOfDecode := fun _ _ h => encode_of_decode h

end Sys2Proof
end

section
/-! PROOFS. The legal words are those that match a row of the opcode table under its mask (30_encoding R93, R95 to R97). -/

namespace Sys2Proof

open Sys2Proof.Safety

/-! ## The mask of a row -/

/-- The bits a row tests: the opcode, the reserved bits and, in the BUS family, the target (R93, R95). -/
def OpcodeRow.mask (row : OpcodeRow) : Nat :=
  if row.bus then 2 ^ 64 - 2 ^ row.reservedFrom else (2 ^ 64 - 1 - 15 * 2 ^ 52) &&& (2 ^ 64 - 2 ^ row.reservedFrom)

theorem opcode_lt {n : Nat} {row : OpcodeRow} (h : opcodeRow n = some row) : n < 2 ^ 8 := by
  have hmem := opcodeRow_mem h
  simp only [List.cons_append, List.nil_append, List.mem_cons, List.not_mem_nil, or_false] at hmem
  omega

/-- A word matches a row under its mask exactly when it passes the tests of R97 for that row. -/
theorem and_mask_iff {n : Nat} {row : OpcodeRow} (h : opcodeRow n = some row) (w : Word) :
    w &&& BitVec.ofNat 64 row.mask = BitVec.ofNat 64 (n * 2 ^ 56) ↔
      bits w 63 56 = n ∧ bits w 51 row.reservedFrom = 0 ∧ (row.bus = true → tgt w = 0) := by
  have hn := opcode_lt h
  have hr : row.reservedFrom ≤ 51 := (reservedFrom_le h).trans (by decide)
  have hmask : row.mask < 2 ^ 64 := by
    unfold OpcodeRow.mask
    split
    · exact Nat.sub_lt (by decide) (by positivity)
    · exact Nat.and_lt_two_pow _ (Nat.sub_lt (by decide) (by positivity))
  rw [← BitVec.toNat_inj, BitVec.toNat_and, BitVec.toNat_ofNat, BitVec.toNat_ofNat, Nat.mod_eq_of_lt hmask,
    Nat.mod_eq_of_lt (by omega), OpcodeRow.mask]
  cases hb : row.bus with
  | true => simp only [if_true, busMask_iff w hn hr, forall_const]
  | false => simp only [Bool.false_eq_true, if_false, mdMask_iff w hn hr, false_imp_iff, and_true]

/-! ## The table and the rows -/

/-- The table lists every row, under the mnemonic of what the row reads (R96). -/
theorem lookup_mnemonic_read {n : Nat} {row : OpcodeRow} (h : opcodeRow n = some row) (w : Word) :
    opcodeTable.lookup (row.read w).mnemonic = some (BitVec.ofNat 64 (n * 2 ^ 56), BitVec.ofNat 64 row.mask) := by
  unfold opcodeRow at h
  split at h <;> cases h <;> rfl

/-- What a row reads has one mnemonic, whatever the word. -/
theorem mnemonic_read {n : Nat} {row : OpcodeRow} (h : opcodeRow n = some row) (w w' : Word) :
    (row.read w).mnemonic = (row.read w').mnemonic := by
  unfold opcodeRow at h
  split at h <;> cases h <;> rfl

/-- No mnemonic stands in the table twice. -/
theorem lookup_of_mem : ∀ e ∈ opcodeTable, opcodeTable.lookup e.1 = some e.2 := by decide

/-- The match of every line of the table has the opcode of a row that reads commands of that line's mnemonic. -/
theorem mnemonic_match : ∀ e ∈ opcodeTable,
    (opcodeRow (bits e.2.1 63 56)).map (fun row => (row.read e.2.1).mnemonic) = some e.1 := by decide

/-- Every line of the table is that of a row: its mnemonic, its opcode, its mask (R96). -/
theorem row_of_mem {e : String × Word × Word} (he : e ∈ opcodeTable) :
    ∃ n row, opcodeRow n = some row ∧ (∀ w, (row.read w).mnemonic = e.1) ∧
      e.2 = (BitVec.ofNat 64 (n * 2 ^ 56), BitVec.ofNat 64 row.mask) := by
  obtain ⟨row, hrow, hname⟩ := Option.map_eq_some_iff.1 (mnemonic_match e he)
  have hline := lookup_mnemonic_read hrow e.2.1
  rw [hname, lookup_of_mem e he] at hline
  exact ⟨_, row, hrow, fun w => (mnemonic_read hrow w e.2.1).trans hname, Option.some.inj hline⟩

/-! ## Words and lines -/

/-- A word decodes to a command of a line exactly when it matches that line under its mask (R97). -/
theorem decode_line_iff {e : String × Word × Word} (he : e ∈ opcodeTable) (w : Word) :
    (∃ i, decode w = .legal i ∧ i.mnemonic = e.1) ↔ w &&& e.2.2 = e.2.1 := by
  constructor
  · rintro ⟨i, hdecode, hname⟩
    obtain ⟨row, hrow, hreserved, hbus, rfl⟩ := decode_legal_iff.1 hdecode
    have hline := lookup_mnemonic_read hrow w
    rw [hname, lookup_of_mem e he] at hline
    rw [Option.some.inj hline]
    exact (and_mask_iff hrow w).2 ⟨rfl, hreserved, hbus⟩
  · intro hmatch
    obtain ⟨n, row, hrow, hname, hline⟩ := row_of_mem he
    rw [hline] at hmatch
    obtain ⟨rfl, hreserved, hbus⟩ := (and_mask_iff hrow w).1 hmatch
    exact ⟨row.read w, decode_legal_iff.2 ⟨row, hrow, hreserved, hbus, rfl⟩, hname w⟩

/-- A legal word decodes to a command of some line. -/
theorem line_of_decode {w : Word} {i : Instr} (h : decode w = .legal i) : ∃ e ∈ opcodeTable, i.mnemonic = e.1 := by
  obtain ⟨row, hrow, -, -, rfl⟩ := decode_legal_iff.1 h
  obtain ⟨before, after, hsplit, -⟩ := List.lookup_eq_some_iff.1 (lookup_mnemonic_read hrow w)
  exact ⟨_, hsplit ▸ List.mem_append_right before List.mem_cons_self, rfl⟩

/-- A word is illegal exactly when it matches no line (R97). -/
theorem no_line_iff_illegal (w : Word) : (∀ e ∈ opcodeTable, w &&& e.2.2 ≠ e.2.1) ↔ ∃ err, decode w = .illegal err := by
  constructor
  · intro hno
    cases hdecode : decode w with
    | illegal err => exact ⟨err, rfl⟩
    | legal i =>
      obtain ⟨e, he, hname⟩ := line_of_decode hdecode
      exact absurd ((decode_line_iff he w).1 ⟨i, hdecode, hname⟩) (hno e he)
  · rintro ⟨err, hillegal⟩ e he hmatch
    obtain ⟨i, hlegal, -⟩ := (decode_line_iff he w).2 hmatch
    exact nomatch hlegal.symm.trans hillegal

/-- Settles O16: a line's mask tests what R97 tests for its row, and every legal word is of a row. -/
theorem legalWordsAreTheTableRows : Obligations.LegalWordsAreTheTableRows :=
  ⟨fun _ he w => decode_line_iff he w, no_line_iff_illegal⟩

/-! ## Words of the spec -/

/-- Settles O17: each of the thirteen words passes, or fails, the tests of R97 as stated. -/
theorem specWordsDecode : Obligations.SpecWordsDecode := by
  unfold Obligations.SpecWordsDecode
  decide

end Sys2Proof
end

section
/-! PROOFS. A step runs the word it takes and answers it once (30_encoding R91, R92, R97, 60_exceptions R243, R246). -/

namespace Sys2Proof.Machine

open Sys2Proof.Safety

/-! ## The order of the checks -/

theorem step_halted {s : State} (h : s.halted = true) : step s = .fault .halted := if_pos h

theorem step_idle {s : State} (hh : s.halted = false) (hp : s.port = []) : step s = .next s := by
  simp [step, acceptWord, hh, hp]

theorem step_legal {s : State} {w : Word} {rest : List Word} {i : Instr} (hh : s.halted = false) (hp : s.port = w :: rest)
    (hd : decode w = .legal i) : step s = exec i { s with port := rest } := by
  rw [step_of_port hh hp, hd]

theorem step_illegal {s : State} {w : Word} {rest : List Word} {e : DecodeError} (hh : s.halted = false)
    (hp : s.port = w :: rest) (hd : decode w = .illegal e) :
    step s = .next (respond .illegalCommand 0#32 { s with port := rest }) := by
  rw [step_of_port hh hp, hd]
  rfl

theorem withFetchWord_port (s : State) (w : Word) : (s.withFetchWord 64 w.toNat).port = w :: s.port := by
  have hw : BitVec.ofNat 64 (w.toNat % 2 ^ 64) = w := by rw [Nat.mod_eq_of_lt w.isLt, BitVec.ofNat_toNat, BitVec.setWidth_eq]
  exact congrArg (· :: s.port) hw

/-- Settles O13: each clause is one branch of the step, and a fetched word is the head of the port. -/
theorem stepRunsTheDecodedWord : Obligations.StepRunsTheDecodedWord :=
  ⟨fun _ => step_halted, fun _ _ _ _ => step_legal, fun _ _ _ _ => step_illegal, fun _ => step_idle,
    fun s w _ hh => step_legal hh (withFetchWord_port s w)⟩

/-! ## Events are only added -/

theorem exchange_events_prefix (d : Nat) (v : Reg20) (s : State) : s.events <+: (exchange d v s).events := by
  rw [exchange_events, List.append_assoc]
  exact List.prefix_append ..

theorem transmit_events_prefix (d : Nat) (v : Reg20) (s : State) : s.events <+: (transmit d v s).1.events := by
  rcases transmit_cases d v s with ⟨-, e⟩ | ⟨-, -, e⟩ | ⟨-, -, -, e⟩ | ⟨-, -, _, _, _, -, e⟩ <;> rw [e]
  · exact List.prefix_rfl
  · exact List.prefix_rfl
  · exact exchange_events_prefix d v s
  · exact exchange_events_prefix d v s

/-- No command takes an event back (R12, R291). -/
theorem exec_events_prefix {i : Instr} {s t : State} (h : exec i s = .next t) : s.events <+: t.events := by
  refine exec_keeps (P := fun u => s.events <+: u.events) h List.prefix_rfl ?respond ?halt ?log ?busInit ?store ?commit
    ?busTeardown ?pack ?send
  case respond => exact fun _ _ _ _ hu => hu
  case halt => exact List.prefix_rfl
  case log => exact fun _ hu => hu
  case busInit => exact fun _ _ _ => List.prefix_append ..
  case store => exact fun _ _ _ => List.prefix_rfl
  case commit => exact fun _ => List.prefix_append ..
  case busTeardown => exact List.prefix_rfl
  case pack => exact fun _ _ => List.prefix_rfl
  case send => exact fun d r u _ hu => hu.trans (transmit_events_prefix d _ u)

/-! ## One response -/

/-- `t` answers `s` with one response and is as halted as `s`, or halts with none. -/
def AnsweredOnce (s t : State) : Prop :=
  (t.halted = s.halted ∧ ∃ code result, Replied s t code result) ∨ (t.halted = true ∧ t.responses = s.responses)

/-- A response after work that neither halts nor responds. -/
theorem answeredOnce_respond {s u : State} (st : Status) (v : BitVec 32) (hhalted : u.halted = s.halted)
    (hresponses : u.responses = s.responses) : AnsweredOnce s (respond st v u) :=
  .inl ⟨hhalted, st.code, v, rfl, rfl, by rw [respond_responses, hresponses]⟩

/-- Every command ends in one response, or halts (R92, R246). -/
theorem exec_answeredOnce {i : Instr} {s t : State} (h : exec i s = .next t) : AnsweredOnce s t := by
  cases hi : i.target with
  | none =>
    obtain ⟨-, -, -, -, ⟨nb, -, -, -, rfl⟩ | ⟨hhalted, u, st, v, rfl, -, -, -, hresponses⟩⟩ := exec_bus_frame hi h
    · exact .inr ⟨rfl, rfl⟩
    · exact answeredOnce_respond st v hhalted hresponses
  | some d =>
    have hsend (v : Reg20) {u : State} (hu : u.halted = s.halted ∧ u.responses = s.responses) :
        (transmit d v u).1.halted = s.halted ∧ (transmit d v u).1.responses = s.responses := by
      obtain ⟨-, -, -, hhalted, -, -, -, -, hresponses, -⟩ := transmit_frame d v u
      exact ⟨hhalted.trans hu.1, hresponses.trans hu.2⟩
    rcases exec_md_cases hi h with ⟨-, rfl⟩ | ⟨-, -, v, rfl⟩ | ⟨-, -, rfl⟩ | ⟨-, -, -, r, r', sent, -, -, rfl, hsent⟩
    · exact answeredOnce_respond _ _ rfl rfl
    · exact answeredOnce_respond _ _ rfl rfl
    · exact answeredOnce_respond _ _ rfl rfl
    · have hfirst := hsend (getReg (packed i (s.driver d)).shadow r) (u := setDriver d (packed i (s.driver d)) s) ⟨rfl, rfl⟩
      have hboth : sent.1.halted = s.halted ∧ sent.1.responses = s.responses := by
        rcases hsent with rfl | rfl
        · exact hfirst
        · exact thenTransmit_keeps (P := fun u => u.halted = s.halted ∧ u.responses = s.responses) hfirst (hsend _)
      exact answeredOnce_respond _ _ hboth.1 hboth.2

/-- Settles O12: an illegal word is answered at once; a legal one runs a command, which takes nothing from the port and no event back. -/
theorem oneResponsePerWord : Obligations.OneResponsePerWord := by
  intro s t w rest hh hp h
  cases hd : decode w with
  | illegal e =>
    rw [step_illegal hh hp hd, Host.Outcome.next.injEq] at h
    subst h
    exact ⟨rfl, ⟨[], (List.append_nil _).symm⟩, .inl ⟨hh, 5#3, 0#32, rfl, rfl, rfl⟩⟩
  | legal i =>
    rw [step_legal hh hp hd] at h
    obtain ⟨es, hes⟩ := exec_events_prefix h
    have hport : t.port = rest := (blockStateFrame i _ t h).1
    refine ⟨hport, ⟨es, hes.symm⟩, ?_⟩
    rcases exec_answeredOnce h with ⟨hhalted, hreplied⟩ | hhalts
    · exact .inl ⟨hhalted.trans hh, hreplied⟩
    · exact .inr hhalts

end Sys2Proof.Machine
end

section
/-! PROOFS. The BUS commands that open and release the buffer, the counts of a commit's events, and what no BUS command touches
(40_iochain R120, R121, R126, R127, R129, 10_state R273). -/

namespace Sys2Proof.Machine

/-! ## The counts of a commit (R127) -/

/-- An event that a bit's six events hold once when `p` and else not at all is counted by the bits that meet `p`. -/
theorem count_flatMap_bitEvents {e : Event} {p : Bool → Bool} (h : ∀ b, (bitEvents b).count e = if p b then 1 else 0)
    (bs : List Bool) : (bs.flatMap bitEvents).count e = bs.countP p := by
  induction bs with
  | nil => rfl
  | cons b rest ih => rw [List.flatMap_cons, List.count_append, h, ih, List.countP_cons, Nat.add_comm]

/-- A commit counts an event that is no strobe by its bits. -/
theorem count_commitEvents {e : Event} {p : Bool → Bool} (h : ∀ b, (bitEvents b).count e = if p b then 1 else 0)
    (he : ∀ b, e ≠ .stb b) (m : List Host.Cell) (nb : Nat) :
    (commitEvents m nb).count e = (bitsDown m (32 * nb)).countP p := by
  have hstrobe : e ∉ [.stb true, .stb false] := by simp [he]
  rw [commitEvents, List.count_append, count_flatMap_bitEvents h, List.count_eq_zero.2 hstrobe, Nat.add_zero]

/-- The bits at 1 that a commit sends are those of the buffer. -/
theorem countP_bitsDown (m : List Host.Cell) (n : Nat) :
    (bitsDown m n).countP id = (List.range n).countP fun i => Memory.readBit m i := by
  rw [bitsDown_eq_map, List.countP_map, List.countP_reverse]
  rfl

theorem length_flatMap_bitEvents (bs : List Bool) : (bs.flatMap bitEvents).length = 6 * bs.length := by
  induction bs with
  | nil => rfl
  | cons b rest ih =>
    rw [List.flatMap_cons, List.length_append, ih, List.length_cons]
    exact Nat.add_comm ..

theorem length_commitEvents (m : List Host.Cell) (nb : Nat) : (commitEvents m nb).length = 6 * (32 * nb) + 2 := by
  rw [commitEvents, List.length_append, length_flatMap_bitEvents, bitsDown_length]
  rfl

/-- The serial phase raises and lowers no strobe. -/
theorem stb_not_mem_flatMap_bitEvents (b : Bool) (bs : List Bool) : Event.stb b ∉ bs.flatMap bitEvents := by
  simp [bitEvents]

/-- Event `r` of bit `j` of the serial phase. -/
theorem flatMap_bitEvents_getElem? {bs : List Bool} {j r : Nat} {b : Bool} (hj : bs[j]? = some b) (hr : r < 6) :
    (bs.flatMap bitEvents)[6 * j + r]? = (bitEvents b)[r]? := by
  induction bs generalizing j with
  | nil => cases hj
  | cons b' rest ih =>
    rw [List.flatMap_cons]
    cases j with
    | zero =>
      cases hj
      rw [Nat.mul_zero, Nat.zero_add, List.getElem?_append_left hr]
    | succ j =>
      have hindex : 6 * (j + 1) + r = (bitEvents b').length + (6 * j + r) := by
        simp only [bitEvents, List.length_cons, List.length_nil]
        omega
      rw [hindex, List.getElem?_append_right (Nat.le_add_right ..), Nat.add_sub_cancel_left, ih hj]

/-- Event `r` of the `k`-th bit a commit shifts, which is the one at index `32 · nb − k` (R65). -/
theorem commitEvents_getElem? (m : List Host.Cell) {nb k r : Nat} (h1 : 1 ≤ k) (hk : k ≤ 32 * nb) (hr : r < 6) :
    (commitEvents m nb)[6 * (k - 1) + r]? = (bitEvents (Memory.readBit m (32 * nb - k)))[r]? := by
  have hindex : 32 * nb - 1 - (k - 1) = 32 * nb - k := by omega
  have hbit := bitsDown_getElem? m (32 * nb) (k - 1) (by omega)
  rw [hindex] at hbit
  rw [commitEvents, List.getElem?_append_left, flatMap_bitEvents_getElem? hbit hr]
  rw [length_flatMap_bitEvents, bitsDown_length]
  omega

/-- Settles O21: a commit is six events for each bit from the highest index down, then the strobe pulse. -/
theorem commitEventCounts : Obligations.CommitEventCounts := by
  intro m nb
  refine ⟨length_commitEvents m nb, ?clocks, ?ones, ?strobe, fun k h1 hk => ⟨?bit, ?clock⟩⟩
  case clocks =>
    rw [count_commitEvents (e := .clk true) (p := fun _ => true) (by decide) nofun, List.countP_true, bitsDown_length]
  case ones => rw [count_commitEvents (e := .dat true) (p := id) (by decide) nofun, countP_bitsDown]
  case strobe => exact ⟨_, rfl, fun b => stb_not_mem_flatMap_bitEvents b _⟩
  case bit => exact commitEvents_getElem? m h1 hk (r := 0) (by decide)
  case clock => exact commitEvents_getElem? m h1 hk (by decide)

/-! ## What no BUS command touches -/

/-- Settles O26: of the things a BUS command can do, only opening the bus and a commit emit events, and those are line levels. -/
theorem busCommandsLeaveDriversAlone : Obligations.BusCommandsLeaveDriversAlone := by
  intro i s t hi h
  have silent {u : State} (hu : u.events = s.events) :
      ∃ es, u.events = s.events ++ es ∧ ∀ t0 t1 t2, Event.xfer t0 t1 t2 ∉ es :=
    ⟨[], hu.trans (List.append_nil _).symm, fun _ _ _ => List.not_mem_nil⟩
  rcases exec_bus_cases hi h with ⟨st, v, -, rfl⟩ | ⟨nb, -, -, -, rfl⟩ | ⟨nb, -, -, -, -, rfl⟩ | ⟨u, b, -, -, -, rfl⟩ |
    ⟨-, -, rfl⟩ | ⟨-, -, rfl⟩
  · exact ⟨rfl, rfl, rfl, rfl, silent rfl⟩
  · exact ⟨rfl, rfl, rfl, rfl, silent rfl⟩
  · exact ⟨rfl, rfl, rfl, rfl, _, rfl, by simp⟩
  · exact ⟨rfl, rfl, rfl, rfl, silent rfl⟩
  · exact ⟨rfl, rfl, rfl, rfl, _, rfl, fun t0 t1 t2 => xfer_not_mem_commitEvents t0 t1 t2 _ _⟩
  · exact ⟨rfl, rfl, rfl, rfl, silent rfl⟩

/-! ## Opening and releasing the bus -/

theorem exec_busInit_of_lt_one {nb : Nat} (hnb : nb < 1) (s : State) : exec (.busInit nb) s = raise .invalidParameter s :=
  if_pos hnb

theorem exec_busInit_of_ready {nb : Nat} {s : State} (hnb : 1 ≤ nb) (hready : s.busState = .ready) :
    exec (.busInit nb) s = raise .alreadyInitialized s := by
  rw [exec, execBusInit, if_neg (by omega), if_pos hready]

/-- On an Uninitialized bus BUS_INIT of at least one board halts above MAX_BOARDS and otherwise opens the bus (R121, R246). -/
theorem exec_busInit_of_uninitialized {nb : Nat} {s : State} (hnb : 1 ≤ nb) (hbus : s.busState = .uninitialized) :
    exec (.busInit nb) s = if s.params.maxBoards < nb then halt s else answer 0 (opened nb s) := by
  rw [exec, execBusInit, if_neg (by omega), if_neg (by simp [hbus])]
  rfl

/-- Settles O18: the tests in their order, and of an opened bus the empty buffer and the four events that set the lines. -/
theorem busInitAllocatesZeroedBuffer : Obligations.BusInitAllocatesZeroedBuffer := by
  intro nb s
  refine ⟨fun hnb => exec_busInit_of_lt_one hnb s, fun hnb hready => exec_busInit_of_ready hnb hready,
    fun hnb hbus hmax => ?_, fun hnb hbus hmax => ?_⟩
  · rw [exec_busInit_of_uninitialized hnb hbus, if_pos hmax]
    rfl
  · rw [exec_busInit_of_uninitialized hnb hbus, if_neg (Nat.not_lt.2 hmax)]
    exact ⟨_, rfl, rfl, rfl, fun i _ => Memory.readBit_nil i, rfl, rfl, rfl, rfl, rfl, rfl⟩

/-- Settles O24: a Ready bus is released, and releasing changes only the bus state, the board count and the buffer. -/
theorem teardownReleasesTheBuffer : Obligations.TeardownReleasesTheBuffer := by
  refine fun s => ⟨fun hbus => ?_, fun hready => ?_⟩
  · have hnot : s.busState ≠ .ready := by simp [hbus]
    rw [exec, execBusTeardown, if_neg hnot]
    rfl
  · have hreleased : exec .busTeardown s = answer 0 (released s) := if_pos hready
    exact ⟨_, hreleased, rfl, rfl, rfl⟩

end Sys2Proof.Machine
end

section
/-! PROOFS. What each encoding command packs: its codes in the fields its rule names, every other bit kept, and the caches (41_encoders R151 to
R162). -/

namespace Sys2Proof.Machine

open Sys2Proof.Safety

/-! ## The codes (R151, R155 to R160) -/

theorem natCast_blankCode (b : Int) :
    (blankCode b : Int) = if b ≥ 54 then 3 else if b ≥ 36 then 2 else if b ≥ 24 then 1 else 0 := by
  unfold blankCode
  split_ifs <;> rfl

theorem natCast_offCode (off : Int) : (offCode off : Int) = min (max off 2) 15 := by
  unfold offCode clamp
  omega

/-- The clamped off time fits OFF_CACHE (R27). -/
theorem toNat_ofNat_offCode (off : Int) : (BitVec.ofNat 4 (offCode off)).toNat = offCode off :=
  Nat.mod_eq_of_lt ((offCode_bounds off).2.trans_lt (by decide))

theorem natCast_bias3 (x : Int) : (bias3 x : Int) = min (max x (-3)) 12 + 3 := by
  unfold bias3 clamp
  omega

theorem natCast_fastDecayCode (x : Int) : (fastDecayCode x : Int) = min (max x 0) 15 := by
  unfold fastDecayCode clamp
  omega

theorem natCast_hystStartCode (x : Int) : (hystStartCode x : Int) = min (max x 1) 8 - 1 := by
  unfold hystStartCode clamp
  omega

theorem natCast_hystDecrementCode (x : Int) : (hystDecrementCode x : Int) = min (max x 0) 3 := by
  unfold hystDecrementCode clamp
  omega

/-- The threshold field, read as two's complement, is the clamped threshold (R159). -/
theorem toInt_of_toNat_sgtCode {v : BitVec 7} {t : Int} (h : v.toNat = sgtCode t) : v.toInt = min (max t (-64)) 63 := by
  rw [BitVec.toInt_eq_toNat_cond, h]
  unfold sgtCode clamp
  split <;> omega

theorem getD_find?_cons {α : Type} (p : α → Bool) (a : α) (l : List α) (b : α) :
    ((a :: l).find? p).getD b = if p a then a else (l.find? p).getD b := by
  rw [List.find?_cons]
  cases p a <;> rfl

/-- The microstep index is the table of R156: the candidates of R155 tried in turn. -/
theorem mresIndex_eq_table (n : Int) :
    mresIndex n = (if 256 ≤ n then 0 else if 128 ≤ n then 1 else if 64 ≤ n then 2 else if 32 ≤ n then 3 else if 16 ≤ n then 4
      else if 8 ≤ n then 5 else if 4 ≤ n then 6 else if 2 ≤ n then 7 else 8) := by
  have hrange : List.range 9 = [0, 1, 2, 3, 4, 5, 6, 7, 8] := rfl
  unfold mresIndex
  by_cases hn : n ≤ 1
  · rw [if_pos hn]
    split_ifs <;> omega
  · rw [if_neg hn, hrange]
    simp only [getD_find?_cons, List.find?_nil, Option.getD_none, decide_eq_true_eq, ite_self]
    rfl

/-! ## A field of a packed register -/

/-- A code that fits its field is read back from it (R10, R151). -/
theorem extractLsb_setf_fits (r : Reg20) {hi lo v : Nat} (hv : v < 2 ^ (hi - lo + 1)) (h : lo ≤ hi := by decide)
    (h20 : hi < 20 := by decide) : ((setf r ⟨hi, lo⟩ v).extractLsb hi lo).toNat = v :=
  (extractLsb_setf_same r v h h20).trans (Nat.mod_eq_of_lt hv)

theorem packChopConst_fields (c : Reg20) (off blank fastDecay sineOffset : Int) (useComparator : Bool) :
    let p := packChopConst c off blank fastDecay sineOffset useComparator
    (p.extractLsb 16 15).toNat = blankCode blank ∧ (p.extractLsb 14 14).toNat = 1 ∧
    (p.extractLsb 12 12).toNat = bitOf !useComparator ∧ (p.extractLsb 11 11).toNat = fastDecayCode fastDecay / 8 ∧
    (p.extractLsb 10 7).toNat = bias3 sineOffset ∧ (p.extractLsb 6 4).toNat = fastDecayCode fastDecay % 8 ∧
    (p.extractLsb 3 0).toNat = offCode off := by
  have hblank := blankCode_le blank
  have hdecay := fastDecayCode_le fastDecay
  have hsine := bias3_le sineOffset
  have hoff := (offCode_bounds off).2
  have hflag : bitOf (!useComparator) ≤ 1 := by cases useComparator <;> decide
  simp (disch := decide) only [packChopConst, layout, extractLsb_setf_other, extractLsb_setf_same]
  omega

theorem packChopSpread_fields (c : Reg20) (off blank hystStart hystEnd hystDecrement : Int) :
    let p := packChopSpread c off blank hystStart hystEnd hystDecrement
    (p.extractLsb 16 15).toNat = blankCode blank ∧ (p.extractLsb 14 14).toNat = 0 ∧
    (p.extractLsb 12 11).toNat = hystDecrementCode hystDecrement ∧ (p.extractLsb 10 7).toNat = bias3 hystEnd ∧
    (p.extractLsb 6 4).toNat = hystStartCode hystStart ∧ (p.extractLsb 3 0).toNat = offCode off := by
  have hblank := blankCode_le blank
  have hdecrement := hystDecrementCode_le hystDecrement
  have hend := bias3_le hystEnd
  have hstart := hystStartCode_le hystStart
  have hoff := (offCode_bounds off).2
  simp (disch := decide) only [packChopSpread, layout, extractLsb_setf_other, extractLsb_setf_same]
  omega

theorem packCoolcfg_fields (c : Reg20) (lowerThr hysteresis decStep incStep lowerLimit : Nat) :
    let p := packCoolcfg c lowerThr hysteresis decStep incStep lowerLimit
    (p.extractLsb 15 15).toNat = min lowerLimit 1 ∧ (p.extractLsb 14 13).toNat = min decStep 3 ∧
    (p.extractLsb 12 8).toNat = coolCode hysteresis ∧ (p.extractLsb 6 5).toNat = min incStep 3 ∧
    (p.extractLsb 4 0).toNat = coolCode lowerThr := by
  have hhysteresis := coolCode_le hysteresis
  have hlower := coolCode_le lowerThr
  simp (disch := decide) only [packCoolcfg, layout, extractLsb_setf_other, extractLsb_setf_same]
  omega

/-! ## What a command leaves packed -/

/-- A transmitting command completes and leaves its driver's registers as packed (R150). -/
theorem exec_leaves_packed {i : Instr} {d : Nat} {s : State} (hd : d < s.drivers.length) (ht : i.transmits = true)
    (hi : i.target = some d) (h3 : i ≠ .mdRdstat d 3) :
    ∃ t, exec i s = .next t ∧ t.drivers.length = s.drivers.length ∧ SameRegisters (packed i (s.driver d)) (t.driver d) ∧
      (t.driver d).wiring = (s.driver d).wiring := by
  obtain ⟨t, he, hlength, hshadow, hoff, hlthr, hwiring⟩ := exec_packs hd ht hi h3
  exact ⟨t, he, hlength, ⟨hshadow, hoff, hlthr⟩, hwiring⟩

/-- Settles O30: the index is the table's, and fits MRES. -/
theorem microstepIndexFollowsTheTable : Obligations.MicrostepIndexFollowsTheTable := by
  intro d n s hd
  obtain ⟨t, he, -, same, -⟩ := exec_leaves_packed (i := .mdSetmres d n) hd rfl rfl nofun
  have hfits : mresIndex n < 2 ^ 4 := (mresIndex_le n).trans_lt (by decide)
  refine ⟨t, he, ?_, ?_⟩ <;> rw [same.shadow]
  · exact (extractLsb_setf_fits _ hfits).trans (mresIndex_eq_table n)
  · exact setf_outside _ layout.mres _ _ (by decide)

/-- Settles O31: each code is read back from its field. -/
theorem constantOffTimeChopperPacks : Obligations.ConstantOffTimeChopperPacks := by
  intro d off blank fastDecay sineOffset useComparator s hd
  obtain ⟨t, he, -, same, -⟩ :=
    exec_leaves_packed (i := .mdChopConst d off blank fastDecay sineOffset useComparator) hd rfl rfl nofun
  have hc : (t.driver d).shadow.chopconf =
      packChopConst (s.driver d).shadow.chopconf off blank fastDecay sineOffset useComparator := by rw [same.shadow]; rfl
  obtain ⟨htbl, hchm, hcdis, htfd3, hhend, hhstrt, htoff⟩ :=
    packChopConst_fields (s.driver d).shadow.chopconf off blank fastDecay sineOffset useComparator
  rw [← hc] at htbl hchm hcdis htfd3 hhend hhstrt htoff
  refine ⟨t, _, he, rfl, ?_, hchm, ?_, ?_, ?_, ?_, exec_unwritten_bits he d .chopconf, ?_⟩
  · rw [htbl, natCast_blankCode]
  · rw [hcdis]
    cases useComparator <;> rfl
  · rw [htfd3, hhstrt, Nat.div_add_mod', natCast_fastDecayCode]
  · rw [hhend, natCast_bias3]
  · rw [htoff, natCast_offCode]
  · rw [same.offCache, ← natCast_offCode]
    exact congrArg _ (toNat_ofNat_offCode off)

/-- Settles O32: each code is read back from its field. -/
theorem spreadCycleChopperPacks : Obligations.SpreadCycleChopperPacks := by
  intro d off blank hystStart hystEnd hystDecrement s hd
  obtain ⟨t, he, -, same, -⟩ :=
    exec_leaves_packed (i := .mdChopSpread d off blank hystStart hystEnd hystDecrement) hd rfl rfl nofun
  have hc : (t.driver d).shadow.chopconf =
      packChopSpread (s.driver d).shadow.chopconf off blank hystStart hystEnd hystDecrement := by rw [same.shadow]; rfl
  obtain ⟨htbl, hchm, hhdec, hhend, hhstrt, htoff⟩ :=
    packChopSpread_fields (s.driver d).shadow.chopconf off blank hystStart hystEnd hystDecrement
  rw [← hc] at htbl hchm hhdec hhend hhstrt htoff
  refine ⟨t, _, he, rfl, ?_, hchm, ?_, ?_, ?_, ?_, exec_unwritten_bits he d .chopconf, ?_⟩
  · rw [htbl, natCast_blankCode]
  · rw [hhdec, natCast_hystDecrementCode]
  · rw [hhend, natCast_bias3]
  · rw [hhstrt, natCast_hystStartCode]
  · rw [htoff, natCast_offCode]
  · rw [same.offCache, ← natCast_offCode]
    exact congrArg _ (toNat_ofNat_offCode off)

/-- Settles O33: the threshold field is written after the filter flag, and both lie in the mask. -/
theorem stallGuardThresholdIsSignedSevenBits : Obligations.StallGuardThresholdIsSignedSevenBits := by
  intro d th filterEnabled s hd
  obtain ⟨t, he, -, same, -⟩ := exec_leaves_packed (i := .mdSgt d th filterEnabled) hd rfl rfl nofun
  have hc : (t.driver d).shadow.sgcsconf =
      setf (setf (s.driver d).shadow.sgcsconf layout.sfilt (bitOf filterEnabled)) layout.sgt (sgtCode th) := by
    rw [same.shadow]; rfl
  refine ⟨t, he, ?_, ?_, ?_⟩ <;> rw [hc]
  · exact toInt_of_toNat_sgtCode (extractLsb_setf_fits _ (sgtCode_lt th))
  · rw [extractLsb_setf_other _ layout.sgt _ 16 16 (by decide) (by decide)]
    refine (extractLsb_setf_same _ _ (by decide) (by decide)).trans ?_
    cases filterEnabled <;> rfl
  · rw [setf_outside _ layout.sgt _ _ (by decide), setf_outside _ layout.sfilt _ _ (by decide)]

/-- Settles O34: each code is read back from its field. -/
theorem coolStepConfigPacks : Obligations.CoolStepConfigPacks := by
  intro d lowerThr hysteresis decStep incStep lowerLimit s hd
  obtain ⟨t, he, -, same, -⟩ :=
    exec_leaves_packed (i := .mdCoolcfg d lowerThr hysteresis decStep incStep lowerLimit) hd rfl rfl nofun
  have hc : (t.driver d).shadow.smarten =
      packCoolcfg (s.driver d).shadow.smarten lowerThr hysteresis decStep incStep lowerLimit := by rw [same.shadow]; rfl
  obtain ⟨hseimin, hsedn, hsemax, hseup, hsemin⟩ :=
    packCoolcfg_fields (s.driver d).shadow.smarten lowerThr hysteresis decStep incStep lowerLimit
  rw [← hc] at hseimin hsedn hsemax hseup hsemin
  refine ⟨t, _, he, rfl, hseimin, hsedn, hsemax, hseup, hsemin, exec_unwritten_bits he d .smarten, ?_⟩
  rw [same.lthrCache]
  exact Nat.mod_eq_of_lt ((coolCode_le lowerThr).trans_lt (by decide))

/-! ## Enables (R161, R162) -/

/-- MD_COOLEN writes the cached threshold or 0 into SEMIN, and nothing else (R161). -/
theorem exec_coolen {d : Nat} (flag : Bool) {s : State} (hd : d < s.drivers.length) :
    ∃ t, exec (.mdCoolen d flag) s = .next t ∧ t.drivers.length = s.drivers.length ∧
      ((t.driver d).shadow.smarten.extractLsb 4 0).toNat = (if flag then (s.driver d).lthrCache.toNat else 0) ∧
      (t.driver d).shadow.smarten &&& ~~~0x0001F#20 = (s.driver d).shadow.smarten &&& ~~~0x0001F#20 ∧
      (t.driver d).lthrCache = (s.driver d).lthrCache := by
  obtain ⟨t, he, hlength, same, -⟩ := exec_leaves_packed (i := .mdCoolen d flag) hd rfl rfl nofun
  have hfits : (if flag then (s.driver d).lthrCache.toNat else 0) < 2 ^ 5 := by split <;> omega
  refine ⟨t, he, hlength, ?_, ?_, same.lthrCache⟩ <;> rw [same.shadow]
  · exact extractLsb_setf_fits _ hfits
  · exact setf_outside _ layout.semin _ _ (by decide)

/-- Settles O35: the first run keeps the cache that the second restores. -/
theorem coolStepEnableRestoresTheCache : Obligations.CoolStepEnableRestoresTheCache := by
  intro d flag s hd
  obtain ⟨t, he, hlength, hsemin, hkept, hcache⟩ := exec_coolen flag hd
  obtain ⟨u, he', -, hsemin', hkept', -⟩ := exec_coolen true (hlength ▸ hd)
  exact ⟨t, he, hsemin, hkept, hcache, u, he', by rw [hsemin', hcache]; rfl, hkept'.trans hkept⟩

/-- MD_ENABLE writes the cached off time or 0 into TOFF, and nothing else (R162). -/
theorem exec_enable {d : Nat} (flag : Bool) {s : State} (hd : d < s.drivers.length) :
    ∃ t, exec (.mdEnable d flag) s = .next t ∧ t.drivers.length = s.drivers.length ∧
      ((t.driver d).shadow.chopconf.extractLsb 3 0).toNat = (if flag then (s.driver d).offCache.toNat else 0) ∧
      (t.driver d).shadow.chopconf &&& ~~~0x0000F#20 = (s.driver d).shadow.chopconf &&& ~~~0x0000F#20 ∧
      (t.driver d).offCache = (s.driver d).offCache := by
  obtain ⟨t, he, hlength, same, -⟩ := exec_leaves_packed (i := .mdEnable d flag) hd rfl rfl nofun
  have hfits : (if flag then (s.driver d).offCache.toNat else 0) < 2 ^ 4 := by split <;> omega
  refine ⟨t, he, hlength, ?_, ?_, same.offCache⟩ <;> rw [same.shadow]
  · exact extractLsb_setf_fits _ hfits
  · exact setf_outside _ layout.toff _ _ (by decide)

/-- Settles O36: the first run keeps the cache that the second restores. -/
theorem driverEnableRestoresTheCache : Obligations.DriverEnableRestoresTheCache := by
  intro d flag s hd
  obtain ⟨t, he, hlength, htoff, hkept, hcache⟩ := exec_enable flag hd
  obtain ⟨u, he', -, htoff', hkept', -⟩ := exec_enable true (hlength ▸ hd)
  exact ⟨t, he, htoff, hkept, hcache, u, he', by rw [htoff', hcache]; rfl, hkept'.trans hkept⟩

/-! ## What the transmits do not change -/

/-- Settles O55: what is packed depends on the shadow registers, the caches and RSENSE only; MD_RDSTAT with selector 3 packs nothing. -/
theorem shadowsDoNotDependOnTheTransmit : Obligations.ShadowsDoNotDependOnTheTransmit := by
  intro i d s s' t t' ht hi hd hd' hshadow hoff hlthr hrsense h h'
  have agree : SameRegisters (s.driver d) (s'.driver d) := ⟨hshadow, hoff, hlthr⟩
  suffices same : SameRegisters (t.driver d) (t'.driver d) from ⟨same.shadow, same.offCache, same.lthrCache⟩
  by_cases h3 : i = .mdRdstat d 3
  · subst h3
    rw [exec_rdstat_three hd, raise_eq, Host.Outcome.next.injEq] at h
    rw [exec_rdstat_three hd', raise_eq, Host.Outcome.next.injEq] at h'
    subst h h'
    exact agree
  · obtain ⟨u, he, -, same, -⟩ := exec_leaves_packed hd ht hi h3
    obtain ⟨u', he', -, same', -⟩ := exec_leaves_packed hd' ht hi h3
    obtain rfl := Host.Outcome.next.inj (h.symm.trans he)
    obtain rfl := Host.Outcome.next.inj (h'.symm.trans he')
    exact (same.symm.trans (packed_congr i agree hrsense)).trans same'

end Sys2Proof.Machine
end

section
/-! PROOFS. MD_SETCUR and MD_GETCUR: the scale and the flag packed, the current read back, and how far the two are apart (41_encoders R152 to
R154). -/

namespace Sys2Proof.Machine

open Sys2Proof.Safety

/-! ## The scale (R152) -/

theorem rawScale_full (R mA : Nat) : rawScale 310000 R mA = (64 * (R : Int) * mA - 310000) / 620000 := by
  norm_num [rawScale]

theorem rawScale_half (R mA : Nat) : rawScale 165000 R mA = (64 * (R : Int) * mA - 165000) / 330000 := by
  norm_num [rawScale]

/-- Below scale 16 the half reference is taken. -/
theorem currentScale_half {R mA : Nat} (h : (64 * (R : Int) * mA - 310000) / 620000 < 16) :
    (currentScale R mA).1 = 1 ∧
      ((currentScale R mA).2 : Int) = min (max ((64 * (R : Int) * mA - 165000) / 330000) 0) 31 := by
  unfold currentScale
  rw [rawScale_full, rawScale_half, if_pos h]
  refine ⟨rfl, Int.toNat_of_nonneg ?_⟩
  unfold clamp
  omega

/-- From scale 16 on the full reference is kept. -/
theorem currentScale_full {R mA : Nat} (h : 16 ≤ (64 * (R : Int) * mA - 310000) / 620000) :
    (currentScale R mA).1 = 0 ∧ ((currentScale R mA).2 : Int) = min ((64 * (R : Int) * mA - 310000) / 620000) 31 := by
  unfold currentScale clamp
  rw [rawScale_full, if_neg (by omega)]
  exact ⟨rfl, by omega⟩

/-- MD_SETCUR leaves the scale and the flag in their fields, and every other bit of the two registers (R152). -/
theorem exec_setcur_packs {d : Nat} (mA : Nat) {s : State} (hd : d < s.drivers.length) :
    ∃ t, exec (.mdSetcur d mA) s = .next t ∧ d < t.drivers.length ∧ (t.driver d).wiring = (s.driver d).wiring ∧
      ((t.driver d).shadow.drvconf.extractLsb 6 6).toNat = (currentScale (s.driver d).wiring.rsense mA).1 ∧
      ((t.driver d).shadow.sgcsconf.extractLsb 4 0).toNat = (currentScale (s.driver d).wiring.rsense mA).2 ∧
      (t.driver d).shadow.drvconf &&& ~~~0x00040#20 = (s.driver d).shadow.drvconf &&& ~~~0x00040#20 ∧
      (t.driver d).shadow.sgcsconf &&& ~~~0x0001F#20 = (s.driver d).shadow.sgcsconf &&& ~~~0x0001F#20 := by
  obtain ⟨t, he, hlength, same, hwiring⟩ := exec_leaves_packed (i := .mdSetcur d mA) hd rfl rfl nofun
  obtain ⟨hvs, hcs⟩ := currentScale_bounds (s.driver d).wiring.rsense mA
  refine ⟨t, he, hlength ▸ hd, hwiring, ?_, ?_, ?_, ?_⟩ <;> rw [same.shadow]
  · exact extractLsb_setf_fits _ (Nat.lt_succ_of_le hvs)
  · exact extractLsb_setf_fits _ (Nat.lt_succ_of_le hcs)
  · exact setf_outside _ layout.vsense _ _ (by decide)
  · exact setf_outside _ layout.cs _ _ (by decide)

/-- Settles O27: the flag and the scale in the fields are those of the formulas. -/
theorem setCurrentPacksScale : Obligations.SetCurrentPacksScale := by
  intro d mA s hd
  obtain ⟨t, he, -, -, hvs, hcs, hdrvconf, hsgcsconf⟩ := exec_setcur_packs mA hd
  refine ⟨t, he, ?_, ?_, hdrvconf, hsgcsconf⟩ <;> rw [hvs, hcs]
  · exact currentScale_half
  · exact currentScale_full

/-! ## Reading back (R153, R154) -/

theorem exec_getcur {d : Nat} {s : State} (hd : d < s.drivers.length) :
    exec (.mdGetcur d) s = .next (replied s 0#3 (BitVec.ofNat 32
      (deq ((s.driver d).shadow.sgcsconf.extractLsb 4 0).toNat ((s.driver d).shadow.drvconf.extractLsb 6 6).toNat
        (s.driver d).wiring.rsense))) := by
  have hcs : getf (s.driver d).shadow.sgcsconf layout.cs = _ := getf_eq_extractLsb _ 4 0
  have hvs : getf (s.driver d).shadow.drvconf layout.vsense = _ := getf_eq_extractLsb _ 6 6
  rw [← hcs, ← hvs]
  exact onDriver_of_lt _ hd

/-- Settles O28: the answer is DEQ of the two fields. -/
theorem getCurrentDequantizes : Obligations.GetCurrentDequantizes := fun _ _ hd => exec_getcur hd

/-- R154 in terms of the two formulas: quantize, then dequantize. -/
theorem deq_currentScale {mA : Nat} (hmin : 100 ≤ mA) (hmax : mA ≤ 2000) :
    let back : Nat := deq (currentScale 91 mA).2 (currentScale 91 mA).1 91
    back < 2 ^ 32 ∧ |(back : Int) - mA| ≤ 53 ∧
      |(back : Int) - mA| * (32 * 91) ≤ if (currentScale 91 mA).1 = 1 then 165000 else 310000 := by
  unfold deq
  simp only [abs_eq_max_neg]
  rcases lt_or_ge ((64 * ((91 : Nat) : Int) * mA - 310000) / 620000) 16 with h | h
  · obtain ⟨hvs, hcs⟩ := currentScale_half h
    simp only [hvs, if_true]
    omega
  · obtain ⟨hvs, hcs⟩ := currentScale_full h
    have hscales : (currentScale 91 mA).2 = 16 ∨ (currentScale 91 mA).2 = 17 ∨ (currentScale 91 mA).2 = 18 := by omega
    -- A half step is 155000 / 2912 mA, just above 53: the bound holds for the whole currents that each scale covers.
    simp only [hvs, zero_ne_one, if_false]
    rcases hscales with hscale | hscale | hscale <;> rw [hscale] at hcs ⊢ <;> omega

/-- Settles O29: MD_GETCUR dequantizes what MD_SETCUR packed. -/
theorem currentRoundTripWithinOneStep : Obligations.CurrentRoundTripWithinOneStep := by
  intro d mA s hd hrsense hmin hmax
  obtain ⟨t, he, hd', hwiring, hvs, hcs, -, -⟩ := exec_setcur_packs mA hd
  obtain ⟨hlt, hnear, hstep⟩ := deq_currentScale hmin hmax
  refine ⟨t, _, he, exec_getcur hd', ?_⟩
  rw [hvs, hcs, hwiring, hrsense]
  show |((BitVec.ofNat 32 _).toNat : Int) - mA| ≤ 53 ∧ |((BitVec.ofNat 32 _).toNat : Int) - mA| * (32 * 91) ≤ _
  rw [BitVec.toNat_ofNat, Nat.mod_eq_of_lt hlt]
  exact ⟨hnear, hstep⟩

end Sys2Proof.Machine
end

section
/-! PROOFS. A command of two transmits: what its transfers, answered or failed, leave on the bus and in the chip (20_memory R70,
41_encoders R150, R152, R164, 70 R283). -/

namespace Sys2Proof.Machine

open Sys2Proof.Safety

/-! ## Two transmits on the bus -/

theorem nextAnswer_congr {s u : State} (hinbound : u.inbound = s.inbound) (hcount : u.xferCount = s.xferCount) :
    nextAnswer u = nextAnswer s := by
  unfold nextAnswer
  rw [hinbound, hcount]

/-- The registers `r` and then `r'` sent from the packed state: both exchanges stand between the same two buffers, the second is made only after
an answer, and STATUS holds the last word answered (R67, R70, R150). -/
theorem thenTransmit_packed_sends {i : Instr} {d : Nat} {s : State} (hi : i.target = some d) (hs : CanSend s d) (r r' : Reg)
    {p : Regs Reg20} (hp : p = (packed i (s.driver d)).shadow) :
    ∃ (t : State) (st : Status) (m : List Host.Cell),
      thenTransmit d (getReg p r') (transmit d (getReg p r) (setDriver d (packed i (s.driver d)) s)) = (t, st) ∧
      (t.driver d).shadow = p ∧ t.responses = s.responses ∧
      WithBit s.buf m (s.driver d).wiring.csBit false ∧ WithBit s.buf t.buf (s.driver d).wiring.csBit true ∧
      (nextAnswer s = .fail → st = .transferFailure ∧ (t.driver d).status = (s.driver d).status ∧
        t.events = s.events ++ exchangeEvents m t.buf s.nb (getReg p r)) ∧
      (∀ r0 r1 r2, nextAnswer s = .bytes r0 r1 r2 →
        t.events = s.events ++ exchangeEvents m t.buf s.nb (getReg p r) ++ exchangeEvents m t.buf s.nb (getReg p r') ∧
        (nextAnswer (afterOneAnswer s) = .fail →
          st = .transferFailure ∧ (t.driver d).status = (r0 ++ r1 ++ r2).extractLsb 23 4) ∧
        ∀ q0 q1 q2, nextAnswer (afterOneAnswer s) = .bytes q0 q1 q2 →
          st = .ok ∧ (t.driver d).status = (q0 ++ q1 ++ q2).extractLsb 23 4) := by
  have hpacked := canSend_packed hi hs
  have hm := withBit_writeBit s.buf (s.driver d).wiring.csBit false
  have hm' := withBit_writeBit s.buf (s.driver d).wiring.csBit true
  obtain ⟨t, st, hsent, hshadow, hevents, hbuf, hinbound, hcount, hresponses, ⟨hd, hcs, hready, hnb⟩, hfail, hok⟩ :=
    transmit_spec (u := setDriver d (packed i (s.driver d)) s) (getReg p r) hpacked.1 (by rw [setDriver_packed_wiring hi])
      hpacked.2.1 hs.2.2 hm hm' fun _ _ => rfl
  rw [setDriver_self _ hs.1, ← hp] at hshadow
  rw [setDriver_packed_status hi] at hfail
  obtain ⟨t', st', hsent', hshadow', hevents', hbuf', -, -, hresponses', -, hfail', hok'⟩ :=
    transmit_spec (u := t) (getReg p r') hd hcs hready (hnb ▸ hs.2.2) hm hm'
      fun j hj => ((hbuf j).trans (hm' j)).trans (if_neg hj)
  rw [nextAnswer_congr (s := afterOneAnswer s) hinbound hcount] at hfail' hok'
  rw [hsent, thenTransmit_eq]
  cases hanswer : nextAnswer s with
  | fail =>
    obtain ⟨rfl, hstatus⟩ := hfail hanswer
    refine ⟨t, _, _, if_neg nofun, hshadow, hresponses, hm, fun j => (hbuf j).trans (hm' j), fun _ => ⟨rfl, hstatus, ?_⟩, nofun⟩
    rw [hevents, exchangeEvents_congr _ _ _ hbuf]
    rfl
  | bytes q0 q1 q2 =>
    obtain ⟨rfl, hstatus⟩ := hok _ _ _ hanswer
    refine ⟨t', st', _, (if_pos rfl).trans hsent', hshadow'.trans hshadow, hresponses'.trans hresponses, hm,
      fun j => (hbuf' j).trans (hm' j), nofun, fun r0 r1 r2 h => ?_⟩
    cases h
    refine ⟨?_, fun h => ⟨(hfail' h).1, (hfail' h).2.trans hstatus⟩, hok'⟩
    rw [hevents', hevents, hnb, exchangeEvents_congr _ _ _ hbuf', exchangeEvents_congr _ _ _ hbuf']
    rfl

/-- Settles O41: the registers sent are DriverConfig and StallGuardCurrent. -/
theorem setCurrentSendsTwoRegisters : Obligations.SetCurrentSendsTwoRegisters := by
  intro d mA s hs
  obtain ⟨t, st, m, hsent, hshadow, hresponses, hm, hbuf, hfail, hok⟩ :=
    thenTransmit_packed_sends (i := .mdSetcur d mA) rfl hs .drvconf .sgcsconf rfl
  have hreplied : Replied s (respond st 0#32 t) st.code 0#32 := ⟨rfl, rfl, by rw [respond_responses, hresponses]⟩
  refine ⟨respond st 0#32 t, m, ?_, hm, hbuf, fun h => ?_, fun r0 r1 r2 h h' => ?_, fun r0 r1 r2 q0 q1 q2 h h' => ?_⟩
  · rw [exec_setcur hs.1]
    exact congrArg conclude hsent
  all_goals rw [respond_driver, respond_events, respond_buf, hshadow]
  · obtain ⟨rfl, hstatus, hevents⟩ := hfail h
    exact ⟨hreplied, hstatus, hevents⟩
  · obtain ⟨hevents, hsecond, -⟩ := hok _ _ _ h
    obtain ⟨rfl, hstatus⟩ := hsecond h'
    exact ⟨hreplied, hstatus, hevents⟩
  · obtain ⟨hevents, -, hsecond⟩ := hok _ _ _ h
    obtain ⟨rfl, hstatus⟩ := hsecond _ _ _ h'
    exact ⟨hreplied, hstatus, hevents⟩

/-! ## The chip after a failure -/

theorem code_eq_four_iff {st : Status} : st.code = 4#3 ↔ st = .transferFailure := by
  cases st <;> decide

/-- A command that ends with the status of its transmits and answers TransferFailure. -/
theorem conclude_failed {x : State × Status} {t : State} (h : conclude x = .next t) (hfailed : t.respStatus = 4#3) :
    x.2 = .transferFailure ∧ t = respond .transferFailure 0#32 x.1 := by
  rw [conclude_eq, Host.Outcome.next.injEq] at h
  subst h
  have hx : x.2 = .transferFailure := code_eq_four_iff.1 hfailed
  exact ⟨hx, by rw [hx]⟩

/-- What a failed transmit for register `r` does from `u` to `t` while the duty is kept (R164, R279). -/
structure Failed (d : Nat) (r : Reg) (u t : State) : Prop where
  answer : nextAnswer u = .fail
  shadow : (t.driver d).shadow = (u.driver d).shadow
  regs : (t.driver d).chip.regs = setReg (u.driver d).chip.regs r none
  others : ∀ e, e ≠ d → (t.driver e).chip = (u.driver e).chip

theorem transmit_failed {d : Nat} {r : Reg} {v : Reg20} {u : State} (hs : CanSend u d) (hss : SoleSelect u d)
    (hv : regOfDatagram v = some r) (hfailed : (transmit d v u).2 = .transferFailure) : Failed d r u (transmit d v u).1 := by
  obtain ⟨-, -, -, hok⟩ := transmit_sends v hs
  obtain ⟨-, hothers, hchip, -⟩ := transmit_sole hs hss hv
  have hanswer : nextAnswer u = .fail := by
    by_contra h
    rw [hok h] at hfailed
    cases hfailed
  exact ⟨hanswer, (transmit_driver_frame d v u d).1, by rw [hchip hanswer], hothers⟩

/-- The register a transmitting command sends last, if its transmits are answered (R150, R152, R200). -/
def lastSent (i : Instr) : Reg :=
  match i with
  | .mdSetcur _ _ => .sgcsconf
  | _ => firstSent i

theorem writesReg_lastSent {i : Instr} {d : Nat} (ht : i.transmits = true) (hi : i.target = some d) :
    writesReg i d (lastSent i) = true := by
  unfold lastSent
  split
  · obtain rfl := Option.some.inj hi
    exact (writesReg_setcur_iff ..).2 (.inr rfl)
  · exact writesReg_firstSent ht hi

/-- A transmitting command sends its first register, and then its last if it is MD_SETCUR or an MD_RDSTAT that changes the selector. -/
theorem exec_firstSent_lastSent {i : Instr} {d : Nat} {s : State} (ht : i.transmits = true) (hi : i.target = some d)
    (hd : d < s.drivers.length) (h3 : i ≠ .mdRdstat d 3) :
    exec i s = conclude
      (transmit d (getReg (packed i (s.driver d)).shadow (firstSent i)) (setDriver d (packed i (s.driver d)) s)) ∨
    oneShot i = none ∧ exec i s = conclude (thenTransmit d (getReg (packed i (s.driver d)).shadow (lastSent i))
      (transmit d (getReg (packed i (s.driver d)).shadow (firstSent i)) (setDriver d (packed i (s.driver d)) s))) := by
  rcases transmits_cases ht hi with ⟨r, h1⟩ | ⟨mA, rfl⟩ | ⟨sel, rfl⟩
  · left
    rw [exec_oneShot h1 hd, firstSent, h1]
  · exact .inr ⟨rfl, exec_setcur hd⟩
  · rw [exec_rdstat hd fun h => h3 (h ▸ rfl)]
    split
    · exact .inr ⟨rfl, rfl⟩
    · exact .inl rfl

/-- The chip of driver `d` after a command that answers TransferFailure while the duty is kept: the first transfer failed, or it was answered and
the last one failed (R164, R283). -/
structure ChipForgets (i : Instr) (d : Nat) (s t : State) : Prop where
  shadow : (t.driver d).shadow = (packed i (s.driver d)).shadow
  others : ∀ e, e ≠ d → (t.driver e).chip = (s.driver e).chip
  regs : (nextAnswer s = .fail ∧ (t.driver d).chip.regs = setReg (s.driver d).chip.regs (firstSent i) none) ∨
    (nextAnswer s ≠ .fail ∧ oneShot i = none ∧ (t.driver d).chip.regs =
      setReg (setReg (s.driver d).chip.regs (firstSent i) (some (getReg (packed i (s.driver d)).shadow (firstSent i))))
        (lastSent i) none)

section Duty

variable {i : Instr} {d : Nat} {s t : State} (ht : i.transmits = true) (hi : i.target = some d) (hs : CanSend s d)
  (hss : SoleSelect s d) (hsig : SignatureInv s)
include hs hss hsig hi

/-- The first transmit of a command, from the packed state, if it fails. -/
theorem chipForgets_first
    (hfailed : (transmit d (getReg (packed i (s.driver d)).shadow (firstSent i)) (setDriver d (packed i (s.driver d)) s)).2 =
      .transferFailure) :
    ChipForgets i d s
      (transmit d (getReg (packed i (s.driver d)).shadow (firstSent i)) (setDriver d (packed i (s.driver d)) s)).1 := by
  have h := transmit_failed (canSend_packed hi hs) (soleSelect_packed hi hss) (regOfDatagram_packed i hs.1 hsig _) hfailed
  refine ⟨?_, fun e he => ?_, .inl ⟨h.answer, ?_⟩⟩
  · rw [h.shadow, setDriver_self _ hs.1]
  · rw [h.others e he, chip_packed hi]
  · rw [h.regs, chip_packed hi]

/-- Both transmits of a command that sends two, if one of them fails. -/
theorem chipForgets_last (h1 : oneShot i = none)
    (hfailed : (thenTransmit d (getReg (packed i (s.driver d)).shadow (lastSent i))
      (transmit d (getReg (packed i (s.driver d)).shadow (firstSent i)) (setDriver d (packed i (s.driver d)) s))).2 =
        .transferFailure) :
    ChipForgets i d s (thenTransmit d (getReg (packed i (s.driver d)).shadow (lastSent i))
      (transmit d (getReg (packed i (s.driver d)).shadow (firstSent i)) (setDriver d (packed i (s.driver d)) s))).1 := by
  rw [thenTransmit_eq] at hfailed ⊢
  split at hfailed
  case isFalse hfirst =>
    rw [if_neg hfirst]
    exact chipForgets_first hi hs hss hsig hfailed
  case isTrue hfirst =>
    rw [if_pos hfirst]
    have ha := transmit_packed_answered hs hss hsig hi _ hfirst
    have h := transmit_failed ha.canSend ha.sole (regOfDatagram_packed i hs.1 hsig _) hfailed
    have hanswer : nextAnswer s ≠ .fail := fun hfail => by
      rw [(transmit_sends _ (canSend_packed hi hs)).2.2.1 hfail] at hfirst
      cases hfirst
    refine ⟨?_, fun e he => ?_, .inr ⟨hanswer, h1, ?_⟩⟩
    · rw [h.shadow, ha.shadow, setDriver_self _ hs.1]
    · rw [h.others e he, ha.others e he, chip_packed hi]
    · rw [h.regs, ha.regs, chip_packed hi]

include ht

theorem exec_chipForgets (h : exec i s = .next t) (hfailed : t.respStatus = 4#3) : ChipForgets i d s t := by
  have h3 : i ≠ .mdRdstat d 3 := by
    rintro rfl
    rw [exec_rdstat_three hs.1, raise_eq, Host.Outcome.next.injEq] at h
    subst h
    cases hfailed
  rcases exec_firstSent_lastSent ht hi hs.1 h3 with e | ⟨h1, e⟩ <;> rw [e] at h
  · obtain ⟨hsent, rfl⟩ := conclude_failed h hfailed
    obtain ⟨hshadow, hothers, hregs⟩ := chipForgets_first hi hs hss hsig hsent
    exact ⟨hshadow, hothers, hregs⟩
  · obtain ⟨hsent, rfl⟩ := conclude_failed h hfailed
    obtain ⟨hshadow, hothers, hregs⟩ := chipForgets_last hi hs hss hsig h1 hsent
    exact ⟨hshadow, hothers, hregs⟩

end Duty

/-- Registers a command does not write the chip keeps. -/
theorem ChipForgets.kept {i : Instr} {d : Nat} {s t : State} (h : ChipForgets i d s t) (ht : i.transmits = true)
    (hi : i.target = some d) {r : Reg} (hr : writesReg i d r = false) :
    getReg (t.driver d).chip.regs r = getReg (s.driver d).chip.regs r := by
  have hfirst : r ≠ firstSent i := fun heq => by simp [heq, writesReg_firstSent ht hi] at hr
  have hlast : r ≠ lastSent i := fun heq => by simp [heq, writesReg_lastSent ht hi] at hr
  rcases h.regs with ⟨-, hregs⟩ | ⟨-, -, hregs⟩ <;> rw [hregs]
  · exact getReg_setReg_other _ _ hfirst
  · exact (getReg_setReg_other _ _ hlast).trans (getReg_setReg_other _ _ hfirst)

/-- Settles O44: the register whose transfer failed is the first the command sends or the last. -/
theorem failedTransferLeavesTheChipUnknown : Obligations.FailedTransferLeavesTheChipUnknown := by
  intro i d s t ht hi hs hss hsig h hfailed
  have hforgets := exec_chipForgets ht hi hs hss hsig h hfailed
  refine ⟨fun r h1 => ?_, ?_, ?_, ?_, fun _ => hforgets.kept ht hi, hforgets.others⟩
  · rcases hforgets.regs with ⟨-, hregs⟩ | ⟨-, hnone, -⟩
    · rw [hregs, firstSent, h1, getReg_setReg_self]
    · rw [hnone] at h1
      cases h1
  · rintro mA rfl hanswer
    rcases hforgets.regs with ⟨-, hregs⟩ | ⟨hne, -⟩
    · rw [hregs]
      exact ⟨rfl, rfl⟩
    · exact absurd hanswer hne
  · rintro mA rfl hanswer
    rcases hforgets.regs with ⟨hfail, -⟩ | ⟨-, -, hregs⟩
    · exact absurd hfail hanswer
    · unfold Agrees
      rw [hregs, hforgets.shadow]
      exact ⟨rfl, rfl⟩
  · rintro sel rfl
    have hdrvconf : (t.driver d).chip.regs.drvconf = none := by
      rcases hforgets.regs with ⟨-, hregs⟩ | ⟨-, -, hregs⟩ <;> rw [hregs] <;> rfl
    exact ⟨hdrvconf, by rw [Chip.selector, hdrvconf]; rfl⟩

end Sys2Proof.Machine
end

section
/-! PROOFS. MD_RDSTAT on the bus, and what the status accessors answer (42_status R200 to R212). -/

namespace Sys2Proof.Machine

open Sys2Proof.Safety

/-! ## MD_RDSTAT (R200) -/

/-- A register sent from the packed state, whichever way the transfer goes (R67, R70, R150). -/
theorem transmit_packed_sends {i : Instr} {d : Nat} {s : State} (hi : i.target = some d) (hs : CanSend s d) (r : Reg)
    {p : Regs Reg20} (hp : p = (packed i (s.driver d)).shadow) :
    ∃ (t : State) (st : Status) (m : List Host.Cell),
      transmit d (getReg p r) (setDriver d (packed i (s.driver d)) s) = (t, st) ∧
      (t.driver d).shadow = p ∧ t.responses = s.responses ∧
      WithBit s.buf m (s.driver d).wiring.csBit false ∧ WithBit s.buf t.buf (s.driver d).wiring.csBit true ∧
      t.events = s.events ++ exchangeEvents m t.buf s.nb (getReg p r) ∧
      (nextAnswer s = .fail → st = .transferFailure ∧ (t.driver d).status = (s.driver d).status) ∧
      (∀ r0 r1 r2, nextAnswer s = .bytes r0 r1 r2 → st = .ok ∧ (t.driver d).status = (r0 ++ r1 ++ r2).extractLsb 23 4) := by
  have hpacked := canSend_packed hi hs
  have hm := withBit_writeBit s.buf (s.driver d).wiring.csBit false
  have hm' := withBit_writeBit s.buf (s.driver d).wiring.csBit true
  obtain ⟨t, st, hsent, hshadow, hevents, hbuf, -, -, hresponses, -, hfail, hok⟩ :=
    transmit_spec (u := setDriver d (packed i (s.driver d)) s) (getReg p r) hpacked.1 (by rw [setDriver_packed_wiring hi])
      hpacked.2.1 hs.2.2 hm hm' fun _ _ => rfl
  rw [setDriver_self _ hs.1, ← hp] at hshadow
  rw [setDriver_packed_status hi] at hfail
  refine ⟨t, st, _, hsent, hshadow, hresponses, hm, fun j => (hbuf j).trans (hm' j), ?_, hfail, hok⟩
  rw [hevents, exchangeEvents_congr _ _ _ hbuf]
  rfl

/-- A command ends with the status of its transmits, its one response (R92, R150). -/
theorem conclude_replied {x : State × Status} {s t u : State} {st : Status} (hx : x = (u, st))
    (hresponses : u.responses = s.responses) (h : conclude x = .next t) : t = respond st 0#32 u ∧ Replied s t st.code 0#32 := by
  subst hx
  rw [conclude_eq, Host.Outcome.next.injEq] at h
  subst h
  exact ⟨rfl, rfl, rfl, by rw [respond_responses, hresponses]⟩

/-- Settles O46: DriverConfig is sent once for the selector the shadow holds, and twice for another. -/
theorem readStatusTransmitsTwiceOnChange : Obligations.ReadStatusTransmitsTwiceOnChange := by
  intro d sel s hd
  refine ⟨?_, fun hsel => ?_⟩
  · rintro rfl
    exact exec_rdstat_three hd
  have h3 : sel ≠ 3 := hsel.ne
  obtain ⟨t, he, -, same, -⟩ := exec_leaves_packed (i := .mdRdstat d sel) hd rfl rfl fun h => h3 (Instr.mdRdstat.inj h).2
  refine ⟨t, he, ?_, ?_, fun hs => ?_⟩
  · rw [same.shadow]
    exact packed_rdstat_selector d (by omega) _
  · rw [same.shadow]
    exact setf_outside _ layout.rdsel _ _ (by decide)
  rw [exec_rdstat hd h3, show getf (s.driver d).shadow.drvconf layout.rdsel = _ from getf_eq_extractLsb _ 5 4] at he
  by_cases hsame : ((s.driver d).shadow.drvconf.extractLsb 5 4).toNat = sel
  · obtain ⟨u, st, m, hsent, hshadow, hresponses, hm, hbuf, hevents, hfail, hok⟩ :=
      transmit_packed_sends (i := .mdRdstat d sel) rfl hs .drvconf rfl
    rw [if_neg (not_not.2 hsame.symm)] at he
    obtain ⟨rfl, hreplied⟩ := conclude_replied hsent hresponses he
    refine ⟨m, hm, hbuf, fun h => ?_, fun r0 r1 r2 h _ => ?_, fun _ _ _ _ _ _ _ _ hne => absurd hsame hne,
      fun _ _ _ _ _ hne => absurd hsame hne⟩
    all_goals rw [respond_driver, respond_events, respond_buf, hshadow]
    · obtain ⟨rfl, hstatus⟩ := hfail h
      exact ⟨hreplied, hstatus, hevents⟩
    · obtain ⟨rfl, hstatus⟩ := hok _ _ _ h
      exact ⟨hreplied, hstatus, hevents⟩
  · obtain ⟨u, st, m, hsent, hshadow, hresponses, hm, hbuf, hfail, hok⟩ :=
      thenTransmit_packed_sends (i := .mdRdstat d sel) rfl hs .drvconf .drvconf rfl
    rw [if_pos (Ne.symm hsame)] at he
    obtain ⟨rfl, hreplied⟩ := conclude_replied hsent hresponses he
    refine ⟨m, hm, hbuf, fun h => ?_, fun _ _ _ _ heq => absurd heq hsame, fun r0 r1 r2 q0 q1 q2 h h' _ => ?_,
      fun r0 r1 r2 h h' _ => ?_⟩
    all_goals rw [respond_driver, respond_events, respond_buf, hshadow]
    · obtain ⟨rfl, hstatus, hevents⟩ := hfail h
      exact ⟨hreplied, hstatus, hevents⟩
    · obtain ⟨hevents, -, hsecond⟩ := hok _ _ _ h
      obtain ⟨rfl, hstatus⟩ := hsecond _ _ _ h'
      exact ⟨hreplied, hstatus, hevents⟩
    · obtain ⟨hevents, hsecond, -⟩ := hok _ _ _ h
      obtain ⟨rfl, hstatus⟩ := hsecond h'
      exact ⟨hreplied, hstatus, hevents⟩

/-! ## The accessors (R201 to R212) -/

/-- A field as a 32-bit result (R10, R92). -/
theorem ofNat_getf (r : Reg20) (hi lo : Nat) : BitVec.ofNat 32 (getf r ⟨hi, lo⟩) = (r.extractLsb hi lo).zeroExtend 32 := by
  rw [getf_eq_extractLsb, BitVec.ofNat_toNat]

/-- A bit is a field of width 1 (R10, R94). -/
theorem bitOf_getLsbD (r : Reg20) (k : Nat) : bitOf (r.getLsbD k) = getf r ⟨k, k⟩ := by
  have hwidth : (Field.mk k k).width = 1 := by simp [Field.width]
  rw [getf, hwidth, pow_one, ← Nat.toNat_testBit]
  cases h : r.toNat.testBit k <;> simp [bitOf, BitVec.getLsbD, h]

/-- A Boolean accessor answers its bit (R201). -/
theorem statusBit_eq {d : Nat} (k : Nat) {s : State} (hd : d < s.drivers.length) :
    statusBit d k s = .next (replied s 0#3 (((s.driver d).status.extractLsb k k).zeroExtend 32)) := by
  rw [statusBit, onDriver_of_lt _ hd, bitOf_getLsbD, answer_eq, ofNat_getf]
  rfl

/-- Settles O48: each accessor reads the bit the table gives. -/
theorem booleanAccessorsReadStatusBits : Obligations.BooleanAccessorsReadStatusBits := by
  intro d s hd i k hik
  simp only [List.mem_cons, Prod.mk.injEq, List.not_mem_nil, or_false] at hik
  rcases hik with ⟨rfl, rfl⟩ | ⟨rfl, rfl⟩ | ⟨rfl, rfl⟩ | ⟨rfl, rfl⟩ | ⟨rfl, rfl⟩ | ⟨rfl, rfl⟩ | ⟨rfl, rfl⟩ | ⟨rfl, rfl⟩
  all_goals exact statusBit_eq _ hd

/-- MD_SGVAL and MD_MSTEP answer the readout field (R210, R211). -/
theorem onDriver_readout {d : Nat} {s : State} (hd : d < s.drivers.length) :
    onDriver d s (fun m => answer (getf m.status layout.readout) s) =
      .next (replied s 0#3 (((s.driver d).status.extractLsb 19 10).zeroExtend 32)) := by
  rw [onDriver_of_lt _ hd, ← ofNat_getf]
  rfl

theorem exec_actcur {d : Nat} {s : State} (hd : d < s.drivers.length) :
    exec (.mdActcur d) s = .next (replied s 0#3 (BitVec.ofNat 32
      (deq ((s.driver d).status.extractLsb 14 10).toNat ((s.driver d).shadow.drvconf.extractLsb 6 6).toNat
        (s.driver d).wiring.rsense))) := by
  rw [← getf_eq_extractLsb, ← getf_eq_extractLsb]
  exact onDriver_of_lt _ hd

/-- Settles O49: the two readouts are one field, and the current is DEQ of its low five bits. -/
theorem numericAccessorsReadTheReadout : Obligations.NumericAccessorsReadTheReadout :=
  fun _ _ hd => ⟨onDriver_readout hd, onDriver_readout hd, exec_actcur hd⟩

end Sys2Proof.Machine
end

section
/-! PROOFS. The two conditions that are not an error response: the fatal BUS_INIT and the absent driver (60_exceptions R244, R246). -/

namespace Sys2Proof.Machine

open Sys2Proof.Safety

/-! ## The halt (R246) -/

/-- The one command that halts a running block is BUS_INIT above `MAX_BOARDS` on an Uninitialized bus, and it does nothing else. -/
theorem exec_halts {i : Instr} {s t : State} (h : exec i s = .next t) (hrunning : s.halted = false) (hhalted : t.halted = true) :
    ∃ nb, i = .busInit nb ∧ s.params.maxBoards < nb ∧ s.busState = .uninitialized ∧ t = { s with halted := true } := by
  have hchanged : t.halted ≠ s.halted := by simp [hrunning, hhalted]
  cases hi : i.target with
  | none =>
    obtain ⟨-, -, -, -, hhalts | ⟨hkept, -⟩⟩ := exec_bus_frame hi h
    · exact hhalts
    · exact absurd hkept hchanged
  | some d =>
    obtain ⟨-, -, hkept, -⟩ := blockStateFrame i s t h
    exact absurd (hkept fun nb hinit => nomatch hinit ▸ hi) hchanged

/-- A step that ends halted took the word of such a BUS_INIT. -/
theorem step_halts {s t : State} (h : step s = .next t) (hhalted : t.halted = true) :
    ∃ w rest nb, s.port = w :: rest ∧ decode w = .legal (.busInit nb) ∧ s.params.maxBoards < nb ∧
      s.busState = .uninitialized ∧ t = { s with port := rest, halted := true } := by
  obtain ⟨hrunning, ⟨-, rfl⟩ | ⟨w, rest, e, -, -, rfl⟩ | ⟨w, rest, i, hport, hdecode, hexec⟩⟩ := step_cases h
  · exact absurd (hrunning.symm.trans hhalted) (by decide)
  · exact absurd (hrunning.symm.trans hhalted) (by decide)
  · obtain ⟨nb, rfl, hmax, hbus, rfl⟩ := exec_halts hexec hrunning hhalted
    exact ⟨w, rest, nb, hport, hdecode, hmax, hbus, rfl⟩

theorem not_finished_of_halted {s : State} (h : s.halted = true) : ¬ Finished s := fun ⟨hrunning, _⟩ =>
  absurd (hrunning.symm.trans h) (by decide)

/-- Settles O11: BUS_INIT above `MAX_BOARDS` halts, a step that halts ran one, and a halted block's step faults. -/
theorem onlyOversizeInitHalts : Obligations.OnlyOversizeInitHalts := by
  refine ⟨fun s w rest nb hrunning hport hdecode hnb hmax hbus => ?_, fun s t h hhalted => ?_,
    fun s hhalted => ⟨step_halted hhalted, not_finished_of_halted hhalted⟩⟩
  · obtain ⟨-, -, hoversize, -⟩ := busInitAllocatesZeroedBuffer nb { s with port := rest }
    exact (step_legal hrunning hport hdecode).trans (hoversize hnb hbus hmax)
  · obtain ⟨w, rest, nb, hport, hdecode, hmax, hbus, rfl⟩ := step_halts h hhalted
    exact ⟨w, rest, nb, hport, hdecode, hmax, hbus, rfl⟩

/-! ## The absent driver (R244) -/

/-- Settles O50: the sub-address check comes before anything an MD command does. -/
theorem invalidSubaddressIsALoggedNoOp : Obligations.InvalidSubaddressIsALoggedNoOp := fun _ _ _ => exec_absent

end Sys2Proof.Machine
end

section
/-! PROOFS. What the block shows after reset (70 R271, R275), and a transmit with two chips selected (70 R279). -/

namespace Sys2Proof.Machine

open Sys2Proof.Safety

/-! ## Reset -/

theorem getReg_unknown_regs (r : Reg) : getReg Chip.unknown.regs r = none := by
  cases r <;> rfl

/-- Settles O1: every driver is a reset one, and every other piece of the state is the value its field is built with. -/
theorem resetLeavesTableValues : Obligations.ResetLeavesTableValues := by
  refine ⟨rfl, fun p ws => ⟨_, rfl, rfl, rfl, rfl, rfl, rfl, rfl, rfl, resetWith_length p ws, fun d hd => ?_,
    fun _ => ⟨rfl, rfl⟩, rfl, rfl, rfl, rfl, rfl, rfl⟩⟩
  rw [resetWith_driver p hd]
  exact ⟨rfl, rfl, rfl, rfl, getReg_unknown_regs, rfl⟩

/-- The current of scale 0 at the full reference (R154). -/
theorem deq_zero_zero (R : Nat) : deq 0 0 R = 310000 / (32 * R) := rfl

/-- Settles O3: the readings are those of any state (R153, R201, R212), here with CS, VSENSE and STATUS at 0. -/
theorem resetReadings : Obligations.ResetReadings := by
  intro p ws d hd hcs hvsense
  have hlen : d < (State.resetWith p ws).drivers.length := by rwa [resetWith_length]
  have hshadow : ((State.resetWith p ws).driver d).shadow = p.resets := by rw [resetWith_driver p hd]; rfl
  have hstatus : ((State.resetWith p ws).driver d).status = 0#20 := by rw [resetWith_driver p hd]; rfl
  have hbit (k : Nat) : statusBit d k (State.resetWith p ws) = .next (replied (State.resetWith p ws) 0#3 0#32) := by
    rw [statusBit_eq k hlen, hstatus]
    simp
  have hreadout := onDriver_readout hlen
  rw [hstatus] at hreadout
  refine ⟨_, rfl, ?_, ?_⟩ <;> simp only [List.forall_mem_cons]
  · have hgetcur := exec_getcur hlen
    have hactcur := exec_actcur hlen
    rw [hshadow, hcs, hvsense, deq_zero_zero] at hgetcur
    rw [hshadow, hstatus, hvsense] at hactcur
    exact ⟨hgetcur, hactcur, nofun⟩
  · exact ⟨hbit 2, hbit 1, hbit 3, hbit 4, hbit 5, hbit 6, hbit 7, hbit 0, hreadout, hreadout, nofun⟩

/-! ## Two chips selected (R279) -/

theorem selectedWith_packed {i : Instr} {d e : Nat} {s : State} (hi : i.target = some d) (h : SelectedWith s d e) :
    SelectedWith (setDriver d (packed i (s.driver d)) s) d e := by
  obtain ⟨hne, he, hcs, hbit⟩ := h
  unfold SelectedWith
  rw [setDriver_packed_wiring hi, setDriver_packed_wiring hi, setDriver_length]
  exact ⟨hne, he, hcs, hbit⟩

/-- What sending to driver `d` leaves, and the status it gives, while the chip of driver `e` is selected too; a further transmit starts from the
same situation. -/
structure LeavesChipsUnknown (d e : Nat) (x : State × Status) : Prop where
  canSend : CanSend x.1 d
  selected : SelectedWith x.1 d e
  status : x.2 = .ok ∨ x.2 = .transferFailure
  target : (x.1.driver d).chip.regs = Chip.unknown.regs
  other : (x.1.driver e).chip.regs = Chip.unknown.regs
  word : x.2 = .ok → (x.1.driver d).chip.statusSel = none

theorem transmit_leavesChipsUnknown {d e : Nat} (v : Reg20) {u : State} (hs : CanSend u d) (he : SelectedWith u d e) :
    LeavesChipsUnknown d e (transmit d v u) := by
  obtain ⟨hcan, -, hfail, hok⟩ := transmit_sends v hs
  obtain ⟨hselected, htarget, hother, hword⟩ := transmit_shared v hs he
  have hstatus : (transmit d v u).2 = .ok ∨ (transmit d v u).2 = .transferFailure := by
    by_cases hanswer : nextAnswer u = .fail
    · exact .inr (hfail hanswer)
    · exact .inl (hok hanswer)
  exact ⟨hcan, hselected, hstatus, htarget, hother, hword⟩

theorem LeavesChipsUnknown.thenTransmit {d e : Nat} {x : State × Status} (h : LeavesChipsUnknown d e x) (v : Reg20) :
    LeavesChipsUnknown d e (thenTransmit d v x) := by
  rw [thenTransmit_eq]
  split
  · exact transmit_leavesChipsUnknown v h.canSend h.selected
  · exact h

/-- A transmitting command that is not refused ends with the status of what it sent (R150). -/
theorem exec_leavesChipsUnknown {i : Instr} {d e : Nat} {s t : State} (ht : i.transmits = true) (hi : i.target = some d)
    (h3 : i ≠ .mdRdstat d 3) (hs : CanSend s d) (he : SelectedWith s d e) (h : exec i s = .next t) :
    ∃ x, LeavesChipsUnknown d e x ∧ t = respond x.2 0#32 x.1 := by
  have hfirst (r : Reg) := transmit_leavesChipsUnknown (getReg (packed i (s.driver d)).shadow r) (canSend_packed hi hs)
    (selectedWith_packed hi he)
  obtain ⟨r, r', -, -, heq | heq⟩ := exec_sending ht hi hs.1 h3 <;>
    rw [heq, conclude_eq, Host.Outcome.next.injEq] at h
  · exact ⟨_, hfirst r, h.symm⟩
  · exact ⟨_, (hfirst r).thenTransmit _, h.symm⟩

/-- A command that sends one register and is answered answers OK (R70). -/
theorem exec_oneShot_ok {i : Instr} {d : Nat} {r : Reg} {s t : State} (h1 : oneShot i = some (d, r)) (hs : CanSend s d)
    (hanswer : nextAnswer s ≠ .fail) (h : exec i s = .next t) : t.respStatus = 0#3 := by
  obtain ⟨hi, -, -⟩ := oneShot_spec h1
  obtain ⟨-, -, -, hok⟩ := transmit_sends (getReg (packed i (s.driver d)).shadow r) (canSend_packed hi hs)
  rw [exec_oneShot h1 hs.1, conclude_eq, Host.Outcome.next.injEq] at h
  subst h
  exact code_eq_zero_iff.2 (hok hanswer)

/-- Settles O45: the chip whose bit stands at 0 is selected at every transfer of the command, so each leaves both chips unknown. -/
theorem sharedSelectLeavesChipsUnknown : Obligations.SharedSelectLeavesChipsUnknown := by
  intro i d e s t ht hi hsel hs hne he hcs hbit h
  have h3 : i ≠ .mdRdstat d 3 := fun heq => hsel 3 heq rfl
  obtain ⟨x, hx, rfl⟩ := exec_leavesChipsUnknown ht hi h3 hs ⟨hne, he, hcs, .inr hbit⟩ h
  refine ⟨hx.status.imp code_eq_zero_iff.2 code_eq_four_iff.2, fun r h1 hanswer => exec_oneShot_ok h1 hs hanswer h,
    fun r => ?_, fun r => ?_, fun hok => hx.word (code_eq_zero_iff.1 hok)⟩
  · rw [respond_driver, hx.target, getReg_unknown_regs]
  · rw [respond_driver, hx.other, getReg_unknown_regs]

end Sys2Proof.Machine
end
